-- ==== Sys2Proof/Word.lean ====
section
/-! DEFINITION. The word types of the block: what spec/00_scope.md R6, R7 and R8 treat as bits. -/

namespace Sys2Proof

/-- One host data byte, one FRAME or PAYLOAD byte, one command word, STATUS (R6, `DATA_WIDTH` and `CMD_WIDTH`). -/
abbrev Byte := BitVec 8

/-- A host byte offset (R6, `ADDR_WIDTH`; R50). -/
abbrev HostAddr := BitVec 10

/-- A plane of 196 bits; cell `P[i]` is bit `i` of the value (R7, R8, `PLANE_LEN`). -/
abbrev Plane := BitVec 196

/-- The 33 bytes of FRAME side by side: bit `b` (LSB-0) of byte `n` is bit `8n + b` (R6 `FRAME_LEN`, R8). -/
abbrev FrameBits := BitVec 264

/-- The 12 bytes of PAYLOAD side by side: bit `b` (LSB-0) of byte `n` is bit `8n + b` (R6 `PAYLOAD_LEN`, R8). -/
abbrev PayloadBits := BitVec 96

/-- A Hamming(13,9) codeword; `d[i]` is bit `i` (spec/41_hamming.md, before R130). -/
abbrev Word13 := BitVec 13

/-- A Hamming(15,11) codeword, and the fifteen cells of CW; `d[i]` is bit `i` (spec/41_hamming.md, before R130). -/
abbrev Word15 := BitVec 15

end Sys2Proof
end

