-- ==== Sys2Proof/Syntax.lean ====
section
/-! DEFINITION. The commands: the spec's instructions (spec/30_encoding.md R80, R81; spec/opcode_table.json).
No command has an operand, an immediate or a mode (R83, R85), so no constructor has an argument. -/

namespace Sys2Proof

/-- One constructor per row of spec/opcode_table.json, in the table's order. -/
inductive Instr where
  /-- `NOP` 0x00 (R201). -/
  | nop
  /-- `BPTC.DEC` 0x01 (R179). -/
  | bptcDec
  /-- `BPTC.ENC` 0x02 (R180). -/
  | bptcEnc
  /-- `BPTC.UNPACK` 0x10 (R110). -/
  | bptcUnpack
  /-- `BPTC.DEINTERLEAVE` 0x11 (R111). -/
  | bptcDeinterleave
  /-- `BPTC.CORRECT` 0x12 (R175). -/
  | bptcCorrect
  /-- `BPTC.EXTRACT` 0x13 (R176). -/
  | bptcExtract
  /-- `BPTC.PLACE` 0x18 (R177). -/
  | bptcPlace
  /-- `BPTC.PARITY` 0x19 (R178). -/
  | bptcParity
  /-- `BPTC.INTERLEAVE` 0x1A (R112). -/
  | bptcInterleave
  /-- `BPTC.PACK` 0x1B (R113). -/
  | bptcPack
  /-- `HAM1393.DEC` 0x20 (R145). -/
  | ham1393Dec
  /-- `HAM1393.ENC` 0x21 (R146). -/
  | ham1393Enc
  /-- `HAM15113.DEC` 0x22 (R147). -/
  | ham15113Dec
  /-- `HAM15113.ENC` 0x23 (R148). -/
  | ham15113Enc
  deriving DecidableEq, Repr

end Sys2Proof
end

