-- ==== Sys2Proof/Decode.lean ====
section
/-! DEFINITION. The command word: decoder, encoder and the host's reading of the opcode table
(spec/30_encoding.md R80 to R85). -/

namespace Sys2Proof

/-- Why a command word is no command. -/
inductive DecodeError where
  /-- One of the 241 reserved words (R84). Safe: R200 gives writing it its whole effect. -/
  | reserved (word : Byte)
  deriving DecidableEq, Repr

/-- The format C8: `grp` is bits `[7:4]` of the command word (R80). -/
def cmdGroup (v : Byte) : BitVec 4 := v.extractLsb' 4 4

/-- The format C8: `fn` is bits `[3:0]` of the command word (R80). -/
def cmdFn (v : Byte) : BitVec 4 := v.extractLsb' 0 4

/-- The command whose `grp` and `fn` fields are these (R81), if there is one. -/
def commandAt (grp fn : Nat) : Option Instr :=
  match grp, fn with
  | 0, 0 => some .nop
  | 0, 1 => some .bptcDec
  | 0, 2 => some .bptcEnc
  | 1, 0 => some .bptcUnpack
  | 1, 1 => some .bptcDeinterleave
  | 1, 2 => some .bptcCorrect
  | 1, 3 => some .bptcExtract
  | 1, 8 => some .bptcPlace
  | 1, 9 => some .bptcParity
  | 1, 10 => some .bptcInterleave
  | 1, 11 => some .bptcPack
  | 2, 0 => some .ham1393Dec
  | 2, 1 => some .ham1393Enc
  | 2, 2 => some .ham15113Dec
  | 2, 3 => some .ham15113Enc
  | _, _ => none

/-- The decoder: total on all 256 words, every bit compared (R82); a reserved word is rejected by name (R84). -/
def decode (v : Byte) : Except DecodeError Instr :=
  match commandAt (cmdGroup v).toNat (cmdFn v).toNat with
  | some i => .ok i
  | none => .error (.reserved v)

/-- The command word of an instruction: the "word" column of R81. -/
def encode : Instr → Byte
  | .nop => 0x00
  | .bptcDec => 0x01
  | .bptcEnc => 0x02
  | .bptcUnpack => 0x10
  | .bptcDeinterleave => 0x11
  | .bptcCorrect => 0x12
  | .bptcExtract => 0x13
  | .bptcPlace => 0x18
  | .bptcParity => 0x19
  | .bptcInterleave => 0x1A
  | .bptcPack => 0x1B
  | .ham1393Dec => 0x20
  | .ham1393Enc => 0x21
  | .ham15113Dec => 0x22
  | .ham15113Enc => 0x23

/-- The reserved words, range by range as R84 lists them. -/
def reservedWord (v : Byte) : Bool :=
  let x := v.toNat
  (0x30 ≤ x && x ≤ 0xFF) || (0x03 ≤ x && x ≤ 0x0F) || (0x14 ≤ x && x ≤ 0x17) || (0x1C ≤ x && x ≤ 0x1F)
    || (0x24 ≤ x && x ≤ 0x2F)

/-- The instruction the decoder reads from an opcode-table word: every command is the one byte of one host write (R85),
so only a word of 8 bits is one. -/
def decodeTableWord (nbits w : Nat) : Option Instr :=
  if nbits == 8 && Nat.blt w 256 then (decode (BitVec.ofNat 8 w)).toOption else none

end Sys2Proof
end

