-- ==== Sys2Proof/Config.lean ====
section
/-! DEFINITION. The implementation parameters of spec/00_scope.md R6, and the free values: what the spec leaves open. -/

namespace Sys2Proof

/-- The two values of the OPEN parameter `UNWRITTEN_READ` (R6, R34; spec/93 U1). -/
inductive UnwrittenRead where
  /-- A read of an unwritten cell is a model fault (R206). -/
  | fault
  /-- A read of an unwritten cell returns a free bit, fresh for each read (R34). -/
  | draw
  deriving DecidableEq, Repr

/-- `INTERLEAVE_MULT` (R6, R102). -/
def Config.interleaveMult : Nat := 181

/-- The multiplier of the inverse permutation (R102: `181 * 13 = 12 * 196 + 1`). -/
def Config.interleaveInverse : Nat := 13

/-- `PLANE_LEN` (R6). -/
def Config.planeLen : Nat := 196

/-- `N_COLS` (R6). -/
def Config.nCols : Nat := 15

/-- `N_DATA_ROWS` (R6). -/
def Config.nDataRows : Nat := 9

/-- `MAX_PASSES` (R6, R169). -/
def Config.maxPasses : Nat := 5

/-- FREE VALUE (DESIGN CHOICE, notes/assumptions/2.md): the `n` bits that draw number `k` returns for the unwritten
cells one read operation reads (R34 `draw`). Nothing constrains it. -/
opaque Config.drawnBits (n k : Nat) : BitVec n

/-- FREE VALUE (notes/assumptions/7.md): what PASS holds between commands (R30: unspecified; spec/93 U3: any value).
Only its range 0..5 is given (R20, R30). -/
opaque Config.idlePass (k : Nat) : Fin 6

/-- FREE VALUE (notes/assumptions/7.md): what FIXING holds between commands (R30: unspecified; spec/93 U3: any value). -/
opaque Config.idleFixing (k : Nat) : Bool

end Sys2Proof
end

