-- ==== Sys2Proof/Machine/HostAccess.lean ====
section
/-! DEFINITION. What reaches the block from outside: the host's accesses (spec/20_memory.md R50 to R53), the reset event
(spec/70_reset_and_hazards.md R230), and the locations of the host address map (R51). Types only. -/

namespace Sys2Proof.Machine

/-- Who performs an access. One instance serves one host agent (R63). -/
inductive Agent where
  /-- The one host agent of the instance. -/
  | host
  /-- Any other agent: its accesses are refused (R63, R206, R234). -/
  | other
  deriving DecidableEq, Repr

/-- The byte a host write carries. -/
inductive WriteData where
  /-- The literal byte of `WR <addr>, <byte>` (R86). -/
  | byte (v : Byte)
  /-- The host's latest read result XOR `m`: the data of the second access of `FLIP` (R87: `WR addr, x ^ 0x01`). -/
  | lastXor (m : Byte)
  deriving DecidableEq, Repr

/-- One host access (R52, R53): the addressing mode is absolute, the width one byte. -/
inductive HostAccess where
  /-- `WR <addr>, <byte>`: `MemWrite(addr, 1, v)`. -/
  | wr (addr : HostAddr) (data : WriteData)
  /-- `RD <addr>`: `MemRead(addr, 1)`. -/
  | rd (addr : HostAddr)
  deriving DecidableEq, Repr

/-- One event at the block's edge. -/
inductive HostEvent where
  /-- An access by an agent. -/
  | access (who : Agent) (a : HostAccess)
  /-- The reset event (R230). -/
  | reset
  deriving DecidableEq, Repr

/-- A location of the host address map (R51). -/
inductive Location where
  /-- `FRAME[n]`. -/
  | frame (n : Nat)
  /-- `PAYLOAD[n]`. -/
  | payload (n : Nat)
  /-- `RAW[i]`. -/
  | raw (i : Nat)
  /-- `DEINT[i]`. -/
  | deint (i : Nat)
  /-- `CW[i]`. -/
  | cw (i : Nat)
  /-- `CORR`, read only. -/
  | corr
  /-- `CMD`, write only. -/
  | cmd
  /-- `STATUS`, read only. -/
  | status
  /-- A reserved offset (R54). -/
  | reserved
  deriving DecidableEq, Repr

end Sys2Proof.Machine
end

