-- ==== Sys2Proof/Machine/State.lean ====
section
/-! DEFINITION. The machine's state (spec/10_state.md R20), what can stop it, and the state after reset (R230). -/

namespace Sys2Proof.Machine

/-- A file of `n` one-bit cells with the written state of each (R34, R35). `written` has bit `i` set when cell `i` has been
written since reset. A bit of `val` under an unwritten cell carries nothing: it is 0 in the canonical form (`Cells.wf`) and
no operation reads it (notes/assumptions/8.md). -/
structure Cells (n : Nat) where
  val : BitVec n
  written : BitVec n
  deriving DecidableEq, Repr

/-- Every cell unwritten: the reset contents of FRAME, PAYLOAD, RAW, DEINT and CW (R34, R230). -/
def Cells.unwritten (n : Nat) : Cells n := ⟨0, 0⟩

/-- The canonical form: no value stands under an unwritten cell, so that equal files are equal data. -/
def Cells.wf {n : Nat} (c : Cells n) : Bool := c.val &&& ~~~c.written == 0

/-- The five files of cells, by name (R20). -/
inductive CellFile where
  | frame
  | payload
  | raw
  | deint
  | cw
  deriving DecidableEq, Repr

/-- What stops the machine with a fault. -/
inductive Fault where
  /-- A host read, or a command, read an unwritten cell of this file under `UNWRITTEN_READ = fault` (R34, R206, R208).
  Raised by `readCells` alone. Safe: the spec itself gives the run no result. -/
  | unwrittenRead (file : CellFile)
  deriving DecidableEq, Repr

/-- Why the model refuses a step. -/
inductive Refusal where
  /-- The arm of `exec` for this mnemonic has no meaning yet. Raised by no arm of this model. Safe. -/
  | notModelled (mnemonic : String)
  /-- An access by an agent other than the instance's one host (R63, R206, R234; spec/93 U10 `refuse`). Raised by `perform`. Safe:
  the spec says that the model refuses it. -/
  | secondAgent
  /-- A host write whose data is the latest read result, in a sequence that has read nothing yet: no line of R86 or R87 expands
  to such a sequence. Raised by `resolveData`. Safe. -/
  | noReadResult
  deriving DecidableEq, Repr

/-- The state of one instance (R20), followed by the model's own fields. Plain data. -/
structure State where
  /-- FRAME, 33 bytes; bit `b` of `FRAME[n]` is cell `8n + b` (R21, R35: written state kept per bit). -/
  frame : Cells 264
  /-- PAYLOAD, 12 bytes; bit `b` of `PAYLOAD[n]` is cell `8n + b` (R22). -/
  payload : Cells 96
  /-- RAW, 196 one-bit cells (R23). -/
  raw : Cells 196
  /-- DEINT, 196 one-bit cells (R24). -/
  deint : Cells 196
  /-- CW, 15 one-bit cells (R25). -/
  cw : Cells 15
  /-- CORR (R26). -/
  corr : Bool
  /-- STATUS: ILL in bit 0, bits `[7:1]` hardwired 0 (R28). -/
  status : Byte
  /-- PASS, internal, 0..5 (R30). -/
  pass : Fin 6
  /-- FIXING, internal (R30). -/
  fixing : Bool
  /-- MODEL'S OWN: the instance's value of the OPEN parameter `UNWRITTEN_READ` (R6, R34). No step changes it. -/
  unwrittenRead : UnwrittenRead
  /-- MODEL'S OWN: how many free values have been drawn; the next draw's number. -/
  draws : Nat
  /-- MODEL'S OWN: the rest of the host's sequence of events, the next one first (R33: the sequence is the program). -/
  pending : List HostEvent
  /-- MODEL'S OWN: the index in the sequence of the next event (R33, D9: a model's "pc"). -/
  pc : Nat
  /-- MODEL'S OWN: the results of the host's reads so far, oldest first (R86: a read's value is the line's result). -/
  results : List Byte
  deriving DecidableEq, Repr

/-- The canonical form of everything the host can address (the five files), as one check. -/
def Memory.wf (s : State) : Bool :=
  s.frame.wf && s.payload.wf && s.raw.wf && s.deint.wf && s.cw.wf

/-- The state right after reset (R230), with nothing placed in the host's sequence. PASS and FIXING: the spec gives no value
(DESIGN CHOICE 0, notes/assumptions/7.md). `UNWRITTEN_READ`: DESIGN CHOICE `draw` (notes/assumptions/1.md). -/
def State.reset : State where
  frame := Cells.unwritten 264
  payload := Cells.unwritten 96
  raw := Cells.unwritten 196
  deint := Cells.unwritten 196
  cw := Cells.unwritten 15
  corr := false
  status := 0x00
  pass := 0
  fixing := false
  unwrittenRead := .draw
  draws := 0
  pending := []
  pc := 0
  results := []

end Sys2Proof.Machine
end

