-- ==== Sys2Proof/Machine/Flags.lean ====
section
/-! DEFINITION. The two flags of the block: STATUS.ILL and CORR (spec/10_state.md R26, R28, R29; spec/60_exceptions.md R200). -/

namespace Sys2Proof.Machine

/-- The value of STATUS with this ILL bit: ILL in bit 0, bits `[7:1]` 0 (R28). -/
def statusWord (ill : Bool) : Byte := if ill then 0x01 else 0x00

/-- What a read of STATUS returns: bits `[7:1]` are hardwired to 0 (R28, R33). -/
def readStatus (s : State) : Byte := s.status &&& 0x01

/-- The byte of a one-bit location: the cell in bit 0, bits `[7:1]` 0 (R58, `zext_8` of R53). -/
def bitByte (b : Bool) : Byte := if b then 0x01 else 0x00

/-- CORR takes the result of a Hamming decode command: 1 when it flipped a bit (R26). -/
def setCorr (f : Bool) (s : State) : State := { s with corr := f }

end Sys2Proof.Machine
end

