-- ==== Sys2Proof/Machine/Ops.lean ====
section
/-! DEFINITION. The shared operations: building bit vectors, reading and writing cells (spec/10_state.md R34, R35), the
locations of the host map (spec/20_memory.md R51 to R54), and the one exception (spec/60_exceptions.md R200). -/

namespace Sys2Proof.Machine

/-- A step's outcome that carries a value on the way. -/
abbrev Result (α : Type) : Type := Host.Outcome α Fault Refusal

/-- Go on with the value of a result; a fault or a refusal stops (R206, R208: it is the only outcome). -/
def andThen {α β : Type} (x : Result α) (f : α → Result β) : Result β :=
  match x with
  | .next a => f a
  | .fault r => .fault r
  | .refused r => .refused r

/-- The `n`-bit value whose bit `i` is `f i`. -/
def ofBits : (n : Nat) → (Nat → Bool) → BitVec n
  | 0, _ => 0#0
  | n + 1, f => BitVec.cons (f n) (ofBits n f)

/-- The cells of `m` that nothing has written since reset (R34). -/
def Cells.missing {n : Nat} (c : Cells n) (m : BitVec n) : BitVec n := m &&& ~~~c.written

/-- Every cell of `m` has been written. -/
def Cells.covers {n : Nat} (c : Cells n) (m : BitVec n) : Bool := c.missing m == 0

/-- What a read of the cells of `m` returns: the value of each written one, the bits of `fresh` for the others (R34 `draw`);
0 outside `m`, which is not read. -/
def Cells.readValue {n : Nat} (c : Cells n) (m fresh : BitVec n) : BitVec n :=
  (c.val &&& c.written &&& m) ||| (fresh &&& c.missing m)

/-- Write the bits of `v` to the cells of `m`, and mark those cells written (R34); the other cells keep both. -/
def Cells.put {n : Nat} (c : Cells n) (m v : BitVec n) : Cells n :=
  ⟨(c.val &&& ~~~m) ||| (v &&& m), c.written ||| m⟩

/-- A file all of whose cells have just been written. -/
def Cells.full {n : Nat} (v : BitVec n) : Cells n := ⟨v, BitVec.allOnes n⟩

/-- ONE read operation of the cells of `m` (R34): written cells give their value. If one is unwritten, `UNWRITTEN_READ`
decides: `fault` stops the run (R206); `draw` gives fresh free bits for the unwritten ones, and they stay unwritten. -/
def readCells {n : Nat} (f : CellFile) (c : Cells n) (m : BitVec n) (s : State) : Result (BitVec n × State) :=
  match c.covers m, s.unwrittenRead with
  | true, _ => .next (c.readValue m 0, s)
  | false, .fault => .fault (.unwrittenRead f)
  | false, .draw => .next (c.readValue m (Config.drawnBits n s.draws), { s with draws := s.draws + 1 })

/-- The cells of byte `k` of a byte buffer. -/
def byteMask (n k : Nat) : BitVec n := BitVec.ofNat n 0xFF <<< (8 * k)

/-- Byte `k` of a byte buffer (R8). -/
def byteAt {n : Nat} (v : BitVec n) (k : Nat) : Byte := v.extractLsb' (8 * k) 8

/-- A byte standing at byte `k` of a buffer, all other bytes 0. -/
def byteTo (n k : Nat) (v : Byte) : BitVec n := v.setWidth n <<< (8 * k)

/-- Cell `i` of a file of one-bit cells. -/
def cellMask (n i : Nat) : BitVec n := BitVec.ofNat n 1 <<< i

/-- Data bit `[0]` of a byte standing at cell `i` (R58: the other bits are ignored). -/
def cellTo (n i : Nat) (v : Byte) : BitVec n := if v.getLsbD 0 then cellMask n i else 0

/-- The host address map (R51). -/
def locate (addr : HostAddr) : Location :=
  let a := addr.toNat
  if a ≤ 0x020 then .frame a
  else if 0x040 ≤ a && a ≤ 0x04B then .payload (a - 0x040)
  else if 0x100 ≤ a && a ≤ 0x1C3 then .raw (a - 0x100)
  else if 0x200 ≤ a && a ≤ 0x2C3 then .deint (a - 0x200)
  else if 0x300 ≤ a && a ≤ 0x30E then .cw (a - 0x300)
  else if a == 0x310 then .corr
  else if a == 0x3F0 then .cmd
  else if a == 0x3F1 then .status
  else .reserved

/-- The effect of a host write on a location other than CMD (R52): one byte, or one cell from data bit 0; CORR, STATUS and
the reserved offsets ignore it (R54). CMD holds no state (R27): what a write to it runs is `memWrite`'s. -/
def storeAt (l : Location) (v : Byte) (s : State) : State :=
  match l with
  | .frame n => { s with frame := s.frame.put (byteMask 264 n) (byteTo 264 n v) }
  | .payload n => { s with payload := s.payload.put (byteMask 96 n) (byteTo 96 n v) }
  | .raw i => { s with raw := s.raw.put (cellMask 196 i) (cellTo 196 i v) }
  | .deint i => { s with deint := s.deint.put (cellMask 196 i) (cellTo 196 i v) }
  | .cw i => { s with cw := s.cw.put (cellMask 15 i) (cellTo 15 i v) }
  | .corr => s
  | .cmd => s
  | .status => s
  | .reserved => s

/-- One byte of a buffer as a read operation gives it. -/
def readByteAt {n : Nat} (f : CellFile) (c : Cells n) (k : Nat) (s : State) : Result (Byte × State) :=
  andThen (readCells f c (byteMask n k) s) fun (v, t) => .next (byteAt v k, t)

/-- One cell of a file as a read operation gives it, in bit 0 of a byte (R58). -/
def readCellAt {n : Nat} (f : CellFile) (c : Cells n) (i : Nat) (s : State) : Result (Byte × State) :=
  andThen (readCells f c (cellMask n i) s) fun (v, t) => .next (bitByte (v.getLsbD i), t)

/-- `MemRead` at a location (R53): the byte returned. Only the count of draws can change. -/
def loadAt (l : Location) (s : State) : Result (Byte × State) :=
  match l with
  | .frame n => readByteAt .frame s.frame n s
  | .payload n => readByteAt .payload s.payload n s
  | .raw i => readCellAt .raw s.raw i s
  | .deint i => readCellAt .deint s.deint i s
  | .cw i => readCellAt .cw s.cw i s
  | .corr => .next (bitByte s.corr, s)
  | .cmd => .next (0x00, s)
  | .status => .next (readStatus s, s)
  | .reserved => .next (0x00, s)

/-- What stands at a host offset, without reading it: the byte, and the mask of its bits that hold a value. A location that is
always readable has the mask 0xFF. It is for statements about what is unchanged; no step uses it. -/
def peek (s : State) (addr : HostAddr) : Byte × Byte :=
  match locate addr with
  | .frame n => (byteAt s.frame.val n, byteAt s.frame.written n)
  | .payload n => (byteAt s.payload.val n, byteAt s.payload.written n)
  | .raw i => (bitByte (s.raw.val.getLsbD i), bitByte (s.raw.written.getLsbD i))
  | .deint i => (bitByte (s.deint.val.getLsbD i), bitByte (s.deint.written.getLsbD i))
  | .cw i => (bitByte (s.cw.val.getLsbD i), bitByte (s.cw.written.getLsbD i))
  | .corr => (bitByte s.corr, 0xFF)
  | .cmd => (0x00, 0xFF)
  | .status => (readStatus s, 0xFF)
  | .reserved => (0x00, 0xFF)

/-- TAKING THE ONE EXCEPTION, IllegalCommand (R200, R209): STATUS becomes 0x01 and nothing else changes. No state is saved,
no control is transferred. -/
def raiseIllegalCommand (s : State) : State := { s with status := statusWord true }

/-- The end of every defined command: `STATUS <- 0x00` (R200). It is also the only way back from IllegalCommand (R210). -/
def complete (s : State) : State := { s with status := statusWord false }

/-- The end of the correction loop: between commands PASS and FIXING hold unspecified values (R30; spec/93 U3), drawn free. -/
def leaveLoop (s : State) : State :=
  { s with pass := Config.idlePass s.draws, fixing := Config.idleFixing s.draws, draws := s.draws + 1 }

/-- The reset event (R230): the block's own state as after reset. PASS and FIXING are unspecified, so they are drawn free. The
instance's parameter and the host's side (its sequence, its position, its results) are not the block's and stay. -/
def resetBlock (s : State) : State :=
  leaveLoop
    { s with
      frame := Cells.unwritten 264
      payload := Cells.unwritten 96
      raw := Cells.unwritten 196
      deint := Cells.unwritten 196
      cw := Cells.unwritten 15
      corr := false
      status := statusWord false }

end Sys2Proof.Machine
end

