-- ==== Sys2Proof/Machine/Operands.lean ====
section
/-! DEFINITION. The implicit operands of the commands (spec/30_encoding.md R83; spec/70 R232): where each bit lies in a
buffer or a plane, and which cells a command reads and writes. -/

namespace Sys2Proof.Machine

/-- `BytesToBitsBE(v)`: bit `k` of the answer is `b[k] = v[7 - k]` (R100). -/
def bytesToBitsBE (v : Byte) : Byte := ofBits 8 fun k => v.getLsbD (7 - k)

/-- `BitsToByteBE(b)`: the byte whose bit `7 - k` is `b[k]` (R101). -/
def bitsToByteBE (b : Byte) : Byte := ofBits 8 fun x => b.getLsbD (7 - x)

/-- The place of plane bit `i` in FRAME, as (byte, LSB-0 bit): R108, and the table after R109. -/
def frameHome (i : Nat) : Nat × Nat :=
  if i < 96 then (i / 8, 7 - i % 8)
  else if i == 96 then (12, 7)
  else if i == 97 then (12, 6)
  else if i == 98 then (20, 1)
  else if i == 99 then (20, 0)
  else (21 + (i - 100) / 8, 7 - (i - 100) % 8)

/-- The plane bit that bit `b` of frame byte `n` carries, if it carries one (R109): none for `F[12][5:0]`, `F[13]` to `F[19]`
and `F[20][7:2]`. -/
def rawInFrame (n b : Nat) : Option Nat :=
  if n < 12 then some (8 * n + (7 - b))
  else if n == 12 then (if b == 7 then some 96 else if b == 6 then some 97 else none)
  else if n < 20 then none
  else if n == 20 then (if b == 1 then some 98 else if b == 0 then some 99 else none)
  else if n ≤ 32 then some (100 + 8 * (n - 21) + (7 - b))
  else none

/-- The cells `lo` to `hi` of a file of `n`. -/
def rangeMask (n lo hi : Nat) : BitVec n := BitVec.ofNat n (2 ^ (hi + 1 - lo) - 1) <<< lo

/-- The cells of a list of ranges, each (first, last). -/
def cellsIn (n : Nat) (ranges : List (Nat × Nat)) : BitVec n :=
  ranges.foldl (fun m r => m ||| rangeMask n r.1 r.2) 0

/-- The FRAME bits that carry the plane: what BPTC.UNPACK reads and BPTC.PACK writes (R108, R109, R232). In cells they are
bytes 0 to 11, bits `[7:6]` of byte 12, bits `[1:0]` of byte 20, and bytes 21 to 32. -/
def framePlaneMask : FrameBits := cellsIn 264 [(0, 95), (102, 103), (160, 161), (168, 263)]

/-- Payload bit `P_j` is bit `7 - (j mod 8)` of PAYLOAD byte `j div 8` (R22): its cell in the buffer, and back. -/
def payloadCell (j : Nat) : Nat := 8 * (j / 8) + (7 - j % 8)

/-- The nine payload ranges of DEINT, each (first, last) (R163, R165). -/
def payloadRanges : List (Nat × Nat) :=
  [(4, 11), (16, 26), (31, 41), (46, 56), (61, 71), (76, 86), (91, 101), (106, 116), (121, 131)]

/-- The DEINT position of payload bit `P_j` (R163): `P0` to `P7` at 4 to 11, then eleven bits in each row 1 to 8 from
position `15r + 1` on. -/
def payloadHome (j : Nat) : Nat := if j < 8 then 4 + j else 15 * ((j - 8) / 11 + 1) + 1 + (j - 8) % 11

/-- The payload bit at DEINT position `a`, if `a` lies in a payload range (R163, R164). -/
def payloadAt (a : Nat) : Option Nat :=
  if a < 4 then none
  else if a ≤ 11 then some (a - 4)
  else if 16 ≤ a && a ≤ 131 && (a - 1) % 15 < 11 then some (8 + 11 * ((a - 1) / 15 - 1) + (a - 1) % 15)
  else none

/-- The 96 payload positions of DEINT: what BPTC.EXTRACT reads (R176, R232). -/
def payloadMask : Plane := cellsIn 196 payloadRanges

/-- The matrix: positions 1 to 195 of DEINT (R160): what BPTC.CORRECT reads and writes (R175, R232). -/
def matrixMask : Plane := cellsIn 196 [(1, 195)]

/-- The data parts of rows 0 to 8: what BPTC.PARITY reads (R161, R178, R232). -/
def rowDataMask : Plane :=
  cellsIn 196 [(1, 11), (16, 26), (31, 41), (46, 56), (61, 71), (76, 86), (91, 101), (106, 116), (121, 131)]

/-- Positions `15r + 12` to `15r + 15` of rows 0 to 8, and rows 9 to 12: what BPTC.PARITY writes (R178). -/
def parityMask : Plane :=
  cellsIn 196
    [(12, 15), (27, 30), (42, 45), (57, 60), (72, 75), (87, 90), (102, 105), (117, 120), (132, 135), (136, 195)]

/-- `CW[0..12]`, the operand of HAM1393.DEC (R145). -/
def cw13Mask : Word15 := 0x1FFF

/-- `CW[0..8]`, what HAM1393.ENC reads (R146). -/
def cw9Mask : Word15 := 0x01FF

/-- `CW[9..12]`, what HAM1393.ENC writes (R146). -/
def cw13ParityMask : Word15 := 0x1E00

/-- `CW[0..14]`, the operand of HAM15113.DEC (R147). -/
def cw15Mask : Word15 := 0x7FFF

/-- `CW[0..10]`, what HAM15113.ENC reads (R148). -/
def cw11Mask : Word15 := 0x07FF

/-- `CW[11..14]`, what HAM15113.ENC writes (R148). -/
def cw15ParityMask : Word15 := 0x7800

end Sys2Proof.Machine
end

