-- ==== Sys2Proof/Machine/Bitplane.lean ====
section
/-! DEFINITION. Bit planes, frame packing and the interleaver (spec/40_bitplane_interleaver.md): the pure functions, the
steps on the state, and BPTC.UNPACK, BPTC.DEINTERLEAVE, BPTC.INTERLEAVE and BPTC.PACK. -/

namespace Sys2Proof.Machine

/-- `pi(a) = (a * 181) mod 196` (R102). -/
def interleavePos (a : Nat) : Nat := a * Config.interleaveMult % Config.planeLen

/-- `pi_inv(i) = (i * 13) mod 196` (R102). -/
def interleaveInv (i : Nat) : Nat := i * Config.interleaveInverse % Config.planeLen

/-- `Deinterleave(R)`: `D[a] = R[pi(a)]` (R103). -/
def deinterleave (r : Plane) : Plane := ofBits 196 fun a => r.getLsbD (interleavePos a)

/-- `Interleave(D)`: `R[i] = D[pi_inv(i)]` (R104). -/
def interleave (d : Plane) : Plane := ofBits 196 fun i => d.getLsbD (interleaveInv i)

/-- `FrameToRaw(F)` (R108). -/
def frameToRaw (f : FrameBits) : Plane :=
  ofBits 196 fun i => f.getLsbD (8 * (frameHome i).1 + (frameHome i).2)

/-- `RawToFrame(R, F)` (R109): the bits that carry the plane come from `r`, every other bit is kept from `f`. -/
def rawToFrame (r : Plane) (f : FrameBits) : FrameBits :=
  ofBits 264 fun x =>
    match rawInFrame (x / 8) (x % 8) with
    | some i => r.getLsbD i
    | none => f.getLsbD x

/-- `RAW <- FrameToRaw(FRAME)` (R110; step 1 of R179). -/
def unpackFrame (s : State) : Result State :=
  andThen (readCells .frame s.frame framePlaneMask s) fun (f, t) => .next { t with raw := Cells.full (frameToRaw f) }

/-- `DEINT <- Deinterleave(RAW)` (R111; step 2 of R179). -/
def deinterleaveRaw (s : State) : Result State :=
  andThen (readCells .raw s.raw (BitVec.allOnes 196) s) fun (r, t) => .next { t with deint := Cells.full (deinterleave r) }

/-- `RAW <- Interleave(DEINT)` (R112; R180). -/
def interleaveDeint (s : State) : Result State :=
  andThen (readCells .deint s.deint (BitVec.allOnes 196) s) fun (d, t) => .next { t with raw := Cells.full (interleave d) }

/-- `FRAME <- RawToFrame(RAW, FRAME)` (R113; R180). The kept bits of FRAME are copied, not read: written or not, they stay as
they are (R35). -/
def packFrame (s : State) : Result State :=
  andThen (readCells .raw s.raw (BitVec.allOnes 196) s) fun (r, t) =>
    .next { t with frame := t.frame.put framePlaneMask (rawToFrame r t.frame.val) }

/-- BPTC.UNPACK (R110). -/
def execBptcUnpack (s : State) : Result State := andThen (unpackFrame s) fun t => .next (complete t)

/-- BPTC.DEINTERLEAVE (R111). -/
def execBptcDeinterleave (s : State) : Result State := andThen (deinterleaveRaw s) fun t => .next (complete t)

/-- BPTC.INTERLEAVE (R112). -/
def execBptcInterleave (s : State) : Result State := andThen (interleaveDeint s) fun t => .next (complete t)

/-- BPTC.PACK (R113). -/
def execBptcPack (s : State) : Result State := andThen (packFrame s) fun t => .next (complete t)

end Sys2Proof.Machine
end

