-- ==== Sys2Proof/Machine/Hamming.lean ====
section
/-! DEFINITION. The Hamming(13,9) column code and the Hamming(15,11) row code (spec/41_hamming.md), and the four commands that
apply them to CW. The equations and tables are the spec's, which it marks as general knowledge (notes/assumptions/17.md). -/

namespace Sys2Proof.Machine

/-- A 4-bit value from its bits: `b0 | b1 << 1 | b2 << 2 | b3 << 3` (R132, R138). -/
def nibble (b0 b1 b2 b3 : Bool) : BitVec 4 :=
  ofBits 4 fun j => if j == 0 then b0 else if j == 1 then b1 else if j == 2 then b2 else b3

/-- The parity checks `p0` to `p3` of Hamming(13,9), as bits 0 to 3 (R131). -/
def parity1393 (w : Word13) : BitVec 4 :=
  let d := w.getLsbD
  nibble (d 0 ^^ d 1 ^^ d 3 ^^ d 5 ^^ d 6)
    (d 0 ^^ d 1 ^^ d 2 ^^ d 4 ^^ d 6 ^^ d 7)
    (d 0 ^^ d 1 ^^ d 2 ^^ d 3 ^^ d 5 ^^ d 7 ^^ d 8)
    (d 0 ^^ d 2 ^^ d 4 ^^ d 5 ^^ d 8)

/-- The syndrome of Hamming(13,9): `s_j = p_j ^ d[9 + j]` (R132). -/
def syndrome1393 (w : Word13) : BitVec 4 := parity1393 w ^^^ w.extractLsb' 9 4

/-- The syndrome table `T1393` (R133); none for 0 (no error) and for 0x9 and 0xB (uncorrectable). -/
def flipPos1393 (s : BitVec 4) : Option Nat :=
  match s.toNat with
  | 0x1 => some 9
  | 0x2 => some 10
  | 0x3 => some 6
  | 0x4 => some 11
  | 0x5 => some 3
  | 0x6 => some 7
  | 0x7 => some 1
  | 0x8 => some 12
  | 0xA => some 4
  | 0xC => some 8
  | 0xD => some 5
  | 0xE => some 2
  | 0xF => some 0
  | _ => none

/-- `H1393Dec` (R134): the corrected word, and whether a bit was flipped. -/
def h1393Dec (w : Word13) : Word13 × Bool :=
  match flipPos1393 (syndrome1393 w) with
  | some k => (w ^^^ cellMask 13 k, true)
  | none => (w, false)

/-- `H1393Enc` (R135): data kept, `d[9 + j] = p_j`; the old parity bits are not read. -/
def h1393Enc (w : Word13) : Word13 := parity1393 w ++ w.extractLsb' 0 9

/-- The parity checks `p0` to `p3` of Hamming(15,11), as bits 0 to 3 (R137). -/
def parity15113 (w : Word15) : BitVec 4 :=
  let d := w.getLsbD
  nibble (d 0 ^^ d 1 ^^ d 2 ^^ d 3 ^^ d 5 ^^ d 7 ^^ d 8)
    (d 1 ^^ d 2 ^^ d 3 ^^ d 4 ^^ d 6 ^^ d 8 ^^ d 9)
    (d 2 ^^ d 3 ^^ d 4 ^^ d 5 ^^ d 7 ^^ d 9 ^^ d 10)
    (d 0 ^^ d 1 ^^ d 2 ^^ d 4 ^^ d 6 ^^ d 7 ^^ d 10)

/-- The syndrome of Hamming(15,11): `s_j = p_j ^ d[11 + j]` (R138). -/
def syndrome15113 (w : Word15) : BitVec 4 := parity15113 w ^^^ w.extractLsb' 11 4

/-- The syndrome table `T15113` (R139): every nonzero syndrome names a position. -/
def flipPos15113 (s : BitVec 4) : Option Nat :=
  match s.toNat with
  | 0x1 => some 11
  | 0x2 => some 12
  | 0x3 => some 8
  | 0x4 => some 13
  | 0x5 => some 5
  | 0x6 => some 9
  | 0x7 => some 3
  | 0x8 => some 14
  | 0x9 => some 0
  | 0xA => some 6
  | 0xB => some 1
  | 0xC => some 10
  | 0xD => some 7
  | 0xE => some 4
  | 0xF => some 2
  | _ => none

/-- `H15113Dec` (R140). -/
def h15113Dec (w : Word15) : Word15 × Bool :=
  match flipPos15113 (syndrome15113 w) with
  | some k => (w ^^^ cellMask 15 k, true)
  | none => (w, false)

/-- `H15113Enc` (R141): data kept, `d[11 + j] = p_j`; the old parity bits are not read. -/
def h15113Enc (w : Word15) : Word15 := parity15113 w ++ w.extractLsb' 0 11

/-- HAM1393.DEC (R145): `CW[0..12]` corrected in place, CORR set; `CW[13]` and `CW[14]` neither read nor written. -/
def execHam1393Dec (s : State) : Result State :=
  andThen (readCells .cw s.cw cw13Mask s) fun (w, t) =>
    let r := h1393Dec (w.setWidth 13)
    .next (complete (setCorr r.2 { t with cw := t.cw.put cw13Mask (r.1.setWidth 15) }))

/-- HAM1393.ENC (R146): `CW[9..12]` from `CW[0..8]`; nothing else of CW, and not CORR, is written. -/
def execHam1393Enc (s : State) : Result State :=
  andThen (readCells .cw s.cw cw9Mask s) fun (w, t) =>
    .next (complete { t with cw := t.cw.put cw13ParityMask ((h1393Enc (w.setWidth 13)).setWidth 15) })

/-- HAM15113.DEC (R147): `CW[0..14]` corrected in place, CORR set. -/
def execHam15113Dec (s : State) : Result State :=
  andThen (readCells .cw s.cw cw15Mask s) fun (w, t) =>
    let r := h15113Dec w
    .next (complete (setCorr r.2 { t with cw := t.cw.put cw15Mask r.1 }))

/-- HAM15113.ENC (R148): `CW[11..14]` from `CW[0..10]`; nothing else of CW, and not CORR, is written. -/
def execHam15113Enc (s : State) : Result State :=
  andThen (readCells .cw s.cw cw11Mask s) fun (w, t) =>
    .next (complete { t with cw := t.cw.put cw15ParityMask (h15113Enc w) })

end Sys2Proof.Machine
end

