-- ==== Sys2Proof/Machine/Bptc.lean ====
section
/-! DEFINITION. BPTC(196,96) (spec/42_bptc.md): the matrix view, payload placement, parity, the bounded correction loop, and
BPTC.CORRECT, BPTC.EXTRACT, BPTC.PLACE, BPTC.PARITY, BPTC.DEC and BPTC.ENC. -/

namespace Sys2Proof.Machine

/-- `GetRow(D, r)`: `row_r[k] = D[15r + 1 + k]` (R161). -/
def getRow (d : Plane) (r : Nat) : Word15 := ofBits 15 fun k => d.getLsbD (15 * r + 1 + k)

/-- `PutRow(D, r, w)`: the 15 bits back to the same positions (R161). -/
def putRow (d : Plane) (r : Nat) (w : Word15) : Plane :=
  ofBits 196 fun i =>
    if 15 * r + 1 ≤ i && i < 15 * r + 16 then w.getLsbD (i - (15 * r + 1)) else d.getLsbD i

/-- `GetCol(D, c)`: `col_c[a] = D[c + 1 + 15a]` (R162). -/
def getCol (d : Plane) (c : Nat) : Word13 := ofBits 13 fun a => d.getLsbD (c + 1 + 15 * a)

/-- `PutCol(D, c, w)`: the 13 bits back to the same positions (R162). -/
def putCol (d : Plane) (c : Nat) (w : Word13) : Plane :=
  ofBits 196 fun i =>
    if c + 1 ≤ i && (i - (c + 1)) % 15 == 0 && (i - (c + 1)) / 15 < 13 then w.getLsbD ((i - (c + 1)) / 15)
    else d.getLsbD i

/-- `ExtractData(D)` (R165), as the image of PAYLOAD: bit `P_j` comes from its DEINT position. -/
def extractData (d : Plane) : PayloadBits := ofBits 96 fun x => d.getLsbD (payloadHome (payloadCell x))

/-- `PlaceData(Y)` (R166): the payload bits at their positions, 0 everywhere else. -/
def placeData (y : PayloadBits) : Plane :=
  ofBits 196 fun a =>
    match payloadAt a with
    | some j => y.getLsbD (payloadCell j)
    | none => false

/-- The row half of `EncodeParity`: rows 0 to 8, ascending (R167). -/
def encodeRows (d : Plane) : Plane :=
  (List.range Config.nDataRows).foldl (fun d r => putRow d r (h15113Enc (getRow d r))) d

/-- The column half of `EncodeParity`: columns 0 to 14, ascending (R167). -/
def encodeCols (d : Plane) : Plane :=
  (List.range Config.nCols).foldl (fun d c => putCol d c (h1393Enc (getCol d c))) d

/-- `EncodeParity(D)`: row parity first, then column parity (R167). -/
def encodeParity (d : Plane) : Plane := encodeCols (encodeRows d)

/-- The working values of the correction loop: the plane and FIXING (R30, R169). -/
structure Working where
  plane : Plane
  fixing : Bool
  deriving DecidableEq, Repr

/-- One column of a pass: decoded, and written back at once if a bit was flipped (R169 (a), R170). -/
def correctCol (x : Working) (c : Nat) : Working :=
  match h1393Dec (getCol x.plane c) with
  | (w, true) => ⟨putCol x.plane c w, true⟩
  | (_, false) => x

/-- One data row of a pass (R169 (b), R170). -/
def correctRow (x : Working) (r : Nat) : Working :=
  match h15113Dec (getRow x.plane r) with
  | (w, true) => ⟨putRow x.plane r w, true⟩
  | (_, false) => x

/-- One pass: FIXING cleared, then the 15 columns, then the 9 data rows, each ascending (R169). -/
def correctPass (d : Plane) : Working :=
  (List.range Config.nDataRows).foldl correctRow ((List.range Config.nCols).foldl correctCol ⟨d, false⟩)

/-- The loop with `fuel` passes left and `pass` of them done: it repeats until a pass flips nothing or the passes are used
up (R169); the answer is the plane and PASS. -/
def correctLoop : (fuel pass : Nat) → Plane → Plane × Nat
  | 0, pass, d => (d, pass)
  | fuel + 1, pass, d =>
    match correctPass d with
    | ⟨d', true⟩ => correctLoop fuel (pass + 1) d'
    | ⟨d', false⟩ => (d', pass + 1)

/-- `Correct(D)`: the corrected plane and the pass count, at most 5 (R169, R171). -/
def correct (d : Plane) : Plane × Nat := correctLoop Config.maxPasses 0 d

/-- `(DEINT, PASS) <- Correct(DEINT)` (R175; step 3 of R179): `DEINT[1..195]` read, then written; `DEINT[0]` untouched. -/
def correctDeint (s : State) : Result State :=
  andThen (readCells .deint s.deint matrixMask s) fun (d, t) =>
    .next (leaveLoop { t with deint := t.deint.put matrixMask (correct d).1 })

/-- `PAYLOAD <- ExtractData(DEINT)` (R176; step 4 of R179). -/
def extractPayload (s : State) : Result State :=
  andThen (readCells .deint s.deint payloadMask s) fun (d, t) => .next { t with payload := Cells.full (extractData d) }

/-- `DEINT <- PlaceData(PAYLOAD)` (R177; R180). -/
def placePayload (s : State) : Result State :=
  andThen (readCells .payload s.payload (BitVec.allOnes 96) s) fun (y, t) =>
    .next { t with deint := Cells.full (placeData y) }

/-- `DEINT <- EncodeParity(DEINT)` (R178; R180): the data parts of rows 0 to 8 read, the parity positions written. -/
def parityDeint (s : State) : Result State :=
  andThen (readCells .deint s.deint rowDataMask s) fun (d, t) =>
    .next { t with deint := t.deint.put parityMask (encodeParity d) }

/-- BPTC.CORRECT (R175). -/
def execBptcCorrect (s : State) : Result State := andThen (correctDeint s) fun t => .next (complete t)

/-- BPTC.EXTRACT (R176). -/
def execBptcExtract (s : State) : Result State := andThen (extractPayload s) fun t => .next (complete t)

/-- BPTC.PLACE (R177). -/
def execBptcPlace (s : State) : Result State := andThen (placePayload s) fun t => .next (complete t)

/-- BPTC.PARITY (R178). -/
def execBptcParity (s : State) : Result State := andThen (parityDeint s) fun t => .next (complete t)

/-- BPTC.DEC (R179): unpack, deinterleave, correct, extract. -/
def execBptcDec (s : State) : Result State :=
  andThen (unpackFrame s) fun s1 =>
  andThen (deinterleaveRaw s1) fun s2 =>
  andThen (correctDeint s2) fun s3 =>
  andThen (extractPayload s3) fun s4 => .next (complete s4)

/-- BPTC.ENC (R180): place, parity, interleave, pack. -/
def execBptcEnc (s : State) : Result State :=
  andThen (placePayload s) fun s1 =>
  andThen (parityDeint s1) fun s2 =>
  andThen (interleaveDeint s2) fun s3 =>
  andThen (packFrame s3) fun s4 => .next (complete s4)

end Sys2Proof.Machine
end

