-- ==== Sys2Proof/Machine/System.lean ====
section
/-! DEFINITION. The one system command (spec/60_exceptions.md R201). -/

namespace Sys2Proof.Machine

/-- NOP (R201): `STATUS <- 0x00` and nothing else. -/
def execNop (s : State) : Result State := .next (complete s)

end Sys2Proof.Machine
end

