-- ==== Sys2Proof/Machine/Dispatch.lean ====
section
/-! DEFINITION. The meaning of each command, one arm per constructor (spec/30_encoding.md R81). -/

namespace Sys2Proof.Machine

def exec (i : Instr) (s : State) : Host.Outcome State Fault Refusal :=
  match i with
  | .nop => Sys2Proof.Machine.execNop s
  | .bptcDec => Sys2Proof.Machine.execBptcDec s
  | .bptcEnc => Sys2Proof.Machine.execBptcEnc s
  | .bptcUnpack => Sys2Proof.Machine.execBptcUnpack s
  | .bptcDeinterleave => Sys2Proof.Machine.execBptcDeinterleave s
  | .bptcCorrect => Sys2Proof.Machine.execBptcCorrect s
  | .bptcExtract => Sys2Proof.Machine.execBptcExtract s
  | .bptcPlace => Sys2Proof.Machine.execBptcPlace s
  | .bptcParity => Sys2Proof.Machine.execBptcParity s
  | .bptcInterleave => Sys2Proof.Machine.execBptcInterleave s
  | .bptcPack => Sys2Proof.Machine.execBptcPack s
  | .ham1393Dec => Sys2Proof.Machine.execHam1393Dec s
  | .ham1393Enc => Sys2Proof.Machine.execHam1393Enc s
  | .ham15113Dec => Sys2Proof.Machine.execHam15113Dec s
  | .ham15113Enc => Sys2Proof.Machine.execHam15113Enc s

end Sys2Proof.Machine
end

