-- ==== Sys2Proof/Machine/HostPort.lean ====
section
/-! DEFINITION. The host port: one access performed whole (spec/20_memory.md R52, R53, R59, R62), and the commands that a
write to CMD runs (spec/10_state.md R27; spec/60_exceptions.md R200). -/

namespace Sys2Proof.Machine

/-- `Execute(v)` (R27, R200): a defined word runs its command, a reserved one raises IllegalCommand. -/
def executeWord (v : Byte) (s : State) : Result State :=
  match decode v with
  | .ok i => exec i s
  | .error _ => .next (raiseIllegalCommand s)

/-- `MemWrite(addr, 1, v)` (R52). -/
def memWrite (addr : HostAddr) (v : Byte) (s : State) : Result State :=
  match locate addr with
  | .cmd => executeWord v s
  | l => .next (storeAt l v s)

/-- `MemRead(addr, 1)` (R53): the value, which is the line's result (R86), is added to the host's results. -/
def memRead (addr : HostAddr) (s : State) : Result State :=
  andThen (loadAt (locate addr) s) fun (v, t) => .next { t with results := t.results ++ [v] }

/-- The byte a host write carries (R86; for `FLIP`, R87). -/
def resolveData (d : WriteData) (s : State) : Result Byte :=
  match d with
  | .byte v => .next v
  | .lastXor m =>
    match s.results.getLast? with
    | some x => .next (x ^^^ m)
    | none => .refused .noReadResult

/-- One event of the host's sequence. An access by another agent is refused (R63, R206). -/
def perform (e : HostEvent) (s : State) : Result State :=
  match e with
  | .reset => .next (resetBlock s)
  | .access .other _ => .refused .secondAgent
  | .access .host (.wr a d) => andThen (resolveData d s) fun v => memWrite a v s
  | .access .host (.rd a) => memRead a s

/-- The next event is the following one of the sequence (R33, R62). -/
def advance (s : State) : State := { s with pending := s.pending.tail, pc := s.pc + 1 }

/-- The host's next event, if it has one. -/
def nextEvent (s : State) : Option HostEvent := s.pending.head?

/-- The event of a command: the host's write of its word to CMD at 0x3F0 (R80, R86). -/
def commandEvent (v : Byte) : HostEvent := .access .host (.wr 0x3F0 (.byte v))

/-- The host's sequence with its next event replaced by the write of a command word. -/
def placeCommand (v : Byte) (s : State) : State := { s with pending := commandEvent v :: s.pending.tail }

/-- One step: the next event is performed whole, before the one after it (R59, R62). With no event left the block is idle and
keeps all its state (R216). -/
def runNext (s : State) : Result State :=
  match nextEvent s with
  | some e => andThen (perform e s) fun t => .next (advance t)
  | none => .next s

end Sys2Proof.Machine
end

