-- ==== Sys2Proof/Machine/Step.lean ====
section
/-! DEFINITION. One step of the machine: one event of the host's sequence (spec/10_state.md R33; spec/20_memory.md R62). -/

namespace Sys2Proof.Machine

/-- One step (R62): the host's next event, performed whole. -/
def step (s : State) : Host.Outcome State Fault Refusal := runNext s

/-- `s` with the instruction of an opcode-table word stored where the step fetches its next instruction: the host's next event
becomes the write of that word to CMD (R80). -/
def State.withFetchWord (s : State) (_nbits w : Nat) : State := placeCommand (BitVec.ofNat 8 w) s

end Sys2Proof.Machine
end

