-- ==== Sys2Proof/Safety.lean ====
section
/-! DEFINITION. What counts as a safe run, and the words the claims use: when a command's operands are readable (spec/70 R232),
what a read gives, and which host offsets a command stores to (spec/10_state.md R20). -/

namespace Sys2Proof.Machine

/-- The invariant of the machine: memory in its canonical form, and the hardwired bits `[7:1]` of STATUS 0 (R28). -/
def State.wf (s : State) : Bool := Memory.wf s && s.status &&& 0xFE == 0

/-- A step is safe when it answers a next state: no fault and no refusal. -/
def Safe (s : State) : Prop := ∃ t, step s = .next t

/-- The cells of `m` can be read: all are written, or an unwritten one is drawn (R34). -/
def Readable {n : Nat} (c : Cells n) (m : BitVec n) (s : State) : Prop :=
  c.covers m = true ∨ s.unwrittenRead = .draw

/-- What a read operation of the cells of `m` in state `s` gives: each written cell's value, free bits for the others, and 0
outside `m` (R34). -/
def operand {n : Nat} (c : Cells n) (m : BitVec n) (s : State) : BitVec n :=
  c.readValue m (Config.drawnBits n s.draws)

/-- The count of draws after that read operation: one more if a cell of `m` was unwritten. -/
def drawsAfter {n : Nat} (c : Cells n) (m : BitVec n) (s : State) : Nat :=
  if c.covers m then s.draws else s.draws + 1

/-- The cells `i` of a file of `n` with `p i` are all written. -/
def writtenWhere {n : Nat} (c : Cells n) (p : Nat → Prop) : Prop := ∀ i, i < n → p i → c.written.getLsbD i = true

/-- The table of R232: the cells that must be written before each command. FRAME bit `b` of byte `k` is cell `8k + b`. -/
def operandsWritten (s : State) : Instr → Prop
  | .nop => True
  | .bptcDec =>
    writtenWhere s.frame fun x =>
      x / 8 ≤ 11 ∨ (x / 8 = 12 ∧ 6 ≤ x % 8) ∨ (x / 8 = 20 ∧ x % 8 ≤ 1) ∨ 21 ≤ x / 8
  | .bptcUnpack =>
    writtenWhere s.frame fun x =>
      x / 8 ≤ 11 ∨ (x / 8 = 12 ∧ 6 ≤ x % 8) ∨ (x / 8 = 20 ∧ x % 8 ≤ 1) ∨ 21 ≤ x / 8
  | .bptcEnc => writtenWhere s.payload fun _ => True
  | .bptcPlace => writtenWhere s.payload fun _ => True
  | .bptcDeinterleave => writtenWhere s.raw fun _ => True
  | .bptcCorrect => writtenWhere s.deint fun a => 1 ≤ a
  | .bptcExtract => writtenWhere s.deint fun a => ∃ r ∈ payloadRanges, r.1 ≤ a ∧ a ≤ r.2
  | .bptcParity =>
    writtenWhere s.deint fun a =>
      (1 ≤ a ∧ a ≤ 11) ∨ (16 ≤ a ∧ a ≤ 26) ∨ (31 ≤ a ∧ a ≤ 41) ∨ (46 ≤ a ∧ a ≤ 56) ∨ (61 ≤ a ∧ a ≤ 71)
        ∨ (76 ≤ a ∧ a ≤ 86) ∨ (91 ≤ a ∧ a ≤ 101) ∨ (106 ≤ a ∧ a ≤ 116) ∨ (121 ≤ a ∧ a ≤ 131)
  | .bptcInterleave => writtenWhere s.deint fun _ => True
  | .bptcPack => writtenWhere s.raw fun _ => True
  | .ham1393Dec => writtenWhere s.cw fun i => i ≤ 12
  | .ham1393Enc => writtenWhere s.cw fun i => i ≤ 8
  | .ham15113Dec => writtenWhere s.cw fun _ => True
  | .ham15113Enc => writtenWhere s.cw fun i => i ≤ 10

/-- The host offsets a command stores to (R20 "written by", R51): FRAME's bytes 0 to 12 and 20 to 32 for BPTC.PACK and
BPTC.ENC, and so on; STATUS for every command (R28). -/
def storesTo (i : Instr) (addr : HostAddr) : Bool :=
  let a := addr.toNat
  let frame := a ≤ 12 || (20 ≤ a && a ≤ 32)
  let payload := 0x040 ≤ a && a ≤ 0x04B
  let raw := 0x100 ≤ a && a ≤ 0x1C3
  let deint := 0x200 ≤ a && a ≤ 0x2C3
  a == 0x3F1 ||
  match i with
  | .nop => false
  | .bptcDec => raw || deint || payload
  | .bptcEnc => deint || raw || frame
  | .bptcUnpack => raw
  | .bptcDeinterleave => deint
  | .bptcCorrect => deint && a != 0x200
  | .bptcExtract => payload
  | .bptcPlace => deint
  | .bptcParity => deint && parityMask.getLsbD (a - 0x200)
  | .bptcInterleave => raw
  | .bptcPack => frame
  | .ham1393Dec => (0x300 ≤ a && a ≤ 0x30C) || a == 0x310
  | .ham1393Enc => 0x309 ≤ a && a ≤ 0x30C
  | .ham15113Dec => (0x300 ≤ a && a ≤ 0x30E) || a == 0x310
  | .ham15113Enc => 0x30B ≤ a && a ≤ 0x30E

/-- `d` is a plane whose rows 0 to 8 and columns are all codewords (R172). -/
def CodewordPlane (d : Plane) : Prop :=
  (∀ r, r < 9 → syndrome15113 (getRow d r) = 0) ∧ (∀ c, c < 15 → syndrome1393 (getCol d c) = 0)

/-- A one-bit location that a host write changes: a cell of RAW, DEINT or CW (R52, R58); CORR ignores writes. -/
def isWritableCell (a : HostAddr) : Bool :=
  match locate a with
  | .frame _ => false
  | .payload _ => false
  | .raw _ => true
  | .deint _ => true
  | .cw _ => true
  | .corr => false
  | .cmd => false
  | .status => false
  | .reserved => false

/-- `s` with one bit of FRAME flipped (R182). -/
def flipFrameBit (x : Nat) (s : State) : State :=
  { s with frame := ⟨s.frame.val ^^^ cellMask 264 x, s.frame.written⟩ }

/-- Every cell written in `c` is written in `c'` (R34: a cell stays written until the next reset). -/
def StaysWritten {n : Nat} (c c' : Cells n) : Prop := ∀ i, c.written.getLsbD i = true → c'.written.getLsbD i = true

/-- The commands that work on CW (R25); every other one but NOP is a BPTC command. -/
def isHamming : Instr → Bool
  | .nop => false
  | .bptcDec => false
  | .bptcEnc => false
  | .bptcUnpack => false
  | .bptcDeinterleave => false
  | .bptcCorrect => false
  | .bptcExtract => false
  | .bptcPlace => false
  | .bptcParity => false
  | .bptcInterleave => false
  | .bptcPack => false
  | .ham1393Dec => true
  | .ham1393Enc => true
  | .ham15113Dec => true
  | .ham15113Enc => true

/-- The offsets the map of R51 calls reserved. -/
def reservedOffset (a : Nat) : Prop :=
  (0x021 ≤ a ∧ a ≤ 0x03F) ∨ (0x04C ≤ a ∧ a ≤ 0x0FF) ∨ (0x1C4 ≤ a ∧ a ≤ 0x1FF) ∨ (0x2C4 ≤ a ∧ a ≤ 0x2FF) ∨ a = 0x30F
    ∨ (0x311 ≤ a ∧ a ≤ 0x3EF) ∨ (0x3F2 ≤ a ∧ a ≤ 0x3FF)

end Sys2Proof.Machine
end

