-- ==== Sys2Proof/Machine/HostProgram.lean ====
section
/-! DEFINITION. The host program syntax and its pseudo-instructions (spec/30_encoding.md R86, R87): each line, and the
accesses it stands for. -/

namespace Sys2Proof.Machine

/-- One line of a host program (R86, R87). -/
inductive Line where
  /-- `WR <addr>, <byte>`. -/
  | wr (addr : HostAddr) (v : Byte)
  /-- `RD <addr>`. -/
  | rd (addr : HostAddr)
  /-- A mnemonic alone. -/
  | mnemonic (i : Instr)
  /-- `CMD <word>`, legal or reserved. -/
  | cmd (word : Byte)
  /-- `WRN <addr>, b0, ..., bk`. -/
  | wrn (addr : HostAddr) (bytes : List Byte)
  /-- `RDN <addr>, <n>`. -/
  | rdn (addr : HostAddr) (n : Nat)
  /-- `LDFRAME b0, ..., b32`. -/
  | ldframe (bytes : List Byte)
  /-- `LDPAY b0, ..., b11`. -/
  | ldpay (bytes : List Byte)
  /-- `LDCW <v>`. -/
  | ldcw (v : Nat)
  /-- `LDCW13 <v>`. -/
  | ldcw13 (v : Nat)
  /-- `RDFRAME`. -/
  | rdframe
  /-- `RDPAY`. -/
  | rdpay
  /-- `RDCW`. -/
  | rdcw
  /-- `FLIP <addr>`, for a one-bit location. -/
  | flip (addr : HostAddr)
  deriving DecidableEq, Repr

/-- `WR addr, b0`; `WR addr+1, b1`; and so on (R87 `WRN`). -/
def writeRun : HostAddr → List Byte → List HostAccess
  | _, [] => []
  | a, b :: bs => .wr a (.byte b) :: writeRun (a + 1) bs

/-- `RD addr`; ...; `RD addr+n-1` (R87 `RDN`). -/
def readRun : HostAddr → Nat → List HostAccess
  | _, 0 => []
  | a, n + 1 => .rd a :: readRun (a + 1) n

/-- Bit `i` of a value as the byte `(v >> i) & 1` (R87 `LDCW`). -/
def valueBit (v i : Nat) : Byte := if v.testBit i then 0x01 else 0x00

/-- The accesses of a line: the expansions of R86 and R87. -/
def Line.expand : Line → List HostAccess
  | .wr a v => [.wr a (.byte v)]
  | .rd a => [.rd a]
  | .mnemonic i => [.wr 0x3F0 (.byte (encode i))]
  | .cmd w => [.wr 0x3F0 (.byte w)]
  | .wrn a bs => writeRun a bs
  | .rdn a n => readRun a n
  | .ldframe bs => writeRun 0x000 bs
  | .ldpay bs => writeRun 0x040 bs
  | .ldcw v => writeRun 0x300 ((List.range 15).map (valueBit v))
  | .ldcw13 v => writeRun 0x300 ((List.range 13).map (valueBit v))
  | .rdframe => readRun 0x000 33
  | .rdpay => readRun 0x040 12
  | .rdcw => readRun 0x300 15
  | .flip a => [.rd a, .wr a (.lastXor 0x01)]

/-- A program's sequence of events: its lines' accesses in order, all by the one host (R62, R86). -/
def hostProgram (lines : List Line) : List HostEvent :=
  (lines.flatMap Line.expand).map (HostEvent.access .host)

/-- The value `RDCW` reads: the sum of `CW[i] << i` over its fifteen results (R87). -/
def cwValue : List Byte → Nat
  | [] => 0
  | b :: bs => b.toNat + 2 * cwValue bs

end Sys2Proof.Machine
end

