-- ==== Sys2Proof/WellFormed.lean ====
section
/-! DEFINITION. Well-formedness: of a command (its word is not a reserved one) and of a line of a host program
(spec/30_encoding.md R84, R86, R87). -/

namespace Sys2Proof

/-- A command is well-formed when its word is none of the reserved words of R84. No command has an operand to check (R83). -/
def instrWf (i : Instr) : Bool := !reservedWord (encode i)

/-- The one-bit locations: RAW, DEINT, CW and CORR (spec/20_memory.md R58). -/
def Machine.isOneBitLocation (a : HostAddr) : Bool :=
  match Machine.locate a with
  | .frame _ => false
  | .payload _ => false
  | .raw _ => true
  | .deint _ => true
  | .cw _ => true
  | .corr => true
  | .cmd => false
  | .status => false
  | .reserved => false

/-- A line of a host program is well-formed: a run of accesses stays inside the host space (R50), `LDFRAME` has exactly 33 bytes
and `LDPAY` exactly 12, the value of `LDCW` has 15 bits, and `FLIP` names a one-bit location, CORR included (R87, R58).
DESIGN CHOICE (notes/assumptions/23.md), where R87 gives a line no expansion or no bound: a run of no accesses (`RDN` with
n = 0, `WRN` with no byte) is ill-formed, and so is `LDCW13` with a value of more than 13 bits. -/
def Machine.Line.wf : Machine.Line → Bool
  | .wr _ _ => true
  | .rd _ => true
  | .mnemonic i => instrWf i
  | .cmd _ => true
  | .wrn a bs => 1 ≤ bs.length && a.toNat + bs.length ≤ 0x400
  | .rdn a n => 1 ≤ n && a.toNat + n ≤ 0x400
  | .ldframe bs => bs.length == 33
  | .ldpay bs => bs.length == 12
  | .ldcw v => v < 2 ^ 15
  | .ldcw13 v => v < 2 ^ 13
  | .rdframe => true
  | .rdpay => true
  | .rdcw => true
  | .flip a => Machine.isOneBitLocation a

end Sys2Proof
end

