-- ==== Sys2Proof/Certificates/Slice0/Obligations.lean ====
section
/-! DEFINITION. The statements about the model, each from the rules its docstring names. Nothing is proved here. In them
`operand c m s` is what a read of the cells `m` of `c` gives in `s`: each written cell's value, and a free bit for an
unwritten one under `UNWRITTEN_READ = draw`; `Readable c m s` says that the read does not fault. The fields `results`, `draws`,
`pending` and `pc` are the model's own (notes/assumptions/2.md, 10.md, 16.md): no rule of the spec is cited for what a statement
says of them. -/

open Sys2Proof Sys2Proof.Machine

/-! Command words. -/

/-- R80, R81: words written out bit by bit, `grp` then `fn`, are the commands they stand for. -/
def Obligations.CommandWordsWrittenOut : Prop :=
  decode 0b00000000#8 = .ok .nop ∧ decode 0b00000001#8 = .ok .bptcDec ∧ decode 0b00000010#8 = .ok .bptcEnc ∧
  decode 0b00010000#8 = .ok .bptcUnpack ∧ decode 0b00010011#8 = .ok .bptcExtract ∧
  decode 0b00011000#8 = .ok .bptcPlace ∧ decode 0b00011011#8 = .ok .bptcPack ∧
  decode 0b00100000#8 = .ok .ham1393Dec ∧ decode 0b00100011#8 = .ok .ham15113Enc

/-- R82: a word is read as a command exactly when it is that command's word; every other word is rejected by name. -/
def Obligations.DecodeReadsExactlyTheEncodedWord : Prop :=
  (∀ i, instrWf i = true → decode (encode i) = .ok i) ∧
  (∀ v i, decode v = .ok i → v = encode i) ∧
  (∀ v, (∀ i, encode i ≠ v) → decode v = .error (.reserved v))

/-- R84: the reserved ranges are exactly the words that do not decode, 241 of them; writing one to CMD sets STATUS to 0x01 and
changes nothing else. -/
def Obligations.ReservedWordsOnlySetIll : Prop :=
  (∀ v : Byte, reservedWord v = true ↔
    (0x30 ≤ v.toNat ∨ (0x03 ≤ v.toNat ∧ v.toNat ≤ 0x0F) ∨ (0x14 ≤ v.toNat ∧ v.toNat ≤ 0x17) ∨
      (0x1C ≤ v.toNat ∧ v.toNat ≤ 0x1F) ∨ (0x24 ≤ v.toNat ∧ v.toNat ≤ 0x2F))) ∧
  (∀ v : Byte, reservedWord v = true ↔ decode v = .error (.reserved v)) ∧
  ((List.range 256).filter fun x => reservedWord (BitVec.ofNat 8 x)).length = 241 ∧
  (∀ v s, reservedWord v = true → memWrite 0x3F0 v s = .next { s with status := 0x01 })

/-- R200: writing a word to CMD: a reserved one raises IllegalCommand, which sets STATUS to 0x01 and changes nothing else; a
defined one runs its command, which ends with STATUS 0x00; and every word is the one or the other. -/
def Obligations.IllegalCommandOrCompletedCommand : Prop :=
  ∀ (v : Byte) (s : State),
    (reservedWord v = true → memWrite 0x3F0 v s = .next { s with status := 0x01 }) ∧
    (∀ i, v = encode i → memWrite 0x3F0 v s = exec i s ∧ ∀ t, exec i s = .next t → t.status = 0x00) ∧
    (reservedWord v = true ↔ ¬ ∃ i, v = encode i)

/-- R27, R62 (the queue of events is the model's: notes/assumptions/10.md): when the host's next event writes a word to CMD that
decodes to a well-formed command, the step is `exec` of that command, after which the next event is the following one. -/
def Obligations.StepRunsTheDecodedCommand : Prop :=
  ∀ (s : State) (v : Byte) (i : Instr), nextEvent s = some (commandEvent v) → decode v = .ok i → instrWf i = true →
    step s = andThen (exec i s) fun t => .next { t with pending := t.pending.tail, pc := t.pc + 1 }

/-- R201: NOP, word 0x00, does only `STATUS <- 0x00`. -/
def Obligations.NopOnlyClearsStatus : Prop :=
  decode 0x00 = .ok .nop ∧ ∀ s, exec .nop s = .next { s with status := 0x00 }

/-! Reset and the whole machine. -/

/-- R230: the reset event, and the state after reset. PASS and FIXING are left out: the spec gives them no value. That the event
keeps the host's sequence, its place and the parameter is the model's choice (notes/assumptions/12.md). -/
def Obligations.ResetLeavesCellsUnwritten : Prop :=
  (∀ s, ∃ t, perform .reset s = .next t ∧
    t.frame.written = 0 ∧ t.payload.written = 0 ∧ t.raw.written = 0 ∧ t.deint.written = 0 ∧ t.cw.written = 0 ∧
    t.corr = false ∧ t.status = 0x00 ∧
    t.pending = s.pending ∧ t.pc = s.pc ∧ t.results = s.results ∧ t.unwrittenRead = s.unwrittenRead) ∧
  State.reset.frame.written = 0 ∧ State.reset.payload.written = 0 ∧ State.reset.raw.written = 0 ∧
  State.reset.deint.written = 0 ∧ State.reset.cw.written = 0 ∧ State.reset.corr = false ∧ State.reset.status = 0x00

/-- The invariant holds after reset: memory canonical (the model's own form: notes/assumptions/8.md), STATUS bits `[7:1]` 0
(R28). -/
def Obligations.ResetStateIsWellFormed : Prop := State.reset.wf = true

/-- The invariant: every step keeps the memory's canonical form (the model's own: notes/assumptions/8.md) and STATUS bits `[7:1]`
at 0 (R28), from every state that has them. -/
def Obligations.EveryStepKeepsWellFormedness : Prop :=
  ∀ s t, s.wf = true → step s = .next t → t.wf = true

/-- R34: but for the reset event, every step keeps every written cell written. -/
def Obligations.WrittenCellsStayWrittenUntilReset : Prop :=
  ∀ s t, nextEvent s ≠ some .reset → step s = .next t →
    StaysWritten s.frame t.frame ∧ StaysWritten s.payload t.payload ∧ StaysWritten s.raw t.raw ∧
    StaysWritten s.deint t.deint ∧ StaysWritten s.cw t.cw

/-- R33, R62, R216: a step performs one event: the sequence and the place in it move on by one, and no command touches them;
the parameter `UNWRITTEN_READ` never changes (holding sequence, place and parameter in the state is the model's choice:
notes/assumptions/1.md, 10.md). With no event left the block is idle and keeps all its state. -/
def Obligations.StepConsumesOneEvent : Prop :=
  (∀ s t e, nextEvent s = some e → step s = .next t →
    t.pending = s.pending.tail ∧ t.pc = s.pc + 1 ∧ t.unwrittenRead = s.unwrittenRead ∧ s.results <+: t.results ∧
    t.results.length ≤ s.results.length + 1) ∧
  ∀ s, nextEvent s = none → step s = .next s

/-- R26, R28, R29: STATUS and CORR change only at a reset or a write to CMD; such a write leaves in STATUS whether its word was a
reserved one, and CORR changes only at the two Hamming decode commands. -/
def Obligations.FlagsChangeOnlyAtCommandsAndReset : Prop :=
  ∀ s t, step s = .next t →
    ((nextEvent s ≠ some .reset ∧ ∀ a d, nextEvent s = some (.access .host (.wr a d)) → a ≠ 0x3F0) →
      t.status = s.status ∧ t.corr = s.corr) ∧
    (∀ v, nextEvent s = some (commandEvent v) →
      t.status = (if reservedWord v then 0x01 else 0x00) ∧ (v ≠ 0x20 → v ≠ 0x22 → t.corr = s.corr))

/-- An access by another agent than the host is refused. R63 and R234 have the model refuse a sequence from two agents; that
every single access by the other one is refused, overlapping or not, is the model's choice (notes/assumptions/11.md). -/
def Obligations.SecondAgentIsRefused : Prop :=
  ∀ s a, nextEvent s = some (.access .other a) → step s = .refused .secondAgent

/-- R34 (`draw`), R54, R202: under `UNWRITTEN_READ = draw` no host access with a literal byte, no command and no reset stops
the machine. -/
def Obligations.NoStopUnderDraw : Prop :=
  ∀ s, s.unwrittenRead = .draw →
    ((nextEvent s = some .reset ∨ (∃ a, nextEvent s = some (.access .host (.rd a))) ∨
      (∃ a v, nextEvent s = some (.access .host (.wr a (.byte v))))) → Safe s)

/-- R232: each command completes, with STATUS 0x00, when the cells of its row are written, or when unwritten cells are drawn;
under `UNWRITTEN_READ = fault` it faults as soon as one of them is not (R206, R208). -/
def Obligations.CommandsCompleteWhenOperandsWritten : Prop :=
  ∀ (i : Instr) (s : State),
    (operandsWritten s i ∨ s.unwrittenRead = .draw → ∃ t, exec i s = .next t ∧ t.status = 0x00) ∧
    (¬ operandsWritten s i → s.unwrittenRead = .fault →
      ∃ e, exec i s = .fault e)

/-- R20, R21, R25, R35 and the operand lists of R110 to R113, R145 to R148 and R175 to R180: whatever a command does, every host offset outside those it stores to holds afterwards what it held
before, written or not. -/
def Obligations.CommandsStoreOnlyWhereListed : Prop :=
  ∀ (i : Instr) (s t : State) (a : HostAddr), exec i s = .next t → storesTo i a = false → peek t a = peek s a

/-- R21, R35, R233: no command changes FRAME[13..19], FRAME[12][5:0] or FRAME[20][7:2], neither their values nor whether they
are written. -/
def Obligations.NeighbouringFieldSurvives : Prop :=
  ∀ (i : Instr) (s t : State) (x : Nat), exec i s = .next t →
    ((x / 8 = 12 ∧ x % 8 ≤ 5) ∨ (13 ≤ x / 8 ∧ x / 8 ≤ 19) ∨ (x / 8 = 20 ∧ 2 ≤ x % 8)) →
    t.frame.val.getLsbD x = s.frame.val.getLsbD x ∧ t.frame.written.getLsbD x = s.frame.written.getLsbD x

/-- R25, R26: no BPTC command reads or writes CW or CORR, and no encode command writes CORR. -/
def Obligations.BptcCommandsIgnoreCodewordRegister : Prop :=
  (∀ (i : Instr) (s t : State) (c : Cells 15) (k : Bool), isHamming i = false → exec i s = .next t →
    t.cw = s.cw ∧ t.corr = s.corr ∧ exec i { s with cw := c, corr := k } = .next { t with cw := c, corr := k }) ∧
  (∀ (s t : State), (exec .ham1393Enc s = .next t ∨ exec .ham15113Enc s = .next t) → t.corr = s.corr)

/-- R30: PASS and FIXING are not observable: no other field after a command depends on them. -/
def Obligations.PassAndFixingAreUnobservable : Prop :=
  ∀ (i : Instr) (s t : State) (p : Fin 6) (f : Bool), exec i s = .next t →
    ∃ t', exec i { s with pass := p, fixing := f } = .next t' ∧ t' = { t with pass := t'.pass, fixing := t'.fixing }

/-! The host port. -/

/-- R52: what a host write does, location by location; each clause also says that nothing else changes. -/
def Obligations.HostWriteStoresOneLocation : Prop :=
  ∀ (addr : HostAddr) (v : Byte) (s : State),
    (addr.toNat ≤ 0x020 → ∃ t, memWrite addr v s = .next t ∧ t = { s with frame := t.frame } ∧
      byteAt t.frame.val addr.toNat = v ∧ byteAt t.frame.written addr.toNat = 0xFF ∧
      ∀ k, k ≠ addr.toNat → byteAt t.frame.val k = byteAt s.frame.val k ∧
        byteAt t.frame.written k = byteAt s.frame.written k) ∧
    (0x040 ≤ addr.toNat → addr.toNat ≤ 0x04B → ∃ t, memWrite addr v s = .next t ∧ t = { s with payload := t.payload } ∧
      byteAt t.payload.val (addr.toNat - 0x040) = v ∧ byteAt t.payload.written (addr.toNat - 0x040) = 0xFF ∧
      ∀ k, k ≠ addr.toNat - 0x040 → byteAt t.payload.val k = byteAt s.payload.val k ∧
        byteAt t.payload.written k = byteAt s.payload.written k) ∧
    (0x100 ≤ addr.toNat → addr.toNat ≤ 0x1C3 → ∃ t, memWrite addr v s = .next t ∧ t = { s with raw := t.raw } ∧
      t.raw.val.getLsbD (addr.toNat - 0x100) = v.getLsbD 0 ∧ t.raw.written.getLsbD (addr.toNat - 0x100) = true ∧
      ∀ k, k ≠ addr.toNat - 0x100 → t.raw.val.getLsbD k = s.raw.val.getLsbD k ∧
        t.raw.written.getLsbD k = s.raw.written.getLsbD k) ∧
    (0x200 ≤ addr.toNat → addr.toNat ≤ 0x2C3 → ∃ t, memWrite addr v s = .next t ∧ t = { s with deint := t.deint } ∧
      t.deint.val.getLsbD (addr.toNat - 0x200) = v.getLsbD 0 ∧ t.deint.written.getLsbD (addr.toNat - 0x200) = true ∧
      ∀ k, k ≠ addr.toNat - 0x200 → t.deint.val.getLsbD k = s.deint.val.getLsbD k ∧
        t.deint.written.getLsbD k = s.deint.written.getLsbD k) ∧
    (0x300 ≤ addr.toNat → addr.toNat ≤ 0x30E → ∃ t, memWrite addr v s = .next t ∧ t = { s with cw := t.cw } ∧
      t.cw.val.getLsbD (addr.toNat - 0x300) = v.getLsbD 0 ∧ t.cw.written.getLsbD (addr.toNat - 0x300) = true ∧
      ∀ k, k ≠ addr.toNat - 0x300 → t.cw.val.getLsbD k = s.cw.val.getLsbD k ∧
        t.cw.written.getLsbD k = s.cw.written.getLsbD k) ∧
    (addr.toNat = 0x3F0 → memWrite addr v s = executeWord v s) ∧
    (reservedOffset addr.toNat ∨ addr.toNat = 0x310 ∨ addr.toNat = 0x3F1 → memWrite addr v s = .next s)

/-- R53: what a host read of a written location returns; the read adds its result to the host's and changes nothing else.
CORR comes in bit 0, STATUS with bits `[7:1]` 0; CMD and the reserved offsets read 0x00. A location that is not wholly written
(a one-bit location has its single cell, a byte all eight) follows `UNWRITTEN_READ`: `fault` faults; `draw` answers, and nothing
but the model's own list of results and count of draws changes. -/
def Obligations.HostReadReturnsTheLocation : Prop :=
  ∀ (addr : HostAddr) (s : State),
    (addr.toNat ≤ 0x020 → byteAt s.frame.written addr.toNat = 0xFF →
      memRead addr s = .next { s with results := s.results ++ [byteAt s.frame.val addr.toNat] }) ∧
    (0x040 ≤ addr.toNat → addr.toNat ≤ 0x04B → byteAt s.payload.written (addr.toNat - 0x040) = 0xFF →
      memRead addr s = .next { s with results := s.results ++ [byteAt s.payload.val (addr.toNat - 0x040)] }) ∧
    (0x100 ≤ addr.toNat → addr.toNat ≤ 0x1C3 → s.raw.written.getLsbD (addr.toNat - 0x100) = true →
      memRead addr s = .next
        { s with results := s.results ++ [(BitVec.ofBool (s.raw.val.getLsbD (addr.toNat - 0x100))).setWidth 8] }) ∧
    (0x200 ≤ addr.toNat → addr.toNat ≤ 0x2C3 → s.deint.written.getLsbD (addr.toNat - 0x200) = true →
      memRead addr s = .next
        { s with results := s.results ++ [(BitVec.ofBool (s.deint.val.getLsbD (addr.toNat - 0x200))).setWidth 8] }) ∧
    (0x300 ≤ addr.toNat → addr.toNat ≤ 0x30E → s.cw.written.getLsbD (addr.toNat - 0x300) = true →
      memRead addr s = .next
        { s with results := s.results ++ [(BitVec.ofBool (s.cw.val.getLsbD (addr.toNat - 0x300))).setWidth 8] }) ∧
    (addr.toNat = 0x310 → memRead addr s = .next { s with results := s.results ++ [(BitVec.ofBool s.corr).setWidth 8] }) ∧
    (addr.toNat = 0x3F1 → memRead addr s = .next
      { s with results := s.results ++ [(BitVec.ofBool (s.status.getLsbD 0)).setWidth 8] }) ∧
    (reservedOffset addr.toNat ∨ addr.toNat = 0x3F0 → memRead addr s = .next { s with results := s.results ++ [0x00] }) ∧
    ((addr.toNat ≤ 0x020 ∧ byteAt s.frame.written addr.toNat ≠ 0xFF) ∨
      (0x040 ≤ addr.toNat ∧ addr.toNat ≤ 0x04B ∧ byteAt s.payload.written (addr.toNat - 0x040) ≠ 0xFF) ∨
      (0x100 ≤ addr.toNat ∧ addr.toNat ≤ 0x1C3 ∧ s.raw.written.getLsbD (addr.toNat - 0x100) = false) ∨
      (0x200 ≤ addr.toNat ∧ addr.toNat ≤ 0x2C3 ∧ s.deint.written.getLsbD (addr.toNat - 0x200) = false) ∨
      (0x300 ≤ addr.toNat ∧ addr.toNat ≤ 0x30E ∧ s.cw.written.getLsbD (addr.toNat - 0x300) = false) →
      (s.unwrittenRead = .fault → ∃ e, memRead addr s = .fault e) ∧
      (s.unwrittenRead = .draw →
        ∃ t v, memRead addr s = .next t ∧ t = { s with results := s.results ++ [v], draws := t.draws }))

/-- R58: in a one-bit location data bit 0 carries the cell: a write ignores data bits `[7:1]` and stores bit 0 (CORR ignores the
whole write), and a read has bits `[7:1]` 0 and a written cell in bit 0. -/
def Obligations.OneBitLocationsUseBitZero : Prop :=
  ∀ (addr : HostAddr) (v : Byte) (s : State),
    ((0x100 ≤ addr.toNat ∧ addr.toNat ≤ 0x1C3) ∨ (0x200 ≤ addr.toNat ∧ addr.toNat ≤ 0x2C3) ∨
      (0x300 ≤ addr.toNat ∧ addr.toNat ≤ 0x30E) ∨ addr.toNat = 0x310) →
    memWrite addr v s = memWrite addr (v &&& 0x01) s ∧
    (addr.toNat ≠ 0x310 → ∃ t, memWrite addr v s = .next t ∧ peek t addr = (v &&& 0x01, 0x01)) ∧
    ∀ t, memRead addr s = .next t → ∃ r, t.results = s.results ++ [r] ∧ r &&& 0xFE = 0 ∧
      ((peek s addr).2 ≠ 0x00 → r = (peek s addr).1)

/-- R62: a read right after a write of the same FRAME or PAYLOAD byte, or one-bit cell, returns what was written, whatever stood
there and even if it was unwritten. -/
def Obligations.ReadReturnsTheLatestWrite : Prop :=
  ∀ (addr : HostAddr) (v : Byte) (s : State),
    (addr.toNat ≤ 0x020 ∨ (0x040 ≤ addr.toNat ∧ addr.toNat ≤ 0x04B) →
      andThen (memWrite addr v s) (memRead addr) =
        andThen (memWrite addr v s) fun t => .next { t with results := t.results ++ [v] }) ∧
    ((0x100 ≤ addr.toNat ∧ addr.toNat ≤ 0x1C3) ∨ (0x200 ≤ addr.toNat ∧ addr.toNat ≤ 0x2C3) ∨
        (0x300 ≤ addr.toNat ∧ addr.toNat ≤ 0x30E) →
      andThen (memWrite addr v s) (memRead addr) =
        andThen (memWrite addr v s) fun t => .next { t with results := t.results ++ [v &&& 0x01] })

/-- R87: `FLIP` of a written cell of RAW, DEINT or CW inverts it: two accesses, the read's value and then its inverse written
back. Every other location keeps what it held. `FLIP` of CORR, the read-only one-bit location, reads it and changes nothing. -/
def Obligations.FlipInvertsOneBitCell : Prop :=
  (∀ (s : State) (a : HostAddr) (rest : List HostEvent),
    isWritableCell a = true → (peek s a).2 = 0x01 → s.pending = hostProgram [.flip a] ++ rest →
    ∃ t, andThen (step s) step = .next t ∧ peek t a = ((peek s a).1 ^^^ 0x01, 0x01) ∧ (∀ b, b ≠ a → peek t b = peek s b) ∧
      t.pending = rest ∧ t.pc = s.pc + 2 ∧ t.results = s.results ++ [(peek s a).1]) ∧
  ∀ (s : State) (rest : List HostEvent), s.pending = hostProgram [.flip 0x310] ++ rest →
    andThen (step s) step = .next
      { s with pending := rest, pc := s.pc + 2, results := s.results ++ [(BitVec.ofBool s.corr).setWidth 8] }

/-! Bit planes, frame packing and the interleaver. -/

/-- R100, R101: the two conversions, bit by bit and as the sum, and that the second undoes the first. -/
def Obligations.ByteBitConversions : Prop :=
  (∀ (v : Byte) (k : Nat), k < 8 → (bytesToBitsBE v).getLsbD k = v.getLsbD (7 - k)) ∧
  (∀ b : Byte, (bitsToByteBE b).toNat = ((List.range 8).map fun k => (b.getLsbD k).toNat <<< (7 - k)).sum) ∧
  (∀ v : Byte, bitsToByteBE (bytesToBitsBE v) = v)

/-- R102: the permutation, its inverse, its fixed points named by the rule, and that it is a bijection and no involution. -/
def Obligations.InterleaverPermutation : Prop :=
  (∀ a, a < 196 → interleavePos a = (a * 181) % 196 ∧ interleavePos a < 196) ∧
  (∀ i, i < 196 → interleaveInv i = (i * 13) % 196) ∧
  (∀ a, a < 196 → interleaveInv (interleavePos a) = a) ∧ (∀ i, i < 196 → interleavePos (interleaveInv i) = i) ∧
  interleavePos 0 = 0 ∧ interleavePos 98 = 98 ∧ interleavePos 1 = 181 ∧ interleavePos (interleavePos 1) = 29

/-- R103, R104, R105: each permutes cell by cell, `Interleave` in both forms the rule gives, and they are mutual inverses. -/
def Obligations.InterleaverIsInvertible : Prop :=
  (∀ (r : Plane) (a : Nat), a < 196 → (deinterleave r).getLsbD a = r.getLsbD (interleavePos a)) ∧
  (∀ (d : Plane) (a : Nat), a < 196 → (interleave d).getLsbD (interleavePos a) = d.getLsbD a) ∧
  (∀ (d : Plane) (i : Nat), i < 196 → (interleave d).getLsbD i = d.getLsbD (interleaveInv i)) ∧
  (∀ r, interleave (deinterleave r) = r) ∧ (∀ d, deinterleave (interleave d) = d)

/-- R108: which FRAME bit each raw bit is, and that no other FRAME bit is read. -/
def Obligations.FrameToRawLayout : Prop :=
  ∀ f : FrameBits,
    (∀ n k, n ≤ 11 → k ≤ 7 → (frameToRaw f).getLsbD (8 * n + k) = (byteAt f n).getLsbD (7 - k)) ∧
    (frameToRaw f).getLsbD 96 = (byteAt f 12).getLsbD 7 ∧ (frameToRaw f).getLsbD 97 = (byteAt f 12).getLsbD 6 ∧
    (frameToRaw f).getLsbD 98 = (byteAt f 20).getLsbD 1 ∧ (frameToRaw f).getLsbD 99 = (byteAt f 20).getLsbD 0 ∧
    (∀ n k, 21 ≤ n → n ≤ 32 → k ≤ 7 →
      (frameToRaw f).getLsbD (100 + 8 * (n - 21) + k) = (byteAt f n).getLsbD (7 - k)) ∧
    (∀ g : FrameBits, (∀ n, n ≤ 11 ∨ (21 ≤ n ∧ n ≤ 32) → byteAt g n = byteAt f n) →
      byteAt g 12 &&& 0xC0 = byteAt f 12 &&& 0xC0 → byteAt g 20 &&& 0x03 = byteAt f 20 &&& 0x03 →
      frameToRaw g = frameToRaw f)

/-- R109: the new frame, byte by byte as the rule computes it, with the two masked merges; and both round trips. -/
def Obligations.RawToFrameLayout : Prop :=
  (∀ (r : Plane) (f : FrameBits),
    (∀ n, n ≤ 11 → byteAt (rawToFrame r f) n = bitsToByteBE (r.extractLsb' (8 * n) 8)) ∧
    byteAt (rawToFrame r f) 12 =
      ((byteAt f 12 &&& 0x3F) ||| (bitByte (r.getLsbD 96) <<< 7) ||| (bitByte (r.getLsbD 97) <<< 6)) ∧
    (∀ n, 13 ≤ n → n ≤ 19 → byteAt (rawToFrame r f) n = byteAt f n) ∧
    byteAt (rawToFrame r f) 20 =
      ((byteAt f 20 &&& 0xFC) ||| (bitByte (r.getLsbD 98) <<< 1) ||| bitByte (r.getLsbD 99)) ∧
    (∀ n, 21 ≤ n → n ≤ 32 → byteAt (rawToFrame r f) n = bitsToByteBE (r.extractLsb' (100 + 8 * (n - 21)) 8)) ∧
    frameToRaw (rawToFrame r f) = r) ∧
  ∀ f : FrameBits, rawToFrame (frameToRaw f) f = f

/-- R110: BPTC.UNPACK, word 0x10: RAW is FrameToRaw(FRAME), all of it written; FRAME, CORR and everything else stay. Its
operands are the FRAME bits of R108 only: not readable, it faults. With them written, repeating it gives the same RAW; and the
rule's example. -/
def Obligations.UnpackFillsRawFromFrame : Prop :=
  decode 0x10 = .ok .bptcUnpack ∧
  (∀ s, Readable s.frame framePlaneMask s →
    exec .bptcUnpack s = .next
      { s with raw := Cells.full (frameToRaw (operand s.frame framePlaneMask s)), status := 0x00,
               draws := drawsAfter s.frame framePlaneMask s }) ∧
  (∀ s, ¬ Readable s.frame framePlaneMask s → ∃ e, exec .bptcUnpack s = .fault e) ∧
  (∀ s t, s.frame.covers framePlaneMask = true → exec .bptcUnpack s = .next t →
    t.raw.val = frameToRaw s.frame.val ∧ ∃ u, exec .bptcUnpack t = .next u ∧ u.raw = t.raw) ∧
  frameToRaw (byteTo 264 0 0x80 ||| byteTo 264 20 0x01) = cellMask 196 0 ||| cellMask 196 99

/-- R111: BPTC.DEINTERLEAVE, word 0x11: DEINT is Deinterleave(RAW), all of it written; RAW and everything else stay. Positions 0
and 98 are carried over unmoved, and DEINT[0] has no effect on what a decode goes on to extract. -/
def Obligations.DeinterleaveFillsDeintFromRaw : Prop :=
  decode 0x11 = .ok .bptcDeinterleave ∧
  (∀ s, Readable s.raw (BitVec.allOnes 196) s →
    exec .bptcDeinterleave s = .next
      { s with deint := Cells.full (deinterleave (operand s.raw (BitVec.allOnes 196) s)), status := 0x00,
               draws := drawsAfter s.raw (BitVec.allOnes 196) s }) ∧
  (∀ r : Plane, (deinterleave r).getLsbD 0 = r.getLsbD 0 ∧ (deinterleave r).getLsbD 98 = r.getLsbD 98) ∧
  (∀ d : Plane, extractData (correct (d ^^^ cellMask 196 0)).1 = extractData (correct d).1) ∧
  deinterleave (cellMask 196 181) = cellMask 196 1

/-- R112: BPTC.INTERLEAVE, word 0x1A: RAW is Interleave(DEINT), all of it written; DEINT and everything else stay. After
BPTC.DEINTERLEAVE it leaves RAW as it was, and BPTC.DEINTERLEAVE after it leaves DEINT as it was. -/
def Obligations.InterleaveFillsRawFromDeint : Prop :=
  decode 0x1A = .ok .bptcInterleave ∧
  (∀ s, Readable s.deint (BitVec.allOnes 196) s →
    exec .bptcInterleave s = .next
      { s with raw := Cells.full (interleave (operand s.deint (BitVec.allOnes 196) s)), status := 0x00,
               draws := drawsAfter s.deint (BitVec.allOnes 196) s }) ∧
  (∀ s, s.raw.covers (BitVec.allOnes 196) = true →
    ∃ t, andThen (exec .bptcDeinterleave s) (exec .bptcInterleave) = .next t ∧ t.raw = s.raw) ∧
  (∀ s, s.deint.covers (BitVec.allOnes 196) = true →
    ∃ t, andThen (exec .bptcInterleave s) (exec .bptcDeinterleave) = .next t ∧ t.deint = s.deint) ∧
  interleave (cellMask 196 13) = cellMask 196 1

/-- R113, R35: BPTC.PACK, word 0x1B: the FRAME bits that carry the plane become RawToFrame's and are written; every other FRAME
bit keeps its value and stays unwritten if it was. BPTC.UNPACK and then BPTC.PACK leave FRAME as it was. -/
def Obligations.PackMergesRawIntoFrame : Prop :=
  decode 0x1B = .ok .bptcPack ∧
  (∀ s, Readable s.raw (BitVec.allOnes 196) s → ∃ t, exec .bptcPack s = .next t ∧
    t = { s with frame := t.frame, status := 0x00, draws := drawsAfter s.raw (BitVec.allOnes 196) s } ∧
    ∀ x, x < 264 →
      t.frame.val.getLsbD x =
        (rawToFrame (operand s.raw (BitVec.allOnes 196) s) s.frame.val).getLsbD x ∧
      t.frame.written.getLsbD x = (s.frame.written.getLsbD x || (rawInFrame (x / 8) (x % 8)).isSome)) ∧
  (∀ s, s.frame.covers framePlaneMask = true →
    ∃ t, andThen (exec .bptcUnpack s) (exec .bptcPack) = .next t ∧ t.frame = s.frame) ∧
  rawToFrame (cellMask 196 98) (BitVec.allOnes 264) =
    (byteTo 264 12 0x3F ||| (byteTo 264 13 0xFF ||| byteTo 264 14 0xFF ||| byteTo 264 15 0xFF ||| byteTo 264 16 0xFF |||
      byteTo 264 17 0xFF ||| byteTo 264 18 0xFF ||| byteTo 264 19 0xFF) ||| byteTo 264 20 0xFE)

/-! The Hamming codes. -/

/-- R131, R132, R134, R135: the parity equations of Hamming(13,9), its syndrome, its decoder and its encoder. -/
def Obligations.Hamming1393Functions : Prop :=
  ∀ w : Word13,
    (parity1393 w).getLsbD 0 = (w.getLsbD 0 ^^ w.getLsbD 1 ^^ w.getLsbD 3 ^^ w.getLsbD 5 ^^ w.getLsbD 6) ∧
    (parity1393 w).getLsbD 1 =
      (w.getLsbD 0 ^^ w.getLsbD 1 ^^ w.getLsbD 2 ^^ w.getLsbD 4 ^^ w.getLsbD 6 ^^ w.getLsbD 7) ∧
    (parity1393 w).getLsbD 2 =
      (w.getLsbD 0 ^^ w.getLsbD 1 ^^ w.getLsbD 2 ^^ w.getLsbD 3 ^^ w.getLsbD 5 ^^ w.getLsbD 7 ^^ w.getLsbD 8) ∧
    (parity1393 w).getLsbD 3 = (w.getLsbD 0 ^^ w.getLsbD 2 ^^ w.getLsbD 4 ^^ w.getLsbD 5 ^^ w.getLsbD 8) ∧
    (∀ j, j < 4 → (syndrome1393 w).getLsbD j = ((parity1393 w).getLsbD j ^^ w.getLsbD (9 + j))) ∧
    (syndrome1393 w = 0x0 ∨ syndrome1393 w = 0x9 ∨ syndrome1393 w = 0xB → h1393Dec w = (w, false)) ∧
    (syndrome1393 w ≠ 0x0 → syndrome1393 w ≠ 0x9 → syndrome1393 w ≠ 0xB →
      ∃ k, k < 13 ∧ flipPos1393 (syndrome1393 w) = some k ∧ (h1393Dec w).2 = true ∧
        ∀ i, i < 13 → (h1393Dec w).1.getLsbD i = (if i = k then !w.getLsbD i else w.getLsbD i)) ∧
    (∀ i, i < 9 → (h1393Enc w).getLsbD i = w.getLsbD i) ∧
    (∀ j, j < 4 → (h1393Enc w).getLsbD (9 + j) = (parity1393 w).getLsbD j) ∧
    (∀ u : Word13, (∀ i, i < 9 → u.getLsbD i = w.getLsbD i) → h1393Enc u = h1393Enc w)

/-- R133: the syndrome table of Hamming(13,9), in its own order; each entry is the position whose column is the syndrome, and at
0x9 and 0xB the decoder changes nothing and reports no correction. -/
def Obligations.Hamming1393SyndromeTable : Prop :=
  (List.range 16).map (fun s => flipPos1393 (BitVec.ofNat 4 s)) =
    [none, some 9, some 10, some 6, some 11, some 3, some 7, some 1, some 12, none, some 4, none, some 8, some 5, some 2,
      some 0] ∧
  (∀ s k, flipPos1393 s = some k ↔ (k < 13 ∧ syndrome1393 (cellMask 13 k) = s)) ∧
  (∀ w : Word13, syndrome1393 w = 0x9 ∨ syndrome1393 w = 0xB → h1393Dec w = (w, false))

/-- R137, R138, R140, R141: the parity equations of Hamming(15,11), its syndrome, its decoder and its encoder. -/
def Obligations.Hamming15113Functions : Prop :=
  ∀ w : Word15,
    (parity15113 w).getLsbD 0 =
      (w.getLsbD 0 ^^ w.getLsbD 1 ^^ w.getLsbD 2 ^^ w.getLsbD 3 ^^ w.getLsbD 5 ^^ w.getLsbD 7 ^^ w.getLsbD 8) ∧
    (parity15113 w).getLsbD 1 =
      (w.getLsbD 1 ^^ w.getLsbD 2 ^^ w.getLsbD 3 ^^ w.getLsbD 4 ^^ w.getLsbD 6 ^^ w.getLsbD 8 ^^ w.getLsbD 9) ∧
    (parity15113 w).getLsbD 2 =
      (w.getLsbD 2 ^^ w.getLsbD 3 ^^ w.getLsbD 4 ^^ w.getLsbD 5 ^^ w.getLsbD 7 ^^ w.getLsbD 9 ^^ w.getLsbD 10) ∧
    (parity15113 w).getLsbD 3 =
      (w.getLsbD 0 ^^ w.getLsbD 1 ^^ w.getLsbD 2 ^^ w.getLsbD 4 ^^ w.getLsbD 6 ^^ w.getLsbD 7 ^^ w.getLsbD 10) ∧
    (∀ j, j < 4 → (syndrome15113 w).getLsbD j = ((parity15113 w).getLsbD j ^^ w.getLsbD (11 + j))) ∧
    (syndrome15113 w = 0x0 → h15113Dec w = (w, false)) ∧
    (syndrome15113 w ≠ 0x0 →
      ∃ k, k < 15 ∧ flipPos15113 (syndrome15113 w) = some k ∧ (h15113Dec w).2 = true ∧
        ∀ i, i < 15 → (h15113Dec w).1.getLsbD i = (if i = k then !w.getLsbD i else w.getLsbD i)) ∧
    (∀ i, i < 11 → (h15113Enc w).getLsbD i = w.getLsbD i) ∧
    (∀ j, j < 4 → (h15113Enc w).getLsbD (11 + j) = (parity15113 w).getLsbD j) ∧
    (∀ u : Word15, (∀ i, i < 11 → u.getLsbD i = w.getLsbD i) → h15113Enc u = h15113Enc w)

/-- R139: the syndrome table of Hamming(15,11), in its own order; every nonzero syndrome names the position whose column it is,
so the decoder always ends at a codeword. -/
def Obligations.Hamming15113SyndromeTable : Prop :=
  (List.range 16).map (fun s => flipPos15113 (BitVec.ofNat 4 s)) =
    [none, some 11, some 12, some 8, some 13, some 5, some 9, some 3, some 14, some 0, some 6, some 1, some 10, some 7,
      some 4, some 2] ∧
  (∀ s k, flipPos15113 s = some k ↔ (k < 15 ∧ syndrome15113 (cellMask 15 k) = s)) ∧
  (∀ s : BitVec 4, s ≠ 0 → ∃ k, flipPos15113 s = some k) ∧
  (∀ w : Word15, syndrome15113 (h15113Dec w).1 = 0 ∧ ((h15113Dec w).2 = true ↔ syndrome15113 w ≠ 0))

/-- R142: both encoders are linear, a decoder's action depends only on the error pattern, every codeword decodes to itself with
f = 0, and every single-bit error is repaired with f = 1. -/
def Obligations.HammingCodesAreLinear : Prop :=
  (∀ a b : Word13, h1393Enc (a ^^^ b) = h1393Enc a ^^^ h1393Enc b) ∧
  (∀ a b : Word15, h15113Enc (a ^^^ b) = h15113Enc a ^^^ h15113Enc b) ∧
  (∀ c e : Word13, syndrome1393 c = 0 → syndrome1393 (c ^^^ e) = syndrome1393 e ∧
    h1393Dec (c ^^^ e) = (c ^^^ (h1393Dec e).1, (h1393Dec e).2)) ∧
  (∀ c e : Word15, syndrome15113 c = 0 → syndrome15113 (c ^^^ e) = syndrome15113 e ∧
    h15113Dec (c ^^^ e) = (c ^^^ (h15113Dec e).1, (h15113Dec e).2)) ∧
  (∀ w : Word13, syndrome1393 (h1393Enc w) = 0 ∧ h1393Dec (h1393Enc w) = (h1393Enc w, false) ∧
    ∀ i, i < 13 → h1393Dec (h1393Enc w ^^^ cellMask 13 i) = (h1393Enc w, true)) ∧
  (∀ w : Word15, syndrome15113 (h15113Enc w) = 0 ∧ h15113Dec (h15113Enc w) = (h15113Enc w, false) ∧
    ∀ i, i < 15 → h15113Dec (h15113Enc w ^^^ cellMask 15 i) = (h15113Enc w, true))

/-- R143: two errors. The syndrome is nonzero and neither error's column. Hamming(15,11) flips a third bit, with f = 1, and ends
at a codeword three bits from the sent one; Hamming(13,9) leaves the word, with f = 0, at syndromes 0x9 and 0xB, and otherwise
flips a third bit with f = 1. -/
def Obligations.DoubleErrorsAreNeverCorrected : Prop :=
  (∀ (w : Word15) (i j : Nat), i < 15 → j < 15 → i ≠ j →
    let v := h15113Enc w ^^^ cellMask 15 i ^^^ cellMask 15 j
    syndrome15113 v ≠ 0 ∧ syndrome15113 v ≠ syndrome15113 (cellMask 15 i) ∧ syndrome15113 v ≠ syndrome15113 (cellMask 15 j) ∧
    ∃ k, k < 15 ∧ k ≠ i ∧ k ≠ j ∧ h15113Dec v = (v ^^^ cellMask 15 k, true) ∧ syndrome15113 (v ^^^ cellMask 15 k) = 0) ∧
  (∀ (w : Word13) (i j : Nat), i < 13 → j < 13 → i ≠ j →
    let v := h1393Enc w ^^^ cellMask 13 i ^^^ cellMask 13 j
    syndrome1393 v = syndrome1393 (cellMask 13 i) ^^^ syndrome1393 (cellMask 13 j) ∧ syndrome1393 v ≠ 0 ∧
    syndrome1393 v ≠ syndrome1393 (cellMask 13 i) ∧ syndrome1393 v ≠ syndrome1393 (cellMask 13 j) ∧
    (syndrome1393 v = 0x9 ∨ syndrome1393 v = 0xB → h1393Dec v = (v, false)) ∧
    (syndrome1393 v ≠ 0x9 → syndrome1393 v ≠ 0xB →
      ∃ k, k < 13 ∧ k ≠ i ∧ k ≠ j ∧ h1393Dec v = (v ^^^ cellMask 13 k, true)))

/-- R144: Hamming(13,9) is Hamming(15,11) shortened by two positions. -/
def Obligations.ColumnCodeIsShortenedRowCode : Prop :=
  (∀ i, i < 9 → syndrome1393 (cellMask 13 i) = syndrome15113 (cellMask 15 (i + 2))) ∧
  (∀ j, j < 4 → syndrome1393 (cellMask 13 (9 + j)) = syndrome15113 (cellMask 15 (11 + j)))

/-- R145: HAM1393.DEC, word 0x20: `CW[0..12]` becomes the decoder's word, all of it written, CORR its flag; `CW[13]`, `CW[14]`
and everything else stay. The uncorrectable syndromes and a codeword give CORR = 0 with the word unchanged, a single error
CORR = 1; and the rule's example, with one of a double error miscorrected. -/
def Obligations.Ham1393DecCorrectsCw : Prop :=
  decode 0x20 = .ok .ham1393Dec ∧
  (∀ s, Readable s.cw cw13Mask s → ∃ t, exec .ham1393Dec s = .next t ∧
    let w : Word13 := (operand s.cw cw13Mask s).setWidth 13
    t = { s with cw := t.cw, corr := (h1393Dec w).2, status := 0x00, draws := drawsAfter s.cw cw13Mask s } ∧
    (∀ i, i < 13 → t.cw.val.getLsbD i = (h1393Dec w).1.getLsbD i ∧ t.cw.written.getLsbD i = true) ∧
    (∀ i, 13 ≤ i → t.cw.val.getLsbD i = s.cw.val.getLsbD i ∧ t.cw.written.getLsbD i = s.cw.written.getLsbD i) ∧
    (syndrome1393 w = 0x0 ∨ syndrome1393 w = 0x9 ∨ syndrome1393 w = 0xB →
      t.corr = false ∧ t.cw.val.setWidth 13 = w) ∧
    (∀ u i, i < 13 → w = h1393Enc u ^^^ cellMask 13 i → t.corr = true ∧ t.cw.val.setWidth 13 = h1393Enc u)) ∧
  syndrome1393 0x12AB = 0xF ∧ h1393Dec 0x12AB = (0x12AA, true) ∧ h1393Dec 0x12A9 = (0x02A9, true)

/-- R146: HAM1393.ENC, word 0x21: `CW[9..12]` becomes the parity of `CW[0..8]` and is written; the rest of CW, CORR and everything
else stay. Encoding a codeword again changes nothing; and the rule's example. -/
def Obligations.Ham1393EncWritesParity : Prop :=
  decode 0x21 = .ok .ham1393Enc ∧
  (∀ s, Readable s.cw cw9Mask s → ∃ t, exec .ham1393Enc s = .next t ∧
    t = { s with cw := t.cw, status := 0x00, draws := drawsAfter s.cw cw9Mask s } ∧
    (∀ j, j < 4 → t.cw.val.getLsbD (9 + j) = (parity1393 ((operand s.cw cw9Mask s).setWidth 13)).getLsbD j ∧
      t.cw.written.getLsbD (9 + j) = true) ∧
    (∀ i, i < 9 ∨ 13 ≤ i →
      t.cw.val.getLsbD i = s.cw.val.getLsbD i ∧ t.cw.written.getLsbD i = s.cw.written.getLsbD i)) ∧
  (∀ w, h1393Enc (h1393Enc w) = h1393Enc w) ∧ parity1393 0 = 0 ∧ h1393Enc 0x0AA = 0x12AA

/-- R147: HAM15113.DEC, word 0x22: CW becomes the decoder's word, all of it written, and CORR is 1 whenever the syndrome is
nonzero; everything else stays. The result is always a codeword; and the rule's example. -/
def Obligations.Ham15113DecCorrectsCw : Prop :=
  decode 0x22 = .ok .ham15113Dec ∧
  (∀ s, Readable s.cw cw15Mask s → ∃ t, exec .ham15113Dec s = .next t ∧
    let w := operand s.cw cw15Mask s
    t = { s with cw := Cells.full (h15113Dec w).1, corr := (h15113Dec w).2, status := 0x00,
                 draws := drawsAfter s.cw cw15Mask s } ∧
    (t.corr = true ↔ syndrome15113 w ≠ 0) ∧ syndrome15113 t.cw.val = 0 ∧
    (∀ u i j, i < 15 → j < 15 → i ≠ j → w = h15113Enc u ^^^ cellMask 15 i ^^^ cellMask 15 j →
      t.corr = true ∧ t.cw.val ≠ h15113Enc u)) ∧
  syndrome15113 0x2122 = 0x9 ∧ h15113Dec 0x2122 = (0x2123, true)

/-- R148: HAM15113.ENC, word 0x23: `CW[11..14]` becomes the parity of `CW[0..10]` and is written; `CW[0..10]`, CORR and everything
else stay; and the rule's cases and example. -/
def Obligations.Ham15113EncWritesParity : Prop :=
  decode 0x23 = .ok .ham15113Enc ∧
  (∀ s, Readable s.cw cw11Mask s → ∃ t, exec .ham15113Enc s = .next t ∧
    t = { s with cw := t.cw, status := 0x00, draws := drawsAfter s.cw cw11Mask s } ∧
    (∀ j, j < 4 → t.cw.val.getLsbD (11 + j) = (parity15113 (operand s.cw cw11Mask s)).getLsbD j ∧
      t.cw.written.getLsbD (11 + j) = true) ∧
    (∀ i, i < 11 →
      t.cw.val.getLsbD i = s.cw.val.getLsbD i ∧ t.cw.written.getLsbD i = s.cw.written.getLsbD i)) ∧
  h15113Enc 0x7FF = 0x7FFF ∧ h15113Enc 0 = 0 ∧ h15113Enc 0x123 = 0x2123

/-! BPTC(196,96). -/

/-- R161, R162: rows and columns are read and written back at the same positions, nothing else changes, rows do not meet rows,
columns do not meet columns, the columns cover positions 1 to 195 and the rows 1 to 135, once each; and columns 11 to 14 carry the
row parity bits as their data. -/
def Obligations.MatrixViewIsDisjoint : Prop :=
  (∀ (d : Plane) (r : Nat) (w : Word15), r < 9 →
    getRow (putRow d r w) r = w ∧ (∀ k, k < 15 → (getRow d r).getLsbD k = d.getLsbD (15 * r + 1 + k)) ∧
    (∀ i, i < 15 * r + 1 ∨ 15 * r + 15 < i → (putRow d r w).getLsbD i = d.getLsbD i) ∧
    ∀ r', r' < 9 → r' ≠ r → getRow (putRow d r w) r' = getRow d r') ∧
  (∀ (d : Plane) (c : Nat) (w : Word13), c < 15 →
    getCol (putCol d c w) c = w ∧ (∀ a, a < 13 → (getCol d c).getLsbD a = d.getLsbD (c + 1 + 15 * a)) ∧
    (∀ i, (∀ a, a < 13 → i ≠ c + 1 + 15 * a) → (putCol d c w).getLsbD i = d.getLsbD i) ∧
    ∀ c', c' < 15 → c' ≠ c → getCol (putCol d c w) c' = getCol d c') ∧
  (∀ i, 1 ≤ i → i ≤ 195 → ∃! p : Nat × Nat, p.1 < 15 ∧ p.2 < 13 ∧ i = p.1 + 1 + 15 * p.2) ∧
  (∀ i, 1 ≤ i → i ≤ 135 → ∃! p : Nat × Nat, p.1 < 9 ∧ p.2 < 15 ∧ i = 15 * p.1 + 1 + p.2) ∧
  (∀ (d : Plane) (j a : Nat), j < 4 → a < 9 → (getCol d (11 + j)).getLsbD a = (getRow d a).getLsbD (11 + j))

/-- R163: the positions of P0 to P95 are the nine ranges, in ascending order; from row 1 on a range is the data part of its
row. -/
def Obligations.PayloadPositionsAreTheNineRanges : Prop :=
  (List.range 96).map payloadHome = payloadRanges.flatMap (fun r => List.range' r.1 (r.2 + 1 - r.1)) ∧
  payloadRanges = [(4, 11), (16, 26), (31, 41), (46, 56), (61, 71), (76, 86), (91, 101), (106, 116), (121, 131)] ∧
  (∀ r, 1 ≤ r → r ≤ 8 → payloadRanges[r]? = some (15 * r + 1, 15 * r + 11)) ∧
  payloadRanges.map (fun r => r.2 + 1 - r.1) = [8, 11, 11, 11, 11, 11, 11, 11, 11]

/-- R165, R166: the payload bits in order are the nine ranges in order; `ExtractData` packs them into bytes; `PlaceData` puts
them at their positions and 0 everywhere else; and extracting what was placed gives it back. -/
def Obligations.ExtractUndoesPlace : Prop :=
  (List.range 96).map payloadHome = payloadRanges.flatMap (fun r => List.range' r.1 (r.2 + 1 - r.1)) ∧
  (∀ (d : Plane) (n : Nat), n < 12 →
    byteAt (extractData d) n = bitsToByteBE (ofBits 8 fun k => d.getLsbD (payloadHome (8 * n + k)))) ∧
  (∀ (y : PayloadBits) (n k : Nat), n < 12 → k < 8 →
    (placeData y).getLsbD (payloadHome (8 * n + k)) = (bytesToBitsBE (byteAt y n)).getLsbD k) ∧
  (∀ (y : PayloadBits) (a : Nat), (∀ r ∈ payloadRanges, a < r.1 ∨ r.2 < a) → (placeData y).getLsbD a = false) ∧
  (∀ y, extractData (placeData y) = y)

/-- R167: `EncodeParity` is rows first, then columns. After it every row 0 to 8 and every column is a codeword; DEINT[0] and the
data positions are unchanged; the column pass writes only rows 9 to 12; and within each loop the order does not matter. -/
def Obligations.EncodeParityMakesCodewords : Prop :=
  (∀ d, encodeParity d = encodeCols (encodeRows d)) ∧
  (∀ d, CodewordPlane (encodeParity d)) ∧
  (∀ d a, parityMask.getLsbD a = false → (encodeParity d).getLsbD a = d.getLsbD a) ∧
  (∀ d a, a ≤ 135 → (encodeParity d).getLsbD a = (encodeRows d).getLsbD a) ∧
  (∀ d, encodeParity (d ^^^ cellMask 196 0) = encodeParity d ^^^ cellMask 196 0) ∧
  (∀ (d : Plane) (l : List Nat), l.Perm (List.range 9) →
    l.foldl (fun d r => putRow d r (h15113Enc (getRow d r))) d = encodeRows d) ∧
  (∀ (d : Plane) (l : List Nat), l.Perm (List.range 15) →
    l.foldl (fun d c => putCol d c (h1393Enc (getCol d c))) d = encodeCols d)

/-- R169: a pass clears FIXING and decodes the 15 columns, then the 9 rows; a decoder that flipped a bit puts its word back and
sets FIXING. `Correct` runs passes until the first that flips nothing or the fifth, and counts them; it returns the plane as it
then stands. A pass that flips nothing changes nothing. -/
def Obligations.CorrectionStopsAtCleanPassOrFifth : Prop :=
  (∀ d : Plane, correctPass d = (List.range 9).foldl correctRow ((List.range 15).foldl correctCol ⟨d, false⟩)) ∧
  (∀ (x : Working) (c : Nat), c < 15 → correctCol x c =
    if (h1393Dec (getCol x.plane c)).2 then ⟨putCol x.plane c (h1393Dec (getCol x.plane c)).1, true⟩ else x) ∧
  (∀ (x : Working) (r : Nat), r < 9 → correctRow x r =
    if (h15113Dec (getRow x.plane r)).2 then ⟨putRow x.plane r (h15113Dec (getRow x.plane r)).1, true⟩ else x) ∧
  (∀ d : Plane, ∃ k, 1 ≤ k ∧ k ≤ 5 ∧ correct d = ((fun x => (correctPass x).plane)^[k] d, k) ∧
    (∀ j, j + 1 < k → (correctPass ((fun x => (correctPass x).plane)^[j] d)).fixing = true) ∧
    (k < 5 → (correctPass ((fun x => (correctPass x).plane)^[k - 1] d)).fixing = false)) ∧
  (∀ d : Plane, (correctPass d).fixing = false → (correctPass d).plane = d)

/-- R170: within a pass the order of the columns, and of the rows, does not change the result; DEINT[0] is neither read nor
written. -/
def Obligations.CorrectionOrderWithinLoopsIsFree : Prop :=
  (∀ (x : Working) (l : List Nat), l.Perm (List.range 15) → l.foldl correctCol x = (List.range 15).foldl correctCol x) ∧
  (∀ (x : Working) (l : List Nat), l.Perm (List.range 9) → l.foldl correctRow x = (List.range 9).foldl correctRow x) ∧
  (∀ d : Plane, correct (d ^^^ cellMask 196 0) = ((correct d).1 ^^^ cellMask 196 0, (correct d).2)) ∧
  (∀ d : Plane, (correct d).1.getLsbD 0 = d.getLsbD 0)

/-- R172: with C a plane of codewords, decoding C XOR E flips, at every step, what decoding E alone flips: the result is C XOR
what `Correct(E)` returns, in as many passes. Every encoded plane is such a C. -/
def Obligations.CorrectionDependsOnlyOnTheError : Prop :=
  (∀ C E : Plane, CodewordPlane C →
    (∀ c f, c < 15 →
      correctCol ⟨C ^^^ E, f⟩ c = ⟨C ^^^ (correctCol ⟨E, f⟩ c).plane, (correctCol ⟨E, f⟩ c).fixing⟩) ∧
    (∀ r f, r < 9 →
      correctRow ⟨C ^^^ E, f⟩ r = ⟨C ^^^ (correctRow ⟨E, f⟩ r).plane, (correctRow ⟨E, f⟩ r).fixing⟩) ∧
    correct (C ^^^ E) = (C ^^^ (correct E).1, (correct E).2)) ∧
  (∀ y, CodewordPlane (encodeParity (placeData y)))

/-- R175: BPTC.CORRECT, word 0x12: DEINT[1..195] becomes the corrected plane, all of it written; DEINT[0] keeps its value and
stays unwritten if it was; PASS and FIXING are not observable, and everything else stays. Its operands not readable, it faults. A
plane of codewords is unchanged after one pass; errors at 142 and 157 keep the loop flipping until the fifth, and are left; and
the rule's example. -/
def Obligations.CorrectRepairsDeint : Prop :=
  decode 0x12 = .ok .bptcCorrect ∧
  (∀ s, Readable s.deint matrixMask s → ∃ t, exec .bptcCorrect s = .next t ∧
    t = { s with deint := t.deint, status := 0x00, pass := t.pass, fixing := t.fixing, draws := t.draws } ∧
    (∀ a, 1 ≤ a → a ≤ 195 →
      t.deint.val.getLsbD a = (correct (operand s.deint matrixMask s)).1.getLsbD a ∧
      t.deint.written.getLsbD a = true) ∧
    t.deint.val.getLsbD 0 = s.deint.val.getLsbD 0 ∧ t.deint.written.getLsbD 0 = s.deint.written.getLsbD 0) ∧
  (∀ s, ¬ Readable s.deint matrixMask s → ∃ e, exec .bptcCorrect s = .fault e) ∧
  (∀ d, CodewordPlane d → correct d = (d, 1)) ∧
  (∀ d, CodewordPlane d →
    correct (d ^^^ cellMask 196 142 ^^^ cellMask 196 157) = (d ^^^ cellMask 196 142 ^^^ cellMask 196 157, 5)) ∧
  (∀ y, (correct (encodeParity (placeData y) ^^^ cellMask 196 4)) = (encodeParity (placeData y), 2))

/-- R176: BPTC.EXTRACT, word 0x13: PAYLOAD becomes ExtractData(DEINT), all of it written; everything else stays. Only the 96
payload positions are read; and the rule's example. -/
def Obligations.ExtractFillsPayload : Prop :=
  decode 0x13 = .ok .bptcExtract ∧
  (∀ s, Readable s.deint payloadMask s →
    exec .bptcExtract s = .next
      { s with payload := Cells.full (extractData (operand s.deint payloadMask s)), status := 0x00,
               draws := drawsAfter s.deint payloadMask s }) ∧
  (∀ d e : Plane, (∀ r ∈ payloadRanges, ∀ a, r.1 ≤ a → a ≤ r.2 → d.getLsbD a = e.getLsbD a) →
    extractData d = extractData e) ∧
  extractData (cellMask 196 4 ||| cellMask 196 131) = (byteTo 96 0 0x80 ||| byteTo 96 11 0x01)

/-- R177: BPTC.PLACE, word 0x18: DEINT becomes PlaceData(PAYLOAD), all of it written, 0 outside the nine ranges; everything else
stays; and the rule's example. -/
def Obligations.PlaceFillsDeint : Prop :=
  decode 0x18 = .ok .bptcPlace ∧
  (∀ s, Readable s.payload (BitVec.allOnes 96) s → ∃ t, exec .bptcPlace s = .next t ∧
    t = { s with deint := Cells.full (placeData (operand s.payload (BitVec.allOnes 96) s)), status := 0x00,
                 draws := drawsAfter s.payload (BitVec.allOnes 96) s } ∧
    ∀ a, (∀ r ∈ payloadRanges, a < r.1 ∨ r.2 < a) → t.deint.val.getLsbD a = false) ∧
  placeData (byteTo 96 0 0x80 ||| byteTo 96 11 0x01) = (cellMask 196 4 ||| cellMask 196 131)

/-- R178: BPTC.PARITY, word 0x19: the row parity positions and rows 9 to 12 become EncodeParity's and are written; the data
positions and DEINT[0] keep their values and stay unwritten if they were; everything else stays. With the data written,
repeating it changes nothing; and the rule's example. -/
def Obligations.ParityFillsParityPositions : Prop :=
  decode 0x19 = .ok .bptcParity ∧
  (∀ s, Readable s.deint rowDataMask s → ∃ t, exec .bptcParity s = .next t ∧
    t = { s with deint := t.deint, status := 0x00, draws := drawsAfter s.deint rowDataMask s } ∧
    (∀ a, a < 196 → (136 ≤ a ∨ ∃ r, r ≤ 8 ∧ 15 * r + 12 ≤ a ∧ a ≤ 15 * r + 15) →
      t.deint.val.getLsbD a = (encodeParity (operand s.deint rowDataMask s)).getLsbD a ∧
      t.deint.written.getLsbD a = true) ∧
    (∀ a, a < 196 → ¬ (136 ≤ a ∨ ∃ r, r ≤ 8 ∧ 15 * r + 12 ≤ a ∧ a ≤ 15 * r + 15) →
      t.deint.val.getLsbD a = s.deint.val.getLsbD a ∧ t.deint.written.getLsbD a = s.deint.written.getLsbD a)) ∧
  (∀ s t, s.deint.covers rowDataMask = true → exec .bptcParity s = .next t →
    ∃ u, exec .bptcParity t = .next u ∧ u.deint = t.deint) ∧
  encodeParity (cellMask 196 4) =
    [4, 12, 13, 14, 139, 147, 148, 149, 154, 162, 163, 164, 169, 177, 178, 179, 184, 192, 193, 194].foldl
      (fun d a => d ||| cellMask 196 a) 0

/-- R179: BPTC.DEC, word 0x01: RAW, DEINT and PAYLOAD become the unpacked, the corrected and the extracted values, all of them
written; FRAME, CORR and everything else stay (PASS and FIXING are not observable). It is the four decode steps in order, RAW
and DEINT before it have no effect; and the rule's example, in one pass. -/
def Obligations.DecDecodesFrame : Prop :=
  decode 0x01 = .ok .bptcDec ∧
  (∀ s, Readable s.frame framePlaneMask s → ∃ t, exec .bptcDec s = .next t ∧
    let raw := frameToRaw (operand s.frame framePlaneMask s)
    let fixed := (correct (deinterleave raw)).1
    t = { s with raw := Cells.full raw, deint := Cells.full fixed, payload := Cells.full (extractData fixed),
                 status := 0x00, pass := t.pass, fixing := t.fixing, draws := t.draws }) ∧
  (∀ s, exec .bptcDec s =
    andThen (exec .bptcUnpack s) fun s1 => andThen (exec .bptcDeinterleave s1) fun s2 =>
      andThen (exec .bptcCorrect s2) fun s3 => exec .bptcExtract s3) ∧
  (∀ (s : State) (r d : Cells 196), exec .bptcDec { s with raw := r, deint := d } = exec .bptcDec s) ∧
  extractData (correct (deinterleave (frameToRaw
      0xCDA3C91DF4C5F8834FEA4CE80200000000000000C067ABF1B80B37A14D876E8709#264))).1 =
    0x98BADCFEEFCDAB8967452301#96 ∧
  (correct (deinterleave (frameToRaw
      0xCDA3C91DF4C5F8834FEA4CE80200000000000000C067ABF1B80B37A14D876E8709#264))).2 = 1

/-- R180: BPTC.ENC, word 0x02: DEINT, RAW and FRAME's plane bits become the encoded plane, its interleaving and its packing; the
other FRAME bits stay, written or not, and so does everything else. It is the four encode steps in order; FRAME[0] bit 7 is 0
afterwards; an all-zero payload gives zero plane bits; and the rule's example. -/
def Obligations.EncEncodesPayload : Prop :=
  decode 0x02 = .ok .bptcEnc ∧
  (∀ s, Readable s.payload (BitVec.allOnes 96) s → ∃ t, exec .bptcEnc s = .next t ∧
    let plane := encodeParity (placeData (operand s.payload (BitVec.allOnes 96) s))
    t = { s with deint := Cells.full plane, raw := Cells.full (interleave plane), frame := t.frame, status := 0x00,
                 draws := drawsAfter s.payload (BitVec.allOnes 96) s } ∧
    (∀ x, x < 264 → t.frame.val.getLsbD x = (rawToFrame (interleave plane) s.frame.val).getLsbD x ∧
      t.frame.written.getLsbD x = (s.frame.written.getLsbD x || (rawInFrame (x / 8) (x % 8)).isSome)) ∧
    t.frame.val.getLsbD 7 = false) ∧
  (∀ s, exec .bptcEnc s =
    andThen (exec .bptcPlace s) fun s1 => andThen (exec .bptcParity s1) fun s2 =>
      andThen (exec .bptcInterleave s2) fun s3 => exec .bptcPack s3) ∧
  interleave (encodeParity (placeData 0)) = 0 ∧
  rawToFrame (interleave (encodeParity (placeData 0x98BADCFEEFCDAB8967452301#96))) 0 =
    0xCDA3C91DF4C5F8834FEA4CE80200000000000000C067ABF1B80B37A14D876E8709#264

/-- R181: BPTC.ENC and then BPTC.DEC leave PAYLOAD as it was, for every payload and every frame; the decode takes one pass. -/
def Obligations.EncodeThenDecodeRecoversPayload : Prop :=
  ∀ s, Readable s.payload (BitVec.allOnes 96) s →
    ∃ t u, exec .bptcEnc s = .next t ∧ exec .bptcDec t = .next u ∧
      u.payload = Cells.full (operand s.payload (BitVec.allOnes 96) s) ∧
      (correct (deinterleave (frameToRaw t.frame.val))).2 = 1

/-- R182: from the frame BPTC.ENC produced, with any one of the 196 plane-carrying bits flipped, BPTC.DEC recovers the payload;
flipping a FRAME bit that carries no plane bit has no effect on BPTC.DEC at all. -/
def Obligations.SingleBitErrorIsCorrected : Prop :=
  (∀ (s t : State) (i : Nat), i < 196 → exec .bptcEnc s = .next t →
    ∃ u, exec .bptcDec (flipFrameBit (8 * (frameHome i).1 + (frameHome i).2) t) = .next u ∧
      u.payload = Cells.full (operand s.payload (BitVec.allOnes 96) s)) ∧
  (∀ (s u : State) (x : Nat),
    ((x / 8 = 12 ∧ x % 8 ≤ 5) ∨ (13 ≤ x / 8 ∧ x / 8 ≤ 19) ∨ (x / 8 = 20 ∧ 2 ≤ x % 8)) →
    exec .bptcDec s = .next u → exec .bptcDec (flipFrameBit x s) = .next (flipFrameBit x u))

/-- R173 (its statement about weight 1): every one of the 196 single errors leaves the payload right; an error in DEINT[0] takes
one pass, every other takes two. -/
def Obligations.WeightOneErrorsTakeTwoPasses : Prop :=
  ∀ (y : PayloadBits) (i : Nat), i < 196 →
    extractData (correct (encodeParity (placeData y) ^^^ cellMask 196 i)).1 = y ∧
    (correct (encodeParity (placeData y) ^^^ cellMask 196 i)).2 = (if i = 0 then 1 else 2)
end

