-- ==== Sys2Proof/Laws/Bits.lean ====
section
/-! SUPPORT. What each bit of the built bit vectors is: one lemma per builder, which later proofs cite. -/

namespace Sys2Proof.Machine

-- In order, not side by side: many kernel evaluations waiting at once would each hold a thread, and its stack.
set_option Elab.async false

/-- Bit `i` of `ofBits n f`. -/
@[simp] theorem getLsbD_ofBits (n : Nat) (f : Nat → Bool) (i : Nat) :
    (ofBits n f).getLsbD i = (decide (i < n) && f i) := by
  induction n with
  | zero => simp [ofBits]
  | succ n ih =>
    rw [ofBits, BitVec.getLsbD_cons, ih]
    by_cases h : i = n
    · simp [h]
    · have : (i < n + 1) ↔ (i < n) := by omega
      simp [h, this]

/-- Bit `i` of `ofBits n f`, inside the width. -/
@[simp] theorem getElem_ofBits (n : Nat) (f : Nat → Bool) (i : Nat) (h : i < n) : (ofBits n f)[i] = f i := by
  rw [← BitVec.getLsbD_eq_getElem, getLsbD_ofBits]
  simp [h]

/-- Two `ofBits` values agree when their bits inside the width do. -/
theorem ofBits_congr {n : Nat} {f g : Nat → Bool} (h : ∀ i, i < n → f i = g i) : ofBits n f = ofBits n g := by
  apply BitVec.eq_of_getLsbD_eq
  intro i hi
  simp only [getLsbD_ofBits, h i hi]

/-- `ofBits` takes XOR to XOR. -/
theorem ofBits_xor {n : Nat} (f g : Nat → Bool) :
    ofBits n (fun i => f i ^^ g i) = ofBits n f ^^^ ofBits n g := by
  apply BitVec.eq_of_getLsbD_eq
  intro i hi
  simp only [getLsbD_ofBits, BitVec.getLsbD_xor, hi, decide_true, Bool.true_and]

/-- Bit `j` of the mask of cell `i`. -/
@[simp] theorem getLsbD_cellMask (n i j : Nat) :
    (cellMask n i).getLsbD j = (decide (j < n) && decide (j = i)) := by
  unfold cellMask
  rw [Bool.eq_iff_iff]
  simp only [BitVec.getLsbD_shiftLeft, BitVec.getLsbD_ofNat, Nat.testBit_one_eq_true_iff_self_eq_zero,
    Bool.and_eq_true, decide_eq_true_eq, Bool.not_eq_true', decide_eq_false_iff_not]
  omega

/-- Bit `i` of the cells `lo` to `hi`. -/
theorem getLsbD_rangeMask (n lo hi i : Nat) :
    (rangeMask n lo hi).getLsbD i = (decide (i < n) && (decide (lo ≤ i) && decide (i ≤ hi))) := by
  unfold rangeMask
  rw [Bool.eq_iff_iff]
  simp only [BitVec.getLsbD_shiftLeft, BitVec.getLsbD_ofNat, Nat.testBit_two_pow_sub_one,
    Bool.and_eq_true, decide_eq_true_eq, Bool.not_eq_true', decide_eq_false_iff_not]
  omega

/-- Bit `i` of the cells of byte `k`. -/
theorem getLsbD_byteMask (n k i : Nat) :
    (byteMask n k).getLsbD i = (decide (i < n) && decide (i / 8 = k)) := by
  unfold byteMask
  rw [Bool.eq_iff_iff]
  simp only [BitVec.getLsbD_shiftLeft, BitVec.getLsbD_ofNat, show (0xFF : Nat) = 2 ^ 8 - 1 from rfl,
    Nat.testBit_two_pow_sub_one, Bool.and_eq_true, decide_eq_true_eq, Bool.not_eq_true', decide_eq_false_iff_not]
  omega

/-- Bit `b` of byte `k` of a buffer (R8). -/
theorem getLsbD_byteAt {n : Nat} (v : BitVec n) (k b : Nat) :
    (byteAt v k).getLsbD b = (decide (b < 8) && v.getLsbD (8 * k + b)) := by
  simp [byteAt, BitVec.getLsbD_extractLsb']

/-- Bit `i` of a byte standing at byte `k`. -/
theorem getLsbD_byteTo (n k : Nat) (v : Byte) (i : Nat) :
    (byteTo n k v).getLsbD i = (decide (i < n) && (decide (i / 8 = k) && v.getLsbD (i % 8))) := by
  unfold byteTo
  simp only [BitVec.getLsbD_shiftLeft, BitVec.getLsbD_setWidth]
  by_cases h : i / 8 = k
  · have h2 : i - 8 * k = i % 8 := by omega
    have h1 : ¬ i < 8 * k := by omega
    by_cases h3 : i < n
    · have : i % 8 < n := by omega
      simp [h, h1, h2, h3, this]
    · simp [h3]
  · by_cases h1 : i < 8 * k
    · simp [h, h1]
    · have : v.getLsbD (i - 8 * k) = false := BitVec.getLsbD_of_ge _ _ (by omega)
      simp [h, this]

/-- Bit `j` of data bit 0 standing at cell `i` (R58). -/
theorem getLsbD_cellTo (n i : Nat) (v : Byte) (j : Nat) :
    (cellTo n i v).getLsbD j = (decide (j < n) && (decide (j = i) && v.getLsbD 0)) := by
  unfold cellTo
  split <;> simp_all

/-- The bits that a list of ranges adds. -/
theorem getLsbD_foldl_rangeMask {n : Nat} (rs : List (Nat × Nat)) (m : BitVec n) (i : Nat) :
    (rs.foldl (fun m r => m ||| rangeMask n r.1 r.2) m).getLsbD i
      = (m.getLsbD i || (decide (i < n) && rs.any fun r => decide (r.1 ≤ i) && decide (i ≤ r.2))) := by
  induction rs generalizing m with
  | nil => simp
  | cons r rs ih =>
    simp only [List.foldl_cons, ih, BitVec.getLsbD_or, getLsbD_rangeMask, List.any_cons]
    cases m.getLsbD i <;> cases decide (i < n) <;> simp

/-- Bit `i` of the cells of a list of ranges. -/
theorem getLsbD_cellsIn (n : Nat) (rs : List (Nat × Nat)) (i : Nat) :
    (cellsIn n rs).getLsbD i = (decide (i < n) && rs.any fun r => decide (r.1 ≤ i) && decide (i ≤ r.2)) := by
  simp [cellsIn, getLsbD_foldl_rangeMask]

/-! The operand masks, bit by bit. -/

/-- The mask of R232 for FRAME is exactly the bits that carry the plane (R109). -/
theorem getLsbD_framePlaneMask (x : Nat) :
    framePlaneMask.getLsbD x = (decide (x < 264) && (rawInFrame (x / 8) (x % 8)).isSome) := by
  by_cases h : x < 264
  · revert x; decide +kernel
  · simp [h, BitVec.getLsbD_of_ge framePlaneMask x (by omega)]

/-- The nine ranges are exactly the positions of the payload bits (R163). -/
theorem getLsbD_payloadMask (a : Nat) : payloadMask.getLsbD a = (decide (a < 196) && (payloadAt a).isSome) := by
  by_cases h : a < 196
  · revert a; decide +kernel
  · simp [h, BitVec.getLsbD_of_ge payloadMask a (by omega)]

/-- The matrix is positions 1 to 195 (R160). -/
theorem getLsbD_matrixMask (a : Nat) : matrixMask.getLsbD a = (decide (a < 196) && decide (1 ≤ a)) := by
  rw [matrixMask, getLsbD_cellsIn, Bool.eq_iff_iff]
  simp
  omega

/-- The data parts of rows 0 to 8, by row arithmetic (R161). -/
theorem getLsbD_rowDataMask (a : Nat) :
    rowDataMask.getLsbD a = (decide (1 ≤ a) && (decide (a ≤ 135) && decide ((a - 1) % 15 < 11))) := by
  by_cases h : a < 196
  · revert a; decide +kernel
  · simp [show ¬ a ≤ 135 by omega, BitVec.getLsbD_of_ge rowDataMask a (by omega)]

/-- BPTC.PARITY reads and writes disjoint cells that make up the matrix (R178). -/
theorem parityMask_eq : parityMask = matrixMask &&& ~~~rowDataMask := by decide +kernel

/-- FRAME's plane bits and the plane's places in FRAME are inverse to each other (R108, R109). -/
theorem rawInFrame_frameHome (i : Nat) (h : i < 196) :
    rawInFrame (frameHome i).1 (frameHome i).2 = some i ∧ (frameHome i).1 ≤ 32 ∧ (frameHome i).2 < 8 := by
  revert i; decide +kernel

/-- A FRAME bit that carries plane bit `i` is the home of `i` (R109). -/
theorem frameHome_rawInFrame (x : Nat) (h : x < 264) :
    ∀ i, rawInFrame (x / 8) (x % 8) = some i → i < 196 ∧ frameHome i = (x / 8, x % 8) := by
  have key : ∀ x, x < 264 → ((rawInFrame (x / 8) (x % 8)).all fun i => decide (i < 196 ∧ frameHome i = (x / 8, x % 8))) = true := by
    decide +kernel
  intro i hi
  simpa [hi] using key x h

/-- Payload bits and their DEINT positions are inverse to each other (R163). -/
theorem payloadAt_payloadHome (j : Nat) (h : j < 96) : payloadAt (payloadHome j) = some j ∧ payloadHome j < 196 := by
  revert j; decide +kernel

/-- A DEINT position that carries payload bit `j` is the home of `j` (R163). -/
theorem payloadHome_payloadAt (a : Nat) (h : a < 196) : ∀ j, payloadAt a = some j → j < 96 ∧ payloadHome j = a := by
  have key : ∀ a, a < 196 → ((payloadAt a).all fun j => decide (j < 96 ∧ payloadHome j = a)) = true := by
    decide +kernel
  intro j hj
  simpa [hj] using key a h

/-- A payload bit's cell, and the payload bit of a cell, are the same involution (R22). -/
theorem payloadCell_payloadCell (x : Nat) : payloadCell (payloadCell x) = x := by
  unfold payloadCell; omega

/-- The cell of a payload bit lies in the buffer (R22). -/
theorem payloadCell_lt {x : Nat} (h : x < 96) : payloadCell x < 96 := by
  unfold payloadCell; omega

end Sys2Proof.Machine
end

