-- ==== Sys2Proof/Laws/Codec.lean ====
section
/-! SUPPORT. One lemma per pure function of the codec: what each bit of its value is; and that the two codes' checks and
syndromes take XOR to XOR. -/

namespace Sys2Proof.Machine

-- In order, not side by side: many kernel evaluations waiting at once would each hold a thread, and its stack.
set_option Elab.async false

/-! Planes (R103, R104, R108, R109). -/

theorem interleavePos_lt (a : Nat) : interleavePos a < 196 := Nat.mod_lt _ (by decide)

theorem interleaveInv_lt (i : Nat) : interleaveInv i < 196 := Nat.mod_lt _ (by decide)

theorem getLsbD_deinterleave (r : Plane) (a : Nat) :
    (deinterleave r).getLsbD a = (decide (a < 196) && r.getLsbD (interleavePos a)) := by
  simp only [deinterleave, getLsbD_ofBits]

theorem getLsbD_interleave (d : Plane) (i : Nat) :
    (interleave d).getLsbD i = (decide (i < 196) && d.getLsbD (interleaveInv i)) := by
  simp only [interleave, getLsbD_ofBits]

theorem getLsbD_frameToRaw (f : FrameBits) (i : Nat) :
    (frameToRaw f).getLsbD i = (decide (i < 196) && f.getLsbD (8 * (frameHome i).1 + (frameHome i).2)) := by
  simp only [frameToRaw, getLsbD_ofBits]

/-- A FRAME bit that carries the plane comes from it (R109). -/
theorem getLsbD_rawToFrame_some (r : Plane) (f : FrameBits) {x i : Nat} (hx : x < 264)
    (h : rawInFrame (x / 8) (x % 8) = some i) : (rawToFrame r f).getLsbD x = r.getLsbD i := by
  simp only [rawToFrame, getLsbD_ofBits, hx, decide_true, Bool.true_and, h]

/-- Every other FRAME bit is kept (R109). -/
theorem getLsbD_rawToFrame_none (r : Plane) (f : FrameBits) {x : Nat} (hx : x < 264)
    (h : rawInFrame (x / 8) (x % 8) = none) : (rawToFrame r f).getLsbD x = f.getLsbD x := by
  simp only [rawToFrame, getLsbD_ofBits, hx, decide_true, Bool.true_and, h]

/-! The payload (R165, R166). -/

theorem getLsbD_extractData (d : Plane) (x : Nat) :
    (extractData d).getLsbD x = (decide (x < 96) && d.getLsbD (payloadHome (payloadCell x))) := by
  simp only [extractData, getLsbD_ofBits]

theorem getLsbD_placeData_some (y : PayloadBits) {a j : Nat} (ha : a < 196) (h : payloadAt a = some j) :
    (placeData y).getLsbD a = y.getLsbD (payloadCell j) := by
  simp only [placeData, getLsbD_ofBits, ha, decide_true, Bool.true_and, h]

theorem getLsbD_placeData_none (y : PayloadBits) {a : Nat} (h : payloadAt a = none) :
    (placeData y).getLsbD a = false := by
  simp only [placeData, getLsbD_ofBits, h, Bool.and_false]

/-! Rows and columns (R161, R162). -/

theorem getLsbD_getRow (d : Plane) (r k : Nat) :
    (getRow d r).getLsbD k = (decide (k < 15) && d.getLsbD (15 * r + 1 + k)) := by
  simp only [getRow, getLsbD_ofBits]

theorem getLsbD_getCol (d : Plane) (c a : Nat) :
    (getCol d c).getLsbD a = (decide (a < 13) && d.getLsbD (c + 1 + 15 * a)) := by
  simp only [getCol, getLsbD_ofBits]

/-- A position of row `r` after `PutRow`. -/
theorem getLsbD_putRow_in (d : Plane) (w : Word15) {r k : Nat} (hr : r < 13) (hk : k < 15) :
    (putRow d r w).getLsbD (15 * r + 1 + k) = w.getLsbD k := by
  have h1 : 15 * r + 1 + k < 196 := by omega
  have h2 : 15 * r + 1 + k - (15 * r + 1) = k := by omega
  have h3 : 15 * r + 1 ≤ 15 * r + 1 + k := by omega
  have h4 : 15 * r + 1 + k < 15 * r + 16 := by omega
  simp only [putRow, getLsbD_ofBits, h1, h2, h3, h4, decide_true, Bool.true_and, if_true]

/-- A position outside row `r` after `PutRow`. -/
theorem getLsbD_putRow_out (d : Plane) (w : Word15) {r i : Nat} (h : i < 15 * r + 1 ∨ 15 * r + 16 ≤ i) :
    (putRow d r w).getLsbD i = d.getLsbD i := by
  have h1 : ¬ (15 * r + 1 ≤ i ∧ i < 15 * r + 16) := by omega
  by_cases hi : i < 196
  · simp only [putRow, getLsbD_ofBits, hi, decide_true, Bool.true_and, Bool.and_eq_true, decide_eq_true_eq, h1, if_false]
  · rw [BitVec.getLsbD_of_ge _ _ (by omega), BitVec.getLsbD_of_ge _ _ (by omega)]

/-- A position of column `c` after `PutCol`. -/
theorem getLsbD_putCol_in (d : Plane) (w : Word13) {c a : Nat} (hc : c < 15) (ha : a < 13) :
    (putCol d c w).getLsbD (c + 1 + 15 * a) = w.getLsbD a := by
  have h1 : c + 1 + 15 * a < 196 := by omega
  have h2 : c + 1 + 15 * a - (c + 1) = 15 * a := by omega
  have h3 : c + 1 ≤ c + 1 + 15 * a := by omega
  simp only [putCol, getLsbD_ofBits, h1, h2, h3, decide_true, Bool.true_and, Nat.mul_mod_right, beq_self_eq_true,
    Nat.mul_div_cancel_left a (by decide : 0 < 15), ha, if_true]

/-- A position outside column `c` after `PutCol`. -/
theorem getLsbD_putCol_out (d : Plane) (w : Word13) {c i : Nat} (h : ∀ a, a < 13 → i ≠ c + 1 + 15 * a) :
    (putCol d c w).getLsbD i = d.getLsbD i := by
  have h1 : ¬ ((c + 1 ≤ i ∧ (i - (c + 1)) % 15 = 0) ∧ (i - (c + 1)) / 15 < 13) := by
    rintro ⟨⟨h2, h3⟩, h4⟩
    exact h _ h4 (by omega)
  by_cases hi : i < 196
  · simp only [putCol, getLsbD_ofBits, hi, decide_true, Bool.true_and, Bool.and_eq_true, decide_eq_true_eq, beq_iff_eq,
      h1, if_false]
  · rw [BitVec.getLsbD_of_ge _ _ (by omega), BitVec.getLsbD_of_ge _ _ (by omega)]

/-- Row and column reads take XOR to XOR. -/
theorem getRow_xor (d e : Plane) (r : Nat) : getRow (d ^^^ e) r = getRow d r ^^^ getRow e r := by
  simp only [getRow, BitVec.getLsbD_xor, ofBits_xor]

theorem getCol_xor (d e : Plane) (c : Nat) : getCol (d ^^^ e) c = getCol d c ^^^ getCol e c := by
  simp only [getCol, BitVec.getLsbD_xor, ofBits_xor]

/-! The codes (R131, R132, R137, R138). -/

theorem nibble_xor (a b c d a' b' c' d' : Bool) :
    nibble (a ^^ a') (b ^^ b') (c ^^ c') (d ^^ d') = nibble a b c d ^^^ nibble a' b' c' d' := by
  revert a b c d a' b' c' d'; decide +kernel

theorem parity1393_xor (v w : Word13) : parity1393 (v ^^^ w) = parity1393 v ^^^ parity1393 w := by
  simp only [parity1393, BitVec.getLsbD_xor, ← nibble_xor]
  have : Std.Commutative Bool.xor := ⟨Bool.xor_comm⟩
  congr 1 <;> ac_rfl

theorem parity15113_xor (v w : Word15) : parity15113 (v ^^^ w) = parity15113 v ^^^ parity15113 w := by
  simp only [parity15113, BitVec.getLsbD_xor, ← nibble_xor]
  have : Std.Commutative Bool.xor := ⟨Bool.xor_comm⟩
  congr 1 <;> ac_rfl

theorem syndrome1393_xor (v w : Word13) : syndrome1393 (v ^^^ w) = syndrome1393 v ^^^ syndrome1393 w := by
  have h : (v ^^^ w).extractLsb' 9 4 = v.extractLsb' 9 4 ^^^ w.extractLsb' 9 4 := by
    apply BitVec.eq_of_getLsbD_eq; intro i hi
    simp only [BitVec.getLsbD_extractLsb', BitVec.getLsbD_xor, hi, decide_true, Bool.true_and]
  rw [syndrome1393, syndrome1393, syndrome1393, h, parity1393_xor]
  ac_rfl

theorem syndrome15113_xor (v w : Word15) : syndrome15113 (v ^^^ w) = syndrome15113 v ^^^ syndrome15113 w := by
  have h : (v ^^^ w).extractLsb' 11 4 = v.extractLsb' 11 4 ^^^ w.extractLsb' 11 4 := by
    apply BitVec.eq_of_getLsbD_eq; intro i hi
    simp only [BitVec.getLsbD_extractLsb', BitVec.getLsbD_xor, hi, decide_true, Bool.true_and]
  rw [syndrome15113, syndrome15113, syndrome15113, h, parity15113_xor]
  ac_rfl

/-! The encoders and decoders (R134, R135, R140, R141), bit by bit and by what the syndrome table answers. -/

theorem getLsbD_h1393Enc (w : Word13) (i : Nat) :
    (h1393Enc w).getLsbD i = if i < 9 then w.getLsbD i else (parity1393 w).getLsbD (i - 9) := by
  rw [h1393Enc, BitVec.getLsbD_append, BitVec.getLsbD_extractLsb']
  by_cases h : i < 9 <;> simp [h]

theorem getLsbD_h15113Enc (w : Word15) (i : Nat) :
    (h15113Enc w).getLsbD i = if i < 11 then w.getLsbD i else (parity15113 w).getLsbD (i - 11) := by
  rw [h15113Enc, BitVec.getLsbD_append, BitVec.getLsbD_extractLsb']
  by_cases h : i < 11 <;> simp [h]

/-- The checks of Hamming(13,9) read only the data bits. -/
theorem parity1393_congr {u w : Word13} (h : ∀ i, i < 9 → u.getLsbD i = w.getLsbD i) : parity1393 u = parity1393 w := by
  simp only [parity1393]
  rw [h 0, h 1, h 2, h 3, h 4, h 5, h 6, h 7, h 8] <;> omega

/-- The checks of Hamming(15,11) read only the data bits. -/
theorem parity15113_congr {u w : Word15} (h : ∀ i, i < 11 → u.getLsbD i = w.getLsbD i) :
    parity15113 u = parity15113 w := by
  simp only [parity15113]
  rw [h 0, h 1, h 2, h 3, h 4, h 5, h 6, h 7, h 8, h 9, h 10] <;> omega

theorem h1393Dec_of_none {w : Word13} (h : flipPos1393 (syndrome1393 w) = none) : h1393Dec w = (w, false) := by
  rw [h1393Dec, h]

theorem h1393Dec_of_some {w : Word13} {k : Nat} (h : flipPos1393 (syndrome1393 w) = some k) :
    h1393Dec w = (w ^^^ cellMask 13 k, true) := by
  rw [h1393Dec, h]

theorem h15113Dec_of_none {w : Word15} (h : flipPos15113 (syndrome15113 w) = none) : h15113Dec w = (w, false) := by
  rw [h15113Dec, h]

theorem h15113Dec_of_some {w : Word15} {k : Nat} (h : flipPos15113 (syndrome15113 w) = some k) :
    h15113Dec w = (w ^^^ cellMask 15 k, true) := by
  rw [h15113Dec, h]

end Sys2Proof.Machine
end

