-- ==== Sys2Proof/Laws/Cells.lean ====
section
/-! SUPPORT. Cells: what a write leaves, what a read gives, and the canonical form that every write keeps
(spec/10_state.md R34). -/

namespace Sys2Proof.Machine

variable {n : Nat}

/-- `covers` says that every cell of the mask is written. -/
theorem covers_iff (c : Cells n) (m : BitVec n) :
    c.covers m = true ↔ ∀ i, m.getLsbD i = true → c.written.getLsbD i = true := by
  unfold Cells.covers Cells.missing
  rw [beq_iff_eq]
  constructor
  · intro h i hi
    have := congrArg (fun v => v.getLsbD i) h
    have hn : i < n := BitVec.lt_of_getLsbD hi
    simpa [hi, hn] using this
  · intro h
    apply BitVec.eq_of_getLsbD_eq
    intro i hi
    cases hm : m.getLsbD i
    · simp [hm]
    · simp [hm, h i hm]

/-- The canonical form, cell by cell: no value under an unwritten cell. -/
theorem wf_iff (c : Cells n) : c.wf = true ↔ ∀ i, c.val.getLsbD i = true → c.written.getLsbD i = true := by
  have := covers_iff ⟨c.val, c.written⟩ c.val
  simpa [Cells.wf, Cells.covers, Cells.missing] using this

@[simp] theorem getLsbD_put_val (c : Cells n) (m v : BitVec n) (i : Nat) :
    (c.put m v).val.getLsbD i = if m.getLsbD i then v.getLsbD i else c.val.getLsbD i := by
  by_cases hn : i < n
  · simp only [Cells.put, BitVec.getLsbD_or, BitVec.getLsbD_and, BitVec.getLsbD_not, hn, decide_true, Bool.true_and]
    cases m.getLsbD i <;> simp
  · simp [BitVec.getLsbD_of_ge, Nat.le_of_not_lt hn]

@[simp] theorem getLsbD_put_written (c : Cells n) (m v : BitVec n) (i : Nat) :
    (c.put m v).written.getLsbD i = (c.written.getLsbD i || m.getLsbD i) := by
  simp [Cells.put]

@[simp] theorem full_val (v : BitVec n) : (Cells.full v).val = v := rfl
@[simp] theorem full_written (v : BitVec n) : (Cells.full v).written = BitVec.allOnes n := rfl
@[simp] theorem unwritten_val : (Cells.unwritten n).val = 0 := rfl
@[simp] theorem unwritten_written : (Cells.unwritten n).written = 0 := rfl

/-- A write keeps the canonical form. -/
theorem put_wf (c : Cells n) (m v : BitVec n) (h : c.wf = true) : (c.put m v).wf = true := by
  rw [wf_iff] at h ⊢
  intro i hi
  rw [getLsbD_put_val] at hi
  rw [getLsbD_put_written]
  cases hm : m.getLsbD i
  · simp only [hm] at hi; simp [h i (by simpa using hi)]
  · simp

/-- A file written whole is in canonical form. -/
theorem full_wf (v : BitVec n) : (Cells.full v).wf = true := by
  simp [Cells.wf, Cells.full]

/-- A file after reset is in canonical form (R34). -/
theorem unwritten_wf : (Cells.unwritten n).wf = true := by
  simp [Cells.wf, Cells.unwritten]

/-- A file written whole covers every mask. -/
@[simp] theorem full_covers (v m : BitVec n) : (Cells.full v).covers m = true := by
  simp [Cells.covers, Cells.missing, Cells.full]

/-- What a read of covered cells gives does not depend on the fresh bits: the values of the cells of the mask. -/
theorem readValue_of_covers (c : Cells n) (m fresh : BitVec n) (h : c.covers m = true) :
    c.readValue m fresh = c.val &&& m := by
  have hm : c.missing m = 0 := by simpa [Cells.covers] using h
  have hw := (covers_iff c m).1 h
  apply BitVec.eq_of_getLsbD_eq
  intro i hi
  simp only [Cells.readValue, hm, BitVec.getLsbD_or, BitVec.getLsbD_and]
  cases hmi : m.getLsbD i
  · simp
  · simp [hw i hmi]

/-- A read of a file written whole, over all its cells, gives the file. -/
@[simp] theorem readValue_full (v fresh : BitVec n) :
    (Cells.full v).readValue (BitVec.allOnes n) fresh = v := by
  rw [readValue_of_covers _ _ _ (full_covers _ _)]
  simp [Cells.full]

/-- What a read gives, cell by cell: a written cell's value, a fresh bit for an unwritten one, 0 for a cell not read (R34). -/
theorem getLsbD_readValue (c : Cells n) (m fresh : BitVec n) (i : Nat) :
    (c.readValue m fresh).getLsbD i =
      (m.getLsbD i && if c.written.getLsbD i then c.val.getLsbD i else fresh.getLsbD i) := by
  by_cases hn : i < n
  · simp only [Cells.readValue, Cells.missing, BitVec.getLsbD_or, BitVec.getLsbD_and, BitVec.getLsbD_not]
    cases m.getLsbD i <;> cases c.written.getLsbD i <;> simp [hn]
  · simp [BitVec.getLsbD_of_ge, Nat.le_of_not_lt hn]

end Sys2Proof.Machine
end

