-- ==== Sys2Proof/Laws/State.lean ====
section
/-! SUPPORT. One lemma per field per named update of State, each true by `rfl`, so that no later proof unfolds an update. -/

namespace Sys2Proof.Machine

/-! `complete`: R200: only STATUS changes. -/

@[simp] theorem complete_frame (s : State) : (complete s).frame = s.frame := rfl
@[simp] theorem complete_payload (s : State) : (complete s).payload = s.payload := rfl
@[simp] theorem complete_raw (s : State) : (complete s).raw = s.raw := rfl
@[simp] theorem complete_deint (s : State) : (complete s).deint = s.deint := rfl
@[simp] theorem complete_cw (s : State) : (complete s).cw = s.cw := rfl
@[simp] theorem complete_corr (s : State) : (complete s).corr = s.corr := rfl
@[simp] theorem complete_status (s : State) : (complete s).status = 0x00 := rfl
@[simp] theorem complete_pass (s : State) : (complete s).pass = s.pass := rfl
@[simp] theorem complete_fixing (s : State) : (complete s).fixing = s.fixing := rfl
@[simp] theorem complete_unwrittenRead (s : State) : (complete s).unwrittenRead = s.unwrittenRead := rfl
@[simp] theorem complete_draws (s : State) : (complete s).draws = s.draws := rfl
@[simp] theorem complete_pending (s : State) : (complete s).pending = s.pending := rfl
@[simp] theorem complete_pc (s : State) : (complete s).pc = s.pc := rfl
@[simp] theorem complete_results (s : State) : (complete s).results = s.results := rfl

/-! `raiseIllegalCommand`: R200: only STATUS changes. -/

@[simp] theorem raiseIllegalCommand_frame (s : State) : (raiseIllegalCommand s).frame = s.frame := rfl
@[simp] theorem raiseIllegalCommand_payload (s : State) : (raiseIllegalCommand s).payload = s.payload := rfl
@[simp] theorem raiseIllegalCommand_raw (s : State) : (raiseIllegalCommand s).raw = s.raw := rfl
@[simp] theorem raiseIllegalCommand_deint (s : State) : (raiseIllegalCommand s).deint = s.deint := rfl
@[simp] theorem raiseIllegalCommand_cw (s : State) : (raiseIllegalCommand s).cw = s.cw := rfl
@[simp] theorem raiseIllegalCommand_corr (s : State) : (raiseIllegalCommand s).corr = s.corr := rfl
@[simp] theorem raiseIllegalCommand_status (s : State) : (raiseIllegalCommand s).status = 0x01 := rfl
@[simp] theorem raiseIllegalCommand_pass (s : State) : (raiseIllegalCommand s).pass = s.pass := rfl
@[simp] theorem raiseIllegalCommand_fixing (s : State) : (raiseIllegalCommand s).fixing = s.fixing := rfl
@[simp] theorem raiseIllegalCommand_unwrittenRead (s : State) : (raiseIllegalCommand s).unwrittenRead = s.unwrittenRead := rfl
@[simp] theorem raiseIllegalCommand_draws (s : State) : (raiseIllegalCommand s).draws = s.draws := rfl
@[simp] theorem raiseIllegalCommand_pending (s : State) : (raiseIllegalCommand s).pending = s.pending := rfl
@[simp] theorem raiseIllegalCommand_pc (s : State) : (raiseIllegalCommand s).pc = s.pc := rfl
@[simp] theorem raiseIllegalCommand_results (s : State) : (raiseIllegalCommand s).results = s.results := rfl

/-! `setCorr`: R26: only CORR changes. -/

@[simp] theorem setCorr_frame (f : Bool) (s : State) : (setCorr f s).frame = s.frame := rfl
@[simp] theorem setCorr_payload (f : Bool) (s : State) : (setCorr f s).payload = s.payload := rfl
@[simp] theorem setCorr_raw (f : Bool) (s : State) : (setCorr f s).raw = s.raw := rfl
@[simp] theorem setCorr_deint (f : Bool) (s : State) : (setCorr f s).deint = s.deint := rfl
@[simp] theorem setCorr_cw (f : Bool) (s : State) : (setCorr f s).cw = s.cw := rfl
@[simp] theorem setCorr_corr (f : Bool) (s : State) : (setCorr f s).corr = f := rfl
@[simp] theorem setCorr_status (f : Bool) (s : State) : (setCorr f s).status = s.status := rfl
@[simp] theorem setCorr_pass (f : Bool) (s : State) : (setCorr f s).pass = s.pass := rfl
@[simp] theorem setCorr_fixing (f : Bool) (s : State) : (setCorr f s).fixing = s.fixing := rfl
@[simp] theorem setCorr_unwrittenRead (f : Bool) (s : State) : (setCorr f s).unwrittenRead = s.unwrittenRead := rfl
@[simp] theorem setCorr_draws (f : Bool) (s : State) : (setCorr f s).draws = s.draws := rfl
@[simp] theorem setCorr_pending (f : Bool) (s : State) : (setCorr f s).pending = s.pending := rfl
@[simp] theorem setCorr_pc (f : Bool) (s : State) : (setCorr f s).pc = s.pc := rfl
@[simp] theorem setCorr_results (f : Bool) (s : State) : (setCorr f s).results = s.results := rfl

/-! `leaveLoop`: R30: only PASS and FIXING change. -/

@[simp] theorem leaveLoop_frame (s : State) : (leaveLoop s).frame = s.frame := rfl
@[simp] theorem leaveLoop_payload (s : State) : (leaveLoop s).payload = s.payload := rfl
@[simp] theorem leaveLoop_raw (s : State) : (leaveLoop s).raw = s.raw := rfl
@[simp] theorem leaveLoop_deint (s : State) : (leaveLoop s).deint = s.deint := rfl
@[simp] theorem leaveLoop_cw (s : State) : (leaveLoop s).cw = s.cw := rfl
@[simp] theorem leaveLoop_corr (s : State) : (leaveLoop s).corr = s.corr := rfl
@[simp] theorem leaveLoop_status (s : State) : (leaveLoop s).status = s.status := rfl
@[simp] theorem leaveLoop_pass (s : State) : (leaveLoop s).pass = Config.idlePass s.draws := rfl
@[simp] theorem leaveLoop_fixing (s : State) : (leaveLoop s).fixing = Config.idleFixing s.draws := rfl
@[simp] theorem leaveLoop_unwrittenRead (s : State) : (leaveLoop s).unwrittenRead = s.unwrittenRead := rfl
@[simp] theorem leaveLoop_draws (s : State) : (leaveLoop s).draws = s.draws + 1 := rfl
@[simp] theorem leaveLoop_pending (s : State) : (leaveLoop s).pending = s.pending := rfl
@[simp] theorem leaveLoop_pc (s : State) : (leaveLoop s).pc = s.pc := rfl
@[simp] theorem leaveLoop_results (s : State) : (leaveLoop s).results = s.results := rfl

/-! `resetBlock`: R230: the block's own state; the host's side stays. -/

@[simp] theorem resetBlock_frame (s : State) : (resetBlock s).frame = Cells.unwritten 264 := rfl
@[simp] theorem resetBlock_payload (s : State) : (resetBlock s).payload = Cells.unwritten 96 := rfl
@[simp] theorem resetBlock_raw (s : State) : (resetBlock s).raw = Cells.unwritten 196 := rfl
@[simp] theorem resetBlock_deint (s : State) : (resetBlock s).deint = Cells.unwritten 196 := rfl
@[simp] theorem resetBlock_cw (s : State) : (resetBlock s).cw = Cells.unwritten 15 := rfl
@[simp] theorem resetBlock_corr (s : State) : (resetBlock s).corr = false := rfl
@[simp] theorem resetBlock_status (s : State) : (resetBlock s).status = 0x00 := rfl
@[simp] theorem resetBlock_pass (s : State) : (resetBlock s).pass = Config.idlePass s.draws := rfl
@[simp] theorem resetBlock_fixing (s : State) : (resetBlock s).fixing = Config.idleFixing s.draws := rfl
@[simp] theorem resetBlock_unwrittenRead (s : State) : (resetBlock s).unwrittenRead = s.unwrittenRead := rfl
@[simp] theorem resetBlock_draws (s : State) : (resetBlock s).draws = s.draws + 1 := rfl
@[simp] theorem resetBlock_pending (s : State) : (resetBlock s).pending = s.pending := rfl
@[simp] theorem resetBlock_pc (s : State) : (resetBlock s).pc = s.pc := rfl
@[simp] theorem resetBlock_results (s : State) : (resetBlock s).results = s.results := rfl

/-! `advance`: R33: only the place in the sequence changes. -/

@[simp] theorem advance_frame (s : State) : (advance s).frame = s.frame := rfl
@[simp] theorem advance_payload (s : State) : (advance s).payload = s.payload := rfl
@[simp] theorem advance_raw (s : State) : (advance s).raw = s.raw := rfl
@[simp] theorem advance_deint (s : State) : (advance s).deint = s.deint := rfl
@[simp] theorem advance_cw (s : State) : (advance s).cw = s.cw := rfl
@[simp] theorem advance_corr (s : State) : (advance s).corr = s.corr := rfl
@[simp] theorem advance_status (s : State) : (advance s).status = s.status := rfl
@[simp] theorem advance_pass (s : State) : (advance s).pass = s.pass := rfl
@[simp] theorem advance_fixing (s : State) : (advance s).fixing = s.fixing := rfl
@[simp] theorem advance_unwrittenRead (s : State) : (advance s).unwrittenRead = s.unwrittenRead := rfl
@[simp] theorem advance_draws (s : State) : (advance s).draws = s.draws := rfl
@[simp] theorem advance_pending (s : State) : (advance s).pending = s.pending.tail := rfl
@[simp] theorem advance_pc (s : State) : (advance s).pc = s.pc + 1 := rfl
@[simp] theorem advance_results (s : State) : (advance s).results = s.results := rfl

/-! `placeCommand`: only the next event changes. -/

@[simp] theorem placeCommand_frame (v : Byte) (s : State) : (placeCommand v s).frame = s.frame := rfl
@[simp] theorem placeCommand_payload (v : Byte) (s : State) : (placeCommand v s).payload = s.payload := rfl
@[simp] theorem placeCommand_raw (v : Byte) (s : State) : (placeCommand v s).raw = s.raw := rfl
@[simp] theorem placeCommand_deint (v : Byte) (s : State) : (placeCommand v s).deint = s.deint := rfl
@[simp] theorem placeCommand_cw (v : Byte) (s : State) : (placeCommand v s).cw = s.cw := rfl
@[simp] theorem placeCommand_corr (v : Byte) (s : State) : (placeCommand v s).corr = s.corr := rfl
@[simp] theorem placeCommand_status (v : Byte) (s : State) : (placeCommand v s).status = s.status := rfl
@[simp] theorem placeCommand_pass (v : Byte) (s : State) : (placeCommand v s).pass = s.pass := rfl
@[simp] theorem placeCommand_fixing (v : Byte) (s : State) : (placeCommand v s).fixing = s.fixing := rfl
@[simp] theorem placeCommand_unwrittenRead (v : Byte) (s : State) : (placeCommand v s).unwrittenRead = s.unwrittenRead := rfl
@[simp] theorem placeCommand_draws (v : Byte) (s : State) : (placeCommand v s).draws = s.draws := rfl
@[simp] theorem placeCommand_pending (v : Byte) (s : State) : (placeCommand v s).pending = commandEvent v :: s.pending.tail := rfl
@[simp] theorem placeCommand_pc (v : Byte) (s : State) : (placeCommand v s).pc = s.pc := rfl
@[simp] theorem placeCommand_results (v : Byte) (s : State) : (placeCommand v s).results = s.results := rfl

end Sys2Proof.Machine
end

