-- ==== Sys2Proof/Laws/Ops.lean ====
section
/-! SUPPORT. For each shared operation, once, everything it can do: later proofs cite these and do not unfold it. -/

namespace Sys2Proof.Machine

-- In order, not side by side: many kernel evaluations waiting at once would each hold a thread, and its stack.
set_option Elab.async false

/-! `andThen`. -/

@[simp] theorem andThen_next {α β : Type} (a : α) (f : α → Result β) :
    andThen (Host.Outcome.next a : Result α) f = f a := rfl
@[simp] theorem andThen_fault {α β : Type} (r : Fault) (f : α → Result β) :
    andThen (Host.Outcome.fault r : Result α) f = .fault r := rfl
@[simp] theorem andThen_refused {α β : Type} (r : Refusal) (f : α → Result β) :
    andThen (Host.Outcome.refused r : Result α) f = .refused r := rfl

/-- If a sequence answers a next state, so did its first part. -/
theorem andThen_eq_next {α β : Type} {x : Result α} {f : α → Result β} {b : β} :
    andThen x f = .next b ↔ ∃ a, x = .next a ∧ f a = .next b := by
  cases x <;> simp

/-- Sequencing is associative. -/
theorem andThen_assoc {α β γ : Type} (x : Result α) (f : α → Result β) (g : β → Result γ) :
    andThen (andThen x f) g = andThen x fun a => andThen (f a) g := by
  cases x <;> rfl

/-! `readCells` (R34). -/

/-- A read of readable cells answers their value and counts the draw, if there was one. -/
theorem readCells_of_readable {n : Nat} (f : CellFile) (c : Cells n) (m : BitVec n) (s : State) (h : Readable c m s) :
    readCells f c m s = .next (operand c m s, { s with draws := drawsAfter c m s }) := by
  unfold readCells operand drawsAfter
  cases hc : c.covers m
  · rcases h with h | h
    · rw [h] at hc; cases hc
    · simp [h]
  · simp only [readValue_of_covers c m _ hc, if_true]

/-- A read of cells that are not readable faults (R206). -/
theorem readCells_of_not_readable {n : Nat} (f : CellFile) (c : Cells n) (m : BitVec n) (s : State)
    (h : ¬ Readable c m s) : readCells f c m s = .fault (.unwrittenRead f) := by
  unfold Readable at h
  unfold readCells
  cases hc : c.covers m
  · cases hp : s.unwrittenRead
    · rfl
    · simp [hp] at h
  · simp [hc] at h

/-- Everything a read can answer: the operand with the draw counted, when the cells are readable. -/
theorem readCells_eq_next {n : Nat} {f : CellFile} {c : Cells n} {m : BitVec n} {s : State} {x : BitVec n × State} :
    readCells f c m s = .next x ↔ Readable c m s ∧ x = (operand c m s, { s with draws := drawsAfter c m s }) := by
  by_cases h : Readable c m s
  · rw [readCells_of_readable f c m s h]; simp [h, eq_comm]
  · rw [readCells_of_not_readable f c m s h]; simp [h]

/-- A file written whole is always readable. -/
theorem readable_full {n : Nat} (v m : BitVec n) (s : State) : Readable (Cells.full v) m s := Or.inl (by simp)

@[simp] theorem operand_full {n : Nat} (v : BitVec n) (s : State) :
    operand (Cells.full v) (BitVec.allOnes n) s = v := by simp [operand]

@[simp] theorem drawsAfter_full {n : Nat} (v m : BitVec n) (s : State) :
    drawsAfter (Cells.full v) m s = s.draws := by simp [drawsAfter]

/-- A read of covered cells gives their values and draws nothing. -/
theorem operand_of_covers {n : Nat} (c : Cells n) (m : BitVec n) (s : State) (h : c.covers m = true) :
    operand c m s = c.val &&& m ∧ drawsAfter c m s = s.draws := by
  simp [operand, drawsAfter, readValue_of_covers c m _ h, h]

/-! `locate` (R51). -/

/-- What each location's offset is. -/
theorem locate_cases (a : HostAddr) :
    (∃ n, locate a = .frame n ∧ n ≤ 32 ∧ a.toNat = n) ∨
    (∃ n, locate a = .payload n ∧ n ≤ 11 ∧ a.toNat = 0x040 + n) ∨
    (∃ i, locate a = .raw i ∧ i ≤ 195 ∧ a.toNat = 0x100 + i) ∨
    (∃ i, locate a = .deint i ∧ i ≤ 195 ∧ a.toNat = 0x200 + i) ∨
    (∃ i, locate a = .cw i ∧ i ≤ 14 ∧ a.toNat = 0x300 + i) ∨
    (locate a = .corr ∧ a.toNat = 0x310) ∨ (locate a = .cmd ∧ a.toNat = 0x3F0) ∨
    (locate a = .status ∧ a.toNat = 0x3F1) ∨ locate a = .reserved := by
  unfold locate
  simp only []
  split
  · left; exact ⟨_, rfl, by omega, rfl⟩
  split
  · rename_i h; simp at h; right; left; exact ⟨_, rfl, by omega, by omega⟩
  split
  · rename_i h; simp at h; right; right; left; exact ⟨_, rfl, by omega, by omega⟩
  split
  · rename_i h; simp at h; right; right; right; left; exact ⟨_, rfl, by omega, by omega⟩
  split
  · rename_i h; simp at h; right; right; right; right; left; exact ⟨_, rfl, by omega, by omega⟩
  split
  · rename_i h; simp at h; simp [h]
  split
  · rename_i h; simp at h; simp [h]
  split
  · rename_i h; simp at h; simp [h]
  · simp

/-! One byte of a buffer, and one cell of a file (R52, R53, R58). -/

/-- A byte holds every bit exactly when its value is 0xFF. -/
theorem byte_eq_ff (b : Byte) : b = 0xFF ↔ ∀ k, k < 8 → b.getLsbD k = true := by
  revert b; decide +kernel

/-- Byte `k` can be read without a draw exactly when its eight bits are written (R53). -/
theorem covers_byteMask {n : Nat} {c : Cells n} {k : Nat} (hk : 8 * k + 8 ≤ n) :
    c.covers (byteMask n k) = true ↔ byteAt c.written k = 0xFF := by
  rw [covers_iff, byte_eq_ff]
  constructor
  · intro h i hi
    rw [getLsbD_byteAt, decide_eq_true hi, Bool.true_and]
    apply h
    rw [getLsbD_byteMask, decide_eq_true (by omega), decide_eq_true (by omega)]
    rfl
  · intro h i hi
    rw [getLsbD_byteMask, Bool.and_eq_true, decide_eq_true_eq, decide_eq_true_eq] at hi
    have := h (i % 8) (by omega)
    rw [getLsbD_byteAt, Bool.and_eq_true, show 8 * k + i % 8 = i by omega] at this
    exact this.2

/-- Cell `i` can be read without a draw exactly when it is written. -/
theorem covers_cellMask {n : Nat} {c : Cells n} {i : Nat} (hi : i < n) :
    c.covers (cellMask n i) = true ↔ c.written.getLsbD i = true := by
  rw [covers_iff]
  constructor
  · intro h
    exact h i (by rw [getLsbD_cellMask, decide_eq_true hi, decide_eq_true rfl]; rfl)
  · intro h j hj
    rw [getLsbD_cellMask, Bool.and_eq_true, decide_eq_true_eq, decide_eq_true_eq] at hj
    rw [hj.2]
    exact h

/-! `storeAt` and `loadAt` (R52, R53). -/

/-- A store keeps the memory's canonical form. -/
theorem storeAt_memory_wf (l : Location) (v : Byte) (s : State) (h : Memory.wf s = true) :
    Memory.wf (storeAt l v s) = true := by
  simp only [Memory.wf, Bool.and_eq_true] at h ⊢
  obtain ⟨⟨⟨⟨h1, h2⟩, h3⟩, h4⟩, h5⟩ := h
  cases l <;> simp [storeAt, h1, h2, h3, h4, h5, put_wf]

/-- Reset leaves the memory in its canonical form. -/
theorem reset_memory_wf : Memory.wf State.reset = true := by
  simp [Memory.wf, State.reset, unwritten_wf]

/-- The reset event leaves the memory in its canonical form. -/
theorem resetBlock_memory_wf (s : State) : Memory.wf (resetBlock s) = true := by
  simp [Memory.wf, unwritten_wf]

/-- A load changes nothing but the count of draws (R59). -/
theorem loadAt_frame {l : Location} {s : State} {x : Byte × State} (h : loadAt l s = .next x) :
    x.2 = { s with draws := x.2.draws } := by
  cases l <;> simp only [loadAt, readByteAt, readCellAt, andThen_eq_next, Prod.exists] at h
  all_goals first
    | (obtain ⟨a, t, hr, hx⟩ := h
       obtain ⟨-, hr⟩ := readCells_eq_next.1 hr
       simp only [Prod.mk.injEq] at hr
       simp only [Host.Outcome.next.injEq] at hx
       rw [← hx, hr.2])
    | (simp only [Host.Outcome.next.injEq] at h; rw [← h])

end Sys2Proof.Machine
end

