-- ==== Sys2Proof/Laws/Commands.lean ====
section
/-! SUPPORT. For each step on the state that reads cells, once, everything it can answer: the next state when its operands are
readable, a fault that names the file when they are not. -/

namespace Sys2Proof.Machine

/-- Reading and going on, when the cells are readable. -/
theorem andThen_readCells {n : Nat} {β : Type} {f : CellFile} {c : Cells n} {m : BitVec n} {s : State}
    (g : BitVec n × State → Result β) (h : Readable c m s) :
    andThen (readCells f c m s) g = g (operand c m s, { s with draws := drawsAfter c m s }) := by
  rw [readCells_of_readable f c m s h]; rfl

/-- Reading and going on, when they are not. -/
theorem andThen_readCells_fault {n : Nat} {β : Type} {f : CellFile} {c : Cells n} {m : BitVec n} {s : State}
    (g : BitVec n × State → Result β) (h : ¬ Readable c m s) :
    andThen (readCells f c m s) g = .fault (.unwrittenRead f) := by
  rw [readCells_of_not_readable f c m s h]; rfl

/-- `unpackFrame` (step 1 of R179) with its operands readable. -/
theorem unpackFrame_of_readable {s : State} (h : Readable s.frame framePlaneMask s) :
    unpackFrame s = .next (
        { s with
          raw := Cells.full (frameToRaw (operand s.frame framePlaneMask s))
          draws := drawsAfter s.frame framePlaneMask s }) := by
  rw [unpackFrame, andThen_readCells _ h]

/-- `unpackFrame` answers a next state exactly then. -/
theorem unpackFrame_eq_next {s t : State} :
    unpackFrame s = .next t ↔ Readable s.frame framePlaneMask s ∧ t = (
        { s with
          raw := Cells.full (frameToRaw (operand s.frame framePlaneMask s))
          draws := drawsAfter s.frame framePlaneMask s }) := by
  by_cases h : Readable s.frame framePlaneMask s
  · rw [unpackFrame_of_readable h]
    exact ⟨fun e => ⟨h, (Host.Outcome.next.inj e).symm⟩, fun e => by rw [e.2]⟩
  · simp only [unpackFrame, andThen_readCells_fault _ h, h, false_and, reduceCtorEq]

/-- `unpackFrame` faults otherwise (R206). -/
theorem unpackFrame_fault {s : State} (h : ¬ Readable s.frame framePlaneMask s) :
    unpackFrame s = .fault (.unwrittenRead .frame) := by
  rw [unpackFrame, andThen_readCells_fault _ h]

/-- `deinterleaveRaw` (step 2 of R179) with its operands readable. -/
theorem deinterleaveRaw_of_readable {s : State} (h : Readable s.raw (BitVec.allOnes 196) s) :
    deinterleaveRaw s = .next (
        { s with
          deint := Cells.full (deinterleave (operand s.raw (BitVec.allOnes 196) s))
          draws := drawsAfter s.raw (BitVec.allOnes 196) s }) := by
  rw [deinterleaveRaw, andThen_readCells _ h]

/-- `deinterleaveRaw` answers a next state exactly then. -/
theorem deinterleaveRaw_eq_next {s t : State} :
    deinterleaveRaw s = .next t ↔ Readable s.raw (BitVec.allOnes 196) s ∧ t = (
        { s with
          deint := Cells.full (deinterleave (operand s.raw (BitVec.allOnes 196) s))
          draws := drawsAfter s.raw (BitVec.allOnes 196) s }) := by
  by_cases h : Readable s.raw (BitVec.allOnes 196) s
  · rw [deinterleaveRaw_of_readable h]
    exact ⟨fun e => ⟨h, (Host.Outcome.next.inj e).symm⟩, fun e => by rw [e.2]⟩
  · simp only [deinterleaveRaw, andThen_readCells_fault _ h, h, false_and, reduceCtorEq]

/-- `deinterleaveRaw` faults otherwise (R206). -/
theorem deinterleaveRaw_fault {s : State} (h : ¬ Readable s.raw (BitVec.allOnes 196) s) :
    deinterleaveRaw s = .fault (.unwrittenRead .raw) := by
  rw [deinterleaveRaw, andThen_readCells_fault _ h]

/-- `interleaveDeint` (R180) with its operands readable. -/
theorem interleaveDeint_of_readable {s : State} (h : Readable s.deint (BitVec.allOnes 196) s) :
    interleaveDeint s = .next (
        { s with
          raw := Cells.full (interleave (operand s.deint (BitVec.allOnes 196) s))
          draws := drawsAfter s.deint (BitVec.allOnes 196) s }) := by
  rw [interleaveDeint, andThen_readCells _ h]

/-- `interleaveDeint` answers a next state exactly then. -/
theorem interleaveDeint_eq_next {s t : State} :
    interleaveDeint s = .next t ↔ Readable s.deint (BitVec.allOnes 196) s ∧ t = (
        { s with
          raw := Cells.full (interleave (operand s.deint (BitVec.allOnes 196) s))
          draws := drawsAfter s.deint (BitVec.allOnes 196) s }) := by
  by_cases h : Readable s.deint (BitVec.allOnes 196) s
  · rw [interleaveDeint_of_readable h]
    exact ⟨fun e => ⟨h, (Host.Outcome.next.inj e).symm⟩, fun e => by rw [e.2]⟩
  · simp only [interleaveDeint, andThen_readCells_fault _ h, h, false_and, reduceCtorEq]

/-- `interleaveDeint` faults otherwise (R206). -/
theorem interleaveDeint_fault {s : State} (h : ¬ Readable s.deint (BitVec.allOnes 196) s) :
    interleaveDeint s = .fault (.unwrittenRead .deint) := by
  rw [interleaveDeint, andThen_readCells_fault _ h]

/-- `packFrame` (R113) with its operands readable. -/
theorem packFrame_of_readable {s : State} (h : Readable s.raw (BitVec.allOnes 196) s) :
    packFrame s = .next (
        { s with
          frame := s.frame.put framePlaneMask (rawToFrame (operand s.raw (BitVec.allOnes 196) s) s.frame.val)
          draws := drawsAfter s.raw (BitVec.allOnes 196) s }) := by
  rw [packFrame, andThen_readCells _ h]

/-- `packFrame` answers a next state exactly then. -/
theorem packFrame_eq_next {s t : State} :
    packFrame s = .next t ↔ Readable s.raw (BitVec.allOnes 196) s ∧ t = (
        { s with
          frame := s.frame.put framePlaneMask (rawToFrame (operand s.raw (BitVec.allOnes 196) s) s.frame.val)
          draws := drawsAfter s.raw (BitVec.allOnes 196) s }) := by
  by_cases h : Readable s.raw (BitVec.allOnes 196) s
  · rw [packFrame_of_readable h]
    exact ⟨fun e => ⟨h, (Host.Outcome.next.inj e).symm⟩, fun e => by rw [e.2]⟩
  · simp only [packFrame, andThen_readCells_fault _ h, h, false_and, reduceCtorEq]

/-- `packFrame` faults otherwise (R206). -/
theorem packFrame_fault {s : State} (h : ¬ Readable s.raw (BitVec.allOnes 196) s) :
    packFrame s = .fault (.unwrittenRead .raw) := by
  rw [packFrame, andThen_readCells_fault _ h]

/-- `correctDeint` (R175) with its operands readable. -/
theorem correctDeint_of_readable {s : State} (h : Readable s.deint matrixMask s) :
    correctDeint s = .next (
        leaveLoop { s with
                    deint := s.deint.put matrixMask (correct (operand s.deint matrixMask s)).1
                    draws := drawsAfter s.deint matrixMask s }) := by
  rw [correctDeint, andThen_readCells _ h]

/-- `correctDeint` answers a next state exactly then. -/
theorem correctDeint_eq_next {s t : State} :
    correctDeint s = .next t ↔ Readable s.deint matrixMask s ∧ t = (
        leaveLoop { s with
                    deint := s.deint.put matrixMask (correct (operand s.deint matrixMask s)).1
                    draws := drawsAfter s.deint matrixMask s }) := by
  by_cases h : Readable s.deint matrixMask s
  · rw [correctDeint_of_readable h]
    exact ⟨fun e => ⟨h, (Host.Outcome.next.inj e).symm⟩, fun e => by rw [e.2]⟩
  · simp only [correctDeint, andThen_readCells_fault _ h, h, false_and, reduceCtorEq]

/-- `correctDeint` faults otherwise (R206). -/
theorem correctDeint_fault {s : State} (h : ¬ Readable s.deint matrixMask s) :
    correctDeint s = .fault (.unwrittenRead .deint) := by
  rw [correctDeint, andThen_readCells_fault _ h]

/-- `extractPayload` (R176) with its operands readable. -/
theorem extractPayload_of_readable {s : State} (h : Readable s.deint payloadMask s) :
    extractPayload s = .next (
        { s with
          payload := Cells.full (extractData (operand s.deint payloadMask s))
          draws := drawsAfter s.deint payloadMask s }) := by
  rw [extractPayload, andThen_readCells _ h]

/-- `extractPayload` answers a next state exactly then. -/
theorem extractPayload_eq_next {s t : State} :
    extractPayload s = .next t ↔ Readable s.deint payloadMask s ∧ t = (
        { s with
          payload := Cells.full (extractData (operand s.deint payloadMask s))
          draws := drawsAfter s.deint payloadMask s }) := by
  by_cases h : Readable s.deint payloadMask s
  · rw [extractPayload_of_readable h]
    exact ⟨fun e => ⟨h, (Host.Outcome.next.inj e).symm⟩, fun e => by rw [e.2]⟩
  · simp only [extractPayload, andThen_readCells_fault _ h, h, false_and, reduceCtorEq]

/-- `extractPayload` faults otherwise (R206). -/
theorem extractPayload_fault {s : State} (h : ¬ Readable s.deint payloadMask s) :
    extractPayload s = .fault (.unwrittenRead .deint) := by
  rw [extractPayload, andThen_readCells_fault _ h]

/-- `placePayload` (R177) with its operands readable. -/
theorem placePayload_of_readable {s : State} (h : Readable s.payload (BitVec.allOnes 96) s) :
    placePayload s = .next (
        { s with
          deint := Cells.full (placeData (operand s.payload (BitVec.allOnes 96) s))
          draws := drawsAfter s.payload (BitVec.allOnes 96) s }) := by
  rw [placePayload, andThen_readCells _ h]

/-- `placePayload` answers a next state exactly then. -/
theorem placePayload_eq_next {s t : State} :
    placePayload s = .next t ↔ Readable s.payload (BitVec.allOnes 96) s ∧ t = (
        { s with
          deint := Cells.full (placeData (operand s.payload (BitVec.allOnes 96) s))
          draws := drawsAfter s.payload (BitVec.allOnes 96) s }) := by
  by_cases h : Readable s.payload (BitVec.allOnes 96) s
  · rw [placePayload_of_readable h]
    exact ⟨fun e => ⟨h, (Host.Outcome.next.inj e).symm⟩, fun e => by rw [e.2]⟩
  · simp only [placePayload, andThen_readCells_fault _ h, h, false_and, reduceCtorEq]

/-- `placePayload` faults otherwise (R206). -/
theorem placePayload_fault {s : State} (h : ¬ Readable s.payload (BitVec.allOnes 96) s) :
    placePayload s = .fault (.unwrittenRead .payload) := by
  rw [placePayload, andThen_readCells_fault _ h]

/-- `parityDeint` (R178) with its operands readable. -/
theorem parityDeint_of_readable {s : State} (h : Readable s.deint rowDataMask s) :
    parityDeint s = .next (
        { s with
          deint := s.deint.put parityMask (encodeParity (operand s.deint rowDataMask s))
          draws := drawsAfter s.deint rowDataMask s }) := by
  rw [parityDeint, andThen_readCells _ h]

/-- `parityDeint` answers a next state exactly then. -/
theorem parityDeint_eq_next {s t : State} :
    parityDeint s = .next t ↔ Readable s.deint rowDataMask s ∧ t = (
        { s with
          deint := s.deint.put parityMask (encodeParity (operand s.deint rowDataMask s))
          draws := drawsAfter s.deint rowDataMask s }) := by
  by_cases h : Readable s.deint rowDataMask s
  · rw [parityDeint_of_readable h]
    exact ⟨fun e => ⟨h, (Host.Outcome.next.inj e).symm⟩, fun e => by rw [e.2]⟩
  · simp only [parityDeint, andThen_readCells_fault _ h, h, false_and, reduceCtorEq]

/-- `parityDeint` faults otherwise (R206). -/
theorem parityDeint_fault {s : State} (h : ¬ Readable s.deint rowDataMask s) :
    parityDeint s = .fault (.unwrittenRead .deint) := by
  rw [parityDeint, andThen_readCells_fault _ h]

/-- `execHam1393Dec` (R145) with its operands readable. -/
theorem execHam1393Dec_of_readable {s : State} (h : Readable s.cw cw13Mask s) :
    execHam1393Dec s = .next (
        { s with
          cw := s.cw.put cw13Mask ((h1393Dec ((operand s.cw cw13Mask s).setWidth 13)).1.setWidth 15)
          corr := (h1393Dec ((operand s.cw cw13Mask s).setWidth 13)).2
          status := 0x00
          draws := drawsAfter s.cw cw13Mask s }) := by
  rw [execHam1393Dec, andThen_readCells _ h]; rfl

/-- `execHam1393Dec` answers a next state exactly then. -/
theorem execHam1393Dec_eq_next {s t : State} :
    execHam1393Dec s = .next t ↔ Readable s.cw cw13Mask s ∧ t = (
        { s with
          cw := s.cw.put cw13Mask ((h1393Dec ((operand s.cw cw13Mask s).setWidth 13)).1.setWidth 15)
          corr := (h1393Dec ((operand s.cw cw13Mask s).setWidth 13)).2
          status := 0x00
          draws := drawsAfter s.cw cw13Mask s }) := by
  by_cases h : Readable s.cw cw13Mask s
  · rw [execHam1393Dec_of_readable h]
    exact ⟨fun e => ⟨h, (Host.Outcome.next.inj e).symm⟩, fun e => by rw [e.2]⟩
  · simp only [execHam1393Dec, andThen_readCells_fault _ h, h, false_and, reduceCtorEq]

/-- `execHam1393Dec` faults otherwise (R206). -/
theorem execHam1393Dec_fault {s : State} (h : ¬ Readable s.cw cw13Mask s) :
    execHam1393Dec s = .fault (.unwrittenRead .cw) := by
  rw [execHam1393Dec, andThen_readCells_fault _ h]

/-- `execHam1393Enc` (R146) with its operands readable. -/
theorem execHam1393Enc_of_readable {s : State} (h : Readable s.cw cw9Mask s) :
    execHam1393Enc s = .next (
        { s with
          cw := s.cw.put cw13ParityMask ((h1393Enc ((operand s.cw cw9Mask s).setWidth 13)).setWidth 15)
          status := 0x00
          draws := drawsAfter s.cw cw9Mask s }) := by
  rw [execHam1393Enc, andThen_readCells _ h]; rfl

/-- `execHam1393Enc` answers a next state exactly then. -/
theorem execHam1393Enc_eq_next {s t : State} :
    execHam1393Enc s = .next t ↔ Readable s.cw cw9Mask s ∧ t = (
        { s with
          cw := s.cw.put cw13ParityMask ((h1393Enc ((operand s.cw cw9Mask s).setWidth 13)).setWidth 15)
          status := 0x00
          draws := drawsAfter s.cw cw9Mask s }) := by
  by_cases h : Readable s.cw cw9Mask s
  · rw [execHam1393Enc_of_readable h]
    exact ⟨fun e => ⟨h, (Host.Outcome.next.inj e).symm⟩, fun e => by rw [e.2]⟩
  · simp only [execHam1393Enc, andThen_readCells_fault _ h, h, false_and, reduceCtorEq]

/-- `execHam1393Enc` faults otherwise (R206). -/
theorem execHam1393Enc_fault {s : State} (h : ¬ Readable s.cw cw9Mask s) :
    execHam1393Enc s = .fault (.unwrittenRead .cw) := by
  rw [execHam1393Enc, andThen_readCells_fault _ h]

/-- `execHam15113Dec` (R147) with its operands readable. -/
theorem execHam15113Dec_of_readable {s : State} (h : Readable s.cw cw15Mask s) :
    execHam15113Dec s = .next (
        { s with
          cw := s.cw.put cw15Mask (h15113Dec (operand s.cw cw15Mask s)).1
          corr := (h15113Dec (operand s.cw cw15Mask s)).2
          status := 0x00
          draws := drawsAfter s.cw cw15Mask s }) := by
  rw [execHam15113Dec, andThen_readCells _ h]; rfl

/-- `execHam15113Dec` answers a next state exactly then. -/
theorem execHam15113Dec_eq_next {s t : State} :
    execHam15113Dec s = .next t ↔ Readable s.cw cw15Mask s ∧ t = (
        { s with
          cw := s.cw.put cw15Mask (h15113Dec (operand s.cw cw15Mask s)).1
          corr := (h15113Dec (operand s.cw cw15Mask s)).2
          status := 0x00
          draws := drawsAfter s.cw cw15Mask s }) := by
  by_cases h : Readable s.cw cw15Mask s
  · rw [execHam15113Dec_of_readable h]
    exact ⟨fun e => ⟨h, (Host.Outcome.next.inj e).symm⟩, fun e => by rw [e.2]⟩
  · simp only [execHam15113Dec, andThen_readCells_fault _ h, h, false_and, reduceCtorEq]

/-- `execHam15113Dec` faults otherwise (R206). -/
theorem execHam15113Dec_fault {s : State} (h : ¬ Readable s.cw cw15Mask s) :
    execHam15113Dec s = .fault (.unwrittenRead .cw) := by
  rw [execHam15113Dec, andThen_readCells_fault _ h]

/-- `execHam15113Enc` (R148) with its operands readable. -/
theorem execHam15113Enc_of_readable {s : State} (h : Readable s.cw cw11Mask s) :
    execHam15113Enc s = .next (
        { s with
          cw := s.cw.put cw15ParityMask (h15113Enc (operand s.cw cw11Mask s))
          status := 0x00
          draws := drawsAfter s.cw cw11Mask s }) := by
  rw [execHam15113Enc, andThen_readCells _ h]; rfl

/-- `execHam15113Enc` answers a next state exactly then. -/
theorem execHam15113Enc_eq_next {s t : State} :
    execHam15113Enc s = .next t ↔ Readable s.cw cw11Mask s ∧ t = (
        { s with
          cw := s.cw.put cw15ParityMask (h15113Enc (operand s.cw cw11Mask s))
          status := 0x00
          draws := drawsAfter s.cw cw11Mask s }) := by
  by_cases h : Readable s.cw cw11Mask s
  · rw [execHam15113Enc_of_readable h]
    exact ⟨fun e => ⟨h, (Host.Outcome.next.inj e).symm⟩, fun e => by rw [e.2]⟩
  · simp only [execHam15113Enc, andThen_readCells_fault _ h, h, false_and, reduceCtorEq]

/-- `execHam15113Enc` faults otherwise (R206). -/
theorem execHam15113Enc_fault {s : State} (h : ¬ Readable s.cw cw11Mask s) :
    execHam15113Enc s = .fault (.unwrittenRead .cw) := by
  rw [execHam15113Enc, andThen_readCells_fault _ h]

end Sys2Proof.Machine
end

