-- ==== Sys2Proof/Laws/Exec.lean ====
section
/-! SUPPORT. The case analysis over all commands, packaged once: a relation between states that every step on the state has,
and that composes, holds of every command. -/

namespace Sys2Proof.Machine

/-- What each step on the state satisfies; the hypotheses of `exec_induction`. -/
structure StepRelation (R : State → State → Prop) : Prop where
  trans : ∀ {s t u}, R s t → R t u → R s u
  complete : ∀ s, R s (complete s)
  unpackFrame : ∀ {s t}, unpackFrame s = .next t → R s t
  deinterleaveRaw : ∀ {s t}, deinterleaveRaw s = .next t → R s t
  interleaveDeint : ∀ {s t}, interleaveDeint s = .next t → R s t
  packFrame : ∀ {s t}, packFrame s = .next t → R s t
  correctDeint : ∀ {s t}, correctDeint s = .next t → R s t
  extractPayload : ∀ {s t}, extractPayload s = .next t → R s t
  placePayload : ∀ {s t}, placePayload s = .next t → R s t
  parityDeint : ∀ {s t}, parityDeint s = .next t → R s t
  ham1393Dec : ∀ {s t}, execHam1393Dec s = .next t → R s t
  ham1393Enc : ∀ {s t}, execHam1393Enc s = .next t → R s t
  ham15113Dec : ∀ {s t}, execHam15113Dec s = .next t → R s t
  ham15113Enc : ∀ {s t}, execHam15113Enc s = .next t → R s t

/-- One step on the state and then the end of the command. -/
theorem andThen_complete {op : State → Result State} {s t : State}
    (h : andThen (op s) (fun u => .next (complete u)) = .next t) : ∃ u, op s = .next u ∧ t = complete u := by
  obtain ⟨u, hu, ht⟩ := andThen_eq_next.1 h
  exact ⟨u, hu, (Host.Outcome.next.inj ht).symm⟩

/-- Such a relation holds between the states before and after any command. -/
theorem exec_induction {R : State → State → Prop} (hR : StepRelation R) {i : Instr} {s t : State}
    (h : exec i s = .next t) : R s t := by
  have one : ∀ {op : State → Result State}, (∀ {s t}, op s = .next t → R s t) →
      andThen (op s) (fun u => .next (complete u)) = .next t → R s t := by
    intro op hop h
    obtain ⟨u, hu, rfl⟩ := andThen_complete h
    exact hR.trans (hop hu) (hR.complete u)
  cases i
  case nop => rw [← Host.Outcome.next.inj h]; exact hR.complete s
  case bptcDec =>
    obtain ⟨s1, h1, h⟩ := andThen_eq_next.1 (show execBptcDec s = _ from h)
    obtain ⟨s2, h2, h⟩ := andThen_eq_next.1 h
    obtain ⟨s3, h3, h⟩ := andThen_eq_next.1 h
    obtain ⟨s4, h4, rfl⟩ := andThen_complete h
    exact hR.trans (hR.unpackFrame h1) (hR.trans (hR.deinterleaveRaw h2)
      (hR.trans (hR.correctDeint h3) (hR.trans (hR.extractPayload h4) (hR.complete s4))))
  case bptcEnc =>
    obtain ⟨s1, h1, h⟩ := andThen_eq_next.1 (show execBptcEnc s = _ from h)
    obtain ⟨s2, h2, h⟩ := andThen_eq_next.1 h
    obtain ⟨s3, h3, h⟩ := andThen_eq_next.1 h
    obtain ⟨s4, h4, rfl⟩ := andThen_complete h
    exact hR.trans (hR.placePayload h1) (hR.trans (hR.parityDeint h2)
      (hR.trans (hR.interleaveDeint h3) (hR.trans (hR.packFrame h4) (hR.complete s4))))
  case bptcUnpack => exact one hR.unpackFrame h
  case bptcDeinterleave => exact one hR.deinterleaveRaw h
  case bptcCorrect => exact one hR.correctDeint h
  case bptcExtract => exact one hR.extractPayload h
  case bptcPlace => exact one hR.placePayload h
  case bptcParity => exact one hR.parityDeint h
  case bptcInterleave => exact one hR.interleaveDeint h
  case bptcPack => exact one hR.packFrame h
  case ham1393Dec => exact hR.ham1393Dec h
  case ham1393Enc => exact hR.ham1393Enc h
  case ham15113Dec => exact hR.ham15113Dec h
  case ham15113Enc => exact hR.ham15113Enc h

/-- The host's side (its sequence, its place, its results) and the parameter are no command's to change (R33). -/
theorem exec_host_side {i : Instr} {s t : State} (h : exec i s = .next t) :
    t.pending = s.pending ∧ t.pc = s.pc ∧ t.results = s.results ∧ t.unwrittenRead = s.unwrittenRead := by
  refine exec_induction (R := fun s t => t.pending = s.pending ∧ t.pc = s.pc ∧ t.results = s.results ∧
    t.unwrittenRead = s.unwrittenRead) ?_ h
  constructor
  case trans => rintro s t u ⟨a, b, c, d⟩ ⟨a', b', c', d'⟩; exact ⟨a'.trans a, b'.trans b, c'.trans c, d'.trans d⟩
  case complete => simp
  all_goals intro s t h
  case unpackFrame => obtain ⟨-, rfl⟩ := unpackFrame_eq_next.1 h; simp
  case deinterleaveRaw => obtain ⟨-, rfl⟩ := deinterleaveRaw_eq_next.1 h; simp
  case interleaveDeint => obtain ⟨-, rfl⟩ := interleaveDeint_eq_next.1 h; simp
  case packFrame => obtain ⟨-, rfl⟩ := packFrame_eq_next.1 h; simp
  case correctDeint => obtain ⟨-, rfl⟩ := correctDeint_eq_next.1 h; simp
  case extractPayload => obtain ⟨-, rfl⟩ := extractPayload_eq_next.1 h; simp
  case placePayload => obtain ⟨-, rfl⟩ := placePayload_eq_next.1 h; simp
  case parityDeint => obtain ⟨-, rfl⟩ := parityDeint_eq_next.1 h; simp
  case ham1393Dec => obtain ⟨-, rfl⟩ := execHam1393Dec_eq_next.1 h; simp
  case ham1393Enc => obtain ⟨-, rfl⟩ := execHam1393Enc_eq_next.1 h; simp
  case ham15113Dec => obtain ⟨-, rfl⟩ := execHam15113Dec_eq_next.1 h; simp
  case ham15113Enc => obtain ⟨-, rfl⟩ := execHam15113Enc_eq_next.1 h; simp

end Sys2Proof.Machine
end

