-- ==== Sys2Proof/Laws/Bptc.lean ====
section
/-! SUPPORT. The loops of BPTC(196,96), bit by bit: what a run of row or column updates leaves at each position, and what the
two whole commands BPTC.DEC and BPTC.ENC answer (spec/42_bptc.md). -/

namespace Sys2Proof.Machine

/-! Rows and columns put back (R161, R162). -/

/-- Putting a row back as it was read changes nothing. -/
theorem putRow_getRow (d : Plane) {r : Nat} (hr : r < 13) : putRow d r (getRow d r) = d := by
  apply BitVec.eq_of_getLsbD_eq
  intro i hi
  by_cases h : 15 * r + 1 ≤ i ∧ i < 15 * r + 16
  · obtain ⟨k, rfl⟩ : ∃ k, i = 15 * r + 1 + k := ⟨i - (15 * r + 1), by omega⟩
    have hk : k < 15 := by omega
    rw [getLsbD_putRow_in d _ hr hk, getLsbD_getRow]
    simp only [hk, decide_true, Bool.true_and]
  · exact getLsbD_putRow_out d _ (by omega)

/-- Putting a column back as it was read changes nothing. -/
theorem putCol_getCol (d : Plane) {c : Nat} (hc : c < 15) : putCol d c (getCol d c) = d := by
  apply BitVec.eq_of_getLsbD_eq
  intro i hi
  by_cases h : ∃ a, a < 13 ∧ i = c + 1 + 15 * a
  · obtain ⟨a, ha, rfl⟩ := h
    rw [getLsbD_putCol_in d _ hc ha, getLsbD_getCol]
    simp only [ha, decide_true, Bool.true_and]
  · exact getLsbD_putCol_out d _ fun a ha e => h ⟨a, ha, e⟩

/-- Position `i` after `PutRow`, by row arithmetic. -/
theorem getLsbD_putRow (d : Plane) (w : Word15) {r : Nat} (hr : r < 13) (i : Nat) :
    (putRow d r w).getLsbD i = if 1 ≤ i ∧ (i - 1) / 15 = r then w.getLsbD ((i - 1) % 15) else d.getLsbD i := by
  split
  · rename_i h
    obtain ⟨k, rfl⟩ : ∃ k, i = 15 * r + 1 + k := ⟨i - (15 * r + 1), by omega⟩
    have hk : k < 15 := by omega
    rw [getLsbD_putRow_in d w hr hk, show (15 * r + 1 + k - 1) % 15 = k by omega]
  · exact getLsbD_putRow_out d w (by omega)

/-- Position `i` after `PutCol`, by column arithmetic. -/
theorem getLsbD_putCol (d : Plane) (w : Word13) {c : Nat} (hc : c < 15) (i : Nat) :
    (putCol d c w).getLsbD i =
      if 1 ≤ i ∧ i < 196 ∧ (i - 1) % 15 = c then w.getLsbD ((i - 1) / 15) else d.getLsbD i := by
  split
  · rename_i h
    obtain ⟨a, rfl⟩ : ∃ a, i = c + 1 + 15 * a := ⟨(i - 1) / 15, by omega⟩
    have ha : a < 13 := by omega
    rw [getLsbD_putCol_in d w hc ha, show (c + 1 + 15 * a - 1) / 15 = a by omega]
  · exact getLsbD_putCol_out d w (by omega)

/-- A row is not touched by `PutRow` at another row. -/
theorem getRow_putRow_ne (d : Plane) (w : Word15) {r r' : Nat} (hr : r < 13) (h : r' ≠ r) :
    getRow (putRow d r w) r' = getRow d r' := by
  apply ofBits_congr
  intro k hk
  rw [getLsbD_putRow d w hr, if_neg (by omega)]

/-- A column is not touched by `PutCol` at another column. -/
theorem getCol_putCol_ne (d : Plane) (w : Word13) {c c' : Nat} (hc : c < 15) (hc' : c' < 15) (h : c' ≠ c) :
    getCol (putCol d c w) c' = getCol d c' := by
  apply ofBits_congr
  intro a ha
  rw [getLsbD_putCol d w hc, if_neg (by omega)]

/-! A run of updates over distinct rows or columns. -/

/-- Each position after the rows of `l` were replaced by `g` of themselves, in any order. -/
theorem getLsbD_foldl_putRow (g : Word15 → Word15) (l : List Nat) (hl : l.Nodup) (hr : ∀ r ∈ l, r < 13) (d : Plane) (i : Nat) :
    (l.foldl (fun d r => putRow d r (g (getRow d r))) d).getLsbD i =
      if 1 ≤ i ∧ (i - 1) / 15 ∈ l then (g (getRow d ((i - 1) / 15))).getLsbD ((i - 1) % 15) else d.getLsbD i := by
  induction l generalizing d with
  | nil => simp
  | cons r l ih =>
    obtain ⟨hn, hl⟩ := List.nodup_cons.1 hl
    have hr' : r < 13 := hr r (by simp)
    rw [List.foldl_cons, ih hl fun x hx => hr x (by simp [hx])]
    by_cases hi : 1 ≤ i
    · by_cases hm : (i - 1) / 15 ∈ l
      · have hne : (i - 1) / 15 ≠ r := fun e => hn (e ▸ hm)
        rw [if_pos ⟨hi, hm⟩, if_pos ⟨hi, by simp [hm]⟩, getRow_putRow_ne d _ hr' hne]
      · rw [if_neg (by simp [hm]), getLsbD_putRow d _ hr']
        by_cases he : (i - 1) / 15 = r
        · rw [if_pos ⟨hi, he⟩, if_pos ⟨hi, by simp [he]⟩, he]
        · rw [if_neg (by simp [he]), if_neg (by simp [he, hm])]
    · rw [if_neg (by simp [hi]), if_neg (by simp [hi]), getLsbD_putRow d _ hr', if_neg (by simp [hi])]

/-- Each position after the columns of `l` were replaced by `g` of themselves, in any order. -/
theorem getLsbD_foldl_putCol (g : Word13 → Word13) (l : List Nat) (hl : l.Nodup) (hc : ∀ c ∈ l, c < 15) (d : Plane) (i : Nat) :
    (l.foldl (fun d c => putCol d c (g (getCol d c))) d).getLsbD i =
      if 1 ≤ i ∧ i < 196 ∧ (i - 1) % 15 ∈ l then (g (getCol d ((i - 1) % 15))).getLsbD ((i - 1) / 15)
      else d.getLsbD i := by
  induction l generalizing d with
  | nil => simp
  | cons c l ih =>
    obtain ⟨hn, hl⟩ := List.nodup_cons.1 hl
    have hc' : c < 15 := hc c (by simp)
    rw [List.foldl_cons, ih hl fun x hx => hc x (by simp [hx])]
    by_cases hi : 1 ≤ i ∧ i < 196
    · by_cases hm : (i - 1) % 15 ∈ l
      · have hne : (i - 1) % 15 ≠ c := fun e => hn (e ▸ hm)
        rw [if_pos ⟨hi.1, hi.2, hm⟩, if_pos ⟨hi.1, hi.2, by simp [hm]⟩,
          getCol_putCol_ne d _ hc' (Nat.mod_lt _ (by decide)) hne]
      · rw [if_neg (by simp [hm]), getLsbD_putCol d _ hc']
        by_cases he : (i - 1) % 15 = c
        · rw [if_pos ⟨hi.1, hi.2, he⟩, if_pos ⟨hi.1, hi.2, by simp [he]⟩, he]
        · rw [if_neg (by simp [he]), if_neg (by simp [he, hm])]
    · rw [if_neg (fun h => hi ⟨h.1, h.2.1⟩), if_neg (fun h => hi ⟨h.1, h.2.1⟩), getLsbD_putCol d _ hc',
        if_neg (fun h => hi ⟨h.1, h.2.1⟩)]

/-- Each position after the row half of `EncodeParity`. -/
theorem getLsbD_encodeRows (d : Plane) (i : Nat) :
    (encodeRows d).getLsbD i =
      if 1 ≤ i ∧ i ≤ 135 then (h15113Enc (getRow d ((i - 1) / 15))).getLsbD ((i - 1) % 15) else d.getLsbD i := by
  have h : (1 ≤ i ∧ (i - 1) / 15 < 9) ↔ (1 ≤ i ∧ i ≤ 135) := by omega
  rw [encodeRows, show Config.nDataRows = 9 from rfl,
    getLsbD_foldl_putRow h15113Enc _ List.nodup_range (fun r hr => by have := List.mem_range.1 hr; omega)]
  simp only [List.mem_range, h]

/-- Each position after the column half of `EncodeParity`. -/
theorem getLsbD_encodeCols (d : Plane) (i : Nat) :
    (encodeCols d).getLsbD i =
      if 1 ≤ i ∧ i < 196 then (h1393Enc (getCol d ((i - 1) % 15))).getLsbD ((i - 1) / 15) else d.getLsbD i := by
  have h : (1 ≤ i ∧ i < 196 ∧ (i - 1) % 15 < 15) ↔ (1 ≤ i ∧ i < 196) := by omega
  rw [encodeCols, show Config.nCols = 15 from rfl,
    getLsbD_foldl_putCol h1393Enc _ List.nodup_range (fun c hc => List.mem_range.1 hc)]
  simp only [List.mem_range, h]

/-! The correction loop as such runs (R169, R170). -/

/-- A column step always puts back the decoder's word: unchanged, it changes nothing. -/
theorem correctCol_eq (x : Working) {c : Nat} (hc : c < 15) :
    correctCol x c = ⟨putCol x.plane c (h1393Dec (getCol x.plane c)).1, x.fixing || (h1393Dec (getCol x.plane c)).2⟩ := by
  unfold correctCol h1393Dec
  cases flipPos1393 (syndrome1393 (getCol x.plane c)) <;> simp only [Bool.or_true, Bool.or_false]
  rw [putCol_getCol x.plane hc]

/-- A row step always puts back the decoder's word: unchanged, it changes nothing. -/
theorem correctRow_eq (x : Working) {r : Nat} (hr : r < 13) :
    correctRow x r = ⟨putRow x.plane r (h15113Dec (getRow x.plane r)).1, x.fixing || (h15113Dec (getRow x.plane r)).2⟩ := by
  unfold correctRow h15113Dec
  cases flipPos15113 (syndrome15113 (getRow x.plane r)) <;> simp only [Bool.or_true, Bool.or_false]
  rw [putRow_getRow x.plane hr]

/-- The plane and FIXING after the columns of `l`, in any order. -/
theorem foldl_correctCol (l : List Nat) (hl : l.Nodup) (hc : ∀ c ∈ l, c < 15) (x : Working) :
    l.foldl correctCol x =
      ⟨l.foldl (fun d c => putCol d c (h1393Dec (getCol d c)).1) x.plane,
        x.fixing || l.any fun c => (h1393Dec (getCol x.plane c)).2⟩ := by
  induction l generalizing x with
  | nil => simp
  | cons c l ih =>
    obtain ⟨hn, hl⟩ := List.nodup_cons.1 hl
    have hc' : c < 15 := hc c (by simp)
    have hl' : ∀ x ∈ l, x < 15 := fun x hx => hc x (by simp [hx])
    have hany : (l.any fun c' => (h1393Dec (getCol (putCol x.plane c (h1393Dec (getCol x.plane c)).1) c')).2) =
        l.any fun c' => (h1393Dec (getCol x.plane c')).2 := by
      rw [Bool.eq_iff_iff, List.any_eq_true, List.any_eq_true]
      exact exists_congr fun c' => and_congr_right fun hm => by
        rw [getCol_putCol_ne _ _ hc' (hl' c' hm) fun e => hn (e ▸ hm)]
    rw [List.foldl_cons, ih hl hl', correctCol_eq x hc', hany, List.foldl_cons, List.any_cons, Bool.or_assoc]

/-- The plane and FIXING after the rows of `l`, in any order. -/
theorem foldl_correctRow (l : List Nat) (hl : l.Nodup) (hr : ∀ r ∈ l, r < 13) (x : Working) :
    l.foldl correctRow x =
      ⟨l.foldl (fun d r => putRow d r (h15113Dec (getRow d r)).1) x.plane,
        x.fixing || l.any fun r => (h15113Dec (getRow x.plane r)).2⟩ := by
  induction l generalizing x with
  | nil => simp
  | cons r l ih =>
    obtain ⟨hn, hl⟩ := List.nodup_cons.1 hl
    have hr' : r < 13 := hr r (by simp)
    have hl' : ∀ x ∈ l, x < 13 := fun x hx => hr x (by simp [hx])
    have hany : (l.any fun r' => (h15113Dec (getRow (putRow x.plane r (h15113Dec (getRow x.plane r)).1) r')).2) =
        l.any fun r' => (h15113Dec (getRow x.plane r')).2 := by
      rw [Bool.eq_iff_iff, List.any_eq_true, List.any_eq_true]
      exact exists_congr fun r' => and_congr_right fun hm => by
        rw [getRow_putRow_ne _ _ hr' fun e => hn (e ▸ hm)]
    rw [List.foldl_cons, ih hl hl', correctRow_eq x hr', hany, List.foldl_cons, List.any_cons, Bool.or_assoc]

/-! The two whole commands (R179, R180). Each intermediate value is named by an equation, so that no proof evaluates it. -/

/-- A partial write of a file written whole leaves every cell written. -/
theorem covers_put_full {n : Nat} (d m v m' : BitVec n) : ((Cells.full d).put m v).covers m' = true := by
  rw [covers_iff]
  intro i hi
  rw [getLsbD_put_written, full_written, BitVec.getLsbD_allOnes, decide_eq_true (BitVec.lt_of_getLsbD hi), Bool.true_or]

/-- A read of some cells of a file all written. -/
theorem operand_covered {n : Nat} {c : Cells n} {m : BitVec n} {s : State} (h : c.covers m = true) :
    operand c m s = c.val &&& m ∧ { s with draws := drawsAfter c m s } = s := by
  obtain ⟨h1, h2⟩ := operand_of_covers c m s h
  exact ⟨h1, by rw [h2]⟩

/-- Step 3 of R179 when DEINT is all written. -/
theorem correctDeint_full {s : State} {d e : Plane} (h : s.deint = Cells.full d) (he : e = (correct (d &&& matrixMask)).1) :
    correctDeint s = .next (leaveLoop { s with deint := (Cells.full d).put matrixMask e }) := by
  have hc : s.deint.covers matrixMask = true := by rw [h, full_covers]
  obtain ⟨h1, h2⟩ := operand_covered (s := s) hc
  rw [correctDeint, andThen_readCells _ (Or.inl hc), h2, h1]
  simp only [h, full_val, he]

/-- Step 4 of R179 when DEINT is all written. -/
theorem extractPayload_covered {s : State} (h : s.deint.covers payloadMask = true) :
    extractPayload s = .next { s with payload := Cells.full (extractData (s.deint.val &&& payloadMask)) } := by
  obtain ⟨h1, h2⟩ := operand_covered (s := s) h
  rw [extractPayload, andThen_readCells _ (Or.inl h), h2, h1]

/-- The parity step of R180 when DEINT is all written. -/
theorem parityDeint_full {s : State} {d e : Plane} (h : s.deint = Cells.full d) (he : e = encodeParity (d &&& rowDataMask)) :
    parityDeint s = .next { s with deint := (Cells.full d).put parityMask e } := by
  have hc : s.deint.covers rowDataMask = true := by rw [h, full_covers]
  obtain ⟨h1, h2⟩ := operand_covered (s := s) hc
  rw [parityDeint, andThen_readCells _ (Or.inl hc), h2, h1]
  simp only [h, full_val, he]

/-- The interleave step of R180 when DEINT is all written. -/
theorem interleaveDeint_covered {s : State} (h : s.deint.covers (BitVec.allOnes 196) = true) :
    interleaveDeint s = .next { s with raw := Cells.full (interleave s.deint.val) } := by
  obtain ⟨h1, h2⟩ := operand_covered (s := s) h
  rw [interleaveDeint, andThen_readCells _ (Or.inl h), h2, h1, BitVec.and_allOnes]

/-- The pack step of R180 when RAW is all written. -/
theorem packFrame_full {s : State} {r : Plane} (h : s.raw = Cells.full r) :
    packFrame s = .next { s with frame := s.frame.put framePlaneMask (rawToFrame r s.frame.val) } := by
  have hc : s.raw.covers (BitVec.allOnes 196) = true := by rw [h, full_covers]
  obtain ⟨h1, h2⟩ := operand_covered (s := s) hc
  rw [packFrame, andThen_readCells _ (Or.inl hc), h2, h1]
  simp only [h, full_val, BitVec.and_allOnes]

/-- BPTC.DEC with its operands readable: RAW unpacked, DEINT deinterleaved and corrected, PAYLOAD extracted. -/
theorem execBptcDec_of_readable {s : State} {raw d e : Plane} {k : Nat} (h : Readable s.frame framePlaneMask s)
    (hraw : raw = frameToRaw (operand s.frame framePlaneMask s)) (hd : d = deinterleave raw)
    (he : e = (correct (d &&& matrixMask)).1) (hk : k = drawsAfter s.frame framePlaneMask s) :
    execBptcDec s = .next
      { s with
        raw := Cells.full raw
        deint := (Cells.full d).put matrixMask e
        payload := Cells.full (extractData (((Cells.full d).put matrixMask e).val &&& payloadMask))
        status := 0x00, pass := Config.idlePass k, fixing := Config.idleFixing k, draws := k + 1 } := by
  have h2 := deinterleaveRaw_of_readable
    (s := { s with raw := Cells.full raw, draws := k }) (readable_full raw _ _)
  have h3 := correctDeint_full
    (s := { s with raw := Cells.full raw, deint := Cells.full d, draws := k }) (d := d) (e := e) rfl he
  have h4 := extractPayload_covered
    (s := leaveLoop { s with raw := Cells.full raw, deint := (Cells.full d).put matrixMask e, draws := k })
    (covers_put_full d matrixMask e payloadMask)
  rw [operand_full, ← hd, drawsAfter_full] at h2
  rw [execBptcDec, unpackFrame_of_readable h, ← hraw, ← hk, andThen_next, h2, andThen_next, h3, andThen_next, h4,
    andThen_next]
  simp only [complete, leaveLoop, statusWord]
  rfl

/-- BPTC.DEC answers a next state exactly then. -/
theorem execBptcDec_eq_next {s t : State} (h : execBptcDec s = .next t) :
    ∃ raw d e k, Readable s.frame framePlaneMask s ∧ raw = frameToRaw (operand s.frame framePlaneMask s) ∧
      d = deinterleave raw ∧ e = (correct (d &&& matrixMask)).1 ∧ k = drawsAfter s.frame framePlaneMask s ∧
      t = { s with
        raw := Cells.full raw
        deint := (Cells.full d).put matrixMask e
        payload := Cells.full (extractData (((Cells.full d).put matrixMask e).val &&& payloadMask))
        status := 0x00, pass := Config.idlePass k, fixing := Config.idleFixing k, draws := k + 1 } := by
  by_cases hr : Readable s.frame framePlaneMask s
  · exact ⟨_, _, _, _, hr, rfl, rfl, rfl, rfl,
      Host.Outcome.next.inj (h.symm.trans (execBptcDec_of_readable hr rfl rfl rfl rfl))⟩
  · rw [execBptcDec, unpackFrame_fault hr] at h
    cases h

/-- BPTC.ENC with its operands readable: DEINT placed and given its parity, RAW interleaved, FRAME merged. -/
theorem execBptcEnc_of_readable {s : State} {y e : Plane} {k : Nat} (h : Readable s.payload (BitVec.allOnes 96) s)
    (hy : y = placeData (operand s.payload (BitVec.allOnes 96) s)) (he : e = encodeParity (y &&& rowDataMask))
    (hk : k = drawsAfter s.payload (BitVec.allOnes 96) s) :
    execBptcEnc s = .next
      { s with
        deint := (Cells.full y).put parityMask e
        raw := Cells.full (interleave ((Cells.full y).put parityMask e).val)
        frame := s.frame.put framePlaneMask (rawToFrame (interleave ((Cells.full y).put parityMask e).val) s.frame.val)
        status := 0x00, draws := k } := by
  have h2 := parityDeint_full (s := { s with deint := Cells.full y, draws := k }) (d := y) (e := e) rfl he
  have h3 := interleaveDeint_covered (s := { s with deint := (Cells.full y).put parityMask e, draws := k })
    (covers_put_full y parityMask e _)
  have h4 := packFrame_full
    (s := { s with
      deint := (Cells.full y).put parityMask e
      raw := Cells.full (interleave ((Cells.full y).put parityMask e).val), draws := k })
    (r := interleave ((Cells.full y).put parityMask e).val) rfl
  rw [execBptcEnc, placePayload_of_readable h, ← hy, ← hk, andThen_next, h2, andThen_next, h3, andThen_next, h4,
    andThen_next]
  rfl

/-- BPTC.ENC answers a next state exactly then. -/
theorem execBptcEnc_eq_next {s t : State} (h : execBptcEnc s = .next t) :
    ∃ y e k, Readable s.payload (BitVec.allOnes 96) s ∧ y = placeData (operand s.payload (BitVec.allOnes 96) s) ∧
      e = encodeParity (y &&& rowDataMask) ∧ k = drawsAfter s.payload (BitVec.allOnes 96) s ∧
      t = { s with
        deint := (Cells.full y).put parityMask e
        raw := Cells.full (interleave ((Cells.full y).put parityMask e).val)
        frame := s.frame.put framePlaneMask (rawToFrame (interleave ((Cells.full y).put parityMask e).val) s.frame.val)
        status := 0x00, draws := k } := by
  by_cases hr : Readable s.payload (BitVec.allOnes 96) s
  · exact ⟨_, _, _, hr, rfl, rfl, rfl, Host.Outcome.next.inj (h.symm.trans (execBptcEnc_of_readable hr rfl rfl rfl))⟩
  · rw [execBptcEnc, placePayload_fault hr] at h
    cases h

end Sys2Proof.Machine
end

