-- ==== Sys2Proof/Laws/PerInstr.lean ====
section
/-! SUPPORT. Laws of the instruction as syntax, made instruction by instruction. -/

namespace Sys2Proof.Laws

/-- Every command is well-formed, and its word is read back as it (spec/30_encoding.md R82, R84). -/
def InstrWellFormed.Statement (i : Instr) : Prop := instrWf i = true ∧ decode (encode i) = .ok i

theorem InstrWellFormed.nop : InstrWellFormed.Statement .nop := by
  constructor <;> rfl

theorem InstrWellFormed.bptcDec : InstrWellFormed.Statement .bptcDec := by
  constructor <;> rfl

theorem InstrWellFormed.bptcEnc : InstrWellFormed.Statement .bptcEnc := by
  constructor <;> rfl

theorem InstrWellFormed.bptcUnpack : InstrWellFormed.Statement .bptcUnpack := by
  constructor <;> rfl

theorem InstrWellFormed.bptcDeinterleave : InstrWellFormed.Statement .bptcDeinterleave := by
  constructor <;> rfl

theorem InstrWellFormed.bptcCorrect : InstrWellFormed.Statement .bptcCorrect := by
  constructor <;> rfl

theorem InstrWellFormed.bptcExtract : InstrWellFormed.Statement .bptcExtract := by
  constructor <;> rfl

theorem InstrWellFormed.bptcPlace : InstrWellFormed.Statement .bptcPlace := by
  constructor <;> rfl

theorem InstrWellFormed.bptcParity : InstrWellFormed.Statement .bptcParity := by
  constructor <;> rfl

theorem InstrWellFormed.bptcInterleave : InstrWellFormed.Statement .bptcInterleave := by
  constructor <;> rfl

theorem InstrWellFormed.bptcPack : InstrWellFormed.Statement .bptcPack := by
  constructor <;> rfl

theorem InstrWellFormed.ham1393Dec : InstrWellFormed.Statement .ham1393Dec := by
  constructor <;> rfl

theorem InstrWellFormed.ham1393Enc : InstrWellFormed.Statement .ham1393Enc := by
  constructor <;> rfl

theorem InstrWellFormed.ham15113Dec : InstrWellFormed.Statement .ham15113Dec := by
  constructor <;> rfl

theorem InstrWellFormed.ham15113Enc : InstrWellFormed.Statement .ham15113Enc := by
  constructor <;> rfl

end Sys2Proof.Laws
end

