-- ==== Sys2Proof/Laws/Step.lean ====
section
/-! SUPPORT. Everything a step can do, said once: the inversion lemmas of the host port and of `step`
(spec/20_memory.md R52, R53, R62). -/

namespace Sys2Proof.Machine

/-- A command word runs its command, or raises IllegalCommand (R200). -/
theorem executeWord_cases {v : Byte} {s t : State} (h : executeWord v s = .next t) :
    (∃ i, decode v = .ok i ∧ exec i s = .next t) ∨ ((∃ e, decode v = .error e) ∧ t = raiseIllegalCommand s) := by
  unfold executeWord at h
  split at h
  · exact .inl ⟨_, by assumption, h⟩
  · exact .inr ⟨⟨_, by assumption⟩, (Host.Outcome.next.inj h).symm⟩

/-- A host write stores at its location, or, at CMD, runs a command word (R52). -/
theorem memWrite_cases {a : HostAddr} {v : Byte} {s t : State} (h : memWrite a v s = .next t) :
    (locate a ≠ .cmd ∧ t = storeAt (locate a) v s) ∨ (locate a = .cmd ∧ executeWord v s = .next t) := by
  unfold memWrite at h
  split at h
  · exact .inr ⟨by assumption, h⟩
  · exact .inl ⟨by assumption, (Host.Outcome.next.inj h).symm⟩

/-- A host read adds one result and may count draws; nothing else changes (R59). -/
theorem memRead_cases {a : HostAddr} {s t : State} (h : memRead a s = .next t) :
    ∃ v k, loadAt (locate a) s = .next (v, { s with draws := k }) ∧
      t = { s with draws := k, results := s.results ++ [v] } := by
  obtain ⟨⟨v, u⟩, hv, h⟩ := andThen_eq_next.1 h
  have hf := loadAt_frame hv
  simp only at hf
  refine ⟨v, u.draws, hf ▸ hv, ?_⟩
  rw [← Host.Outcome.next.inj h, hf]

/-- What an event can be, and what it does. -/
theorem perform_cases {e : HostEvent} {s t : State} (h : perform e s = .next t) :
    (e = .reset ∧ t = resetBlock s) ∨
    (∃ a d v, e = .access .host (.wr a d) ∧ resolveData d s = .next v ∧ memWrite a v s = .next t) ∨
    (∃ a, e = .access .host (.rd a) ∧ memRead a s = .next t) := by
  match e, h with
  | .reset, h => exact .inl ⟨rfl, (Host.Outcome.next.inj h).symm⟩
  | .access .host (.wr a d), h =>
    obtain ⟨v, hv, h⟩ := andThen_eq_next.1 h
    exact .inr (.inl ⟨a, d, v, rfl, hv, h⟩)
  | .access .host (.rd a), h => exact .inr (.inr ⟨a, rfl, h⟩)

/-- A step with no event left changes nothing (R216); otherwise it performs the next event and moves on by one (R62). -/
theorem step_cases {s t : State} (h : step s = .next t) :
    (nextEvent s = none ∧ t = s) ∨ ∃ e u, nextEvent s = some e ∧ perform e s = .next u ∧ t = advance u := by
  unfold step runNext at h
  split at h
  · rename_i e he
    obtain ⟨u, hu, h⟩ := andThen_eq_next.1 h
    exact .inr ⟨e, u, he, hu, (Host.Outcome.next.inj h).symm⟩
  · exact .inl ⟨by assumption, (Host.Outcome.next.inj h).symm⟩

/-- A store changes one of the five files of cells, if anything (R52). -/
theorem storeAt_frame (l : Location) (v : Byte) (s : State) :
    storeAt l v s =
      { s with
        frame := (storeAt l v s).frame
        payload := (storeAt l v s).payload
        raw := (storeAt l v s).raw
        deint := (storeAt l v s).deint
        cw := (storeAt l v s).cw } := by
  cases l <;> rfl

/-- The host's view: a step of a command write is the command and then the next event (R27, R62). -/
theorem runNext_command {s : State} {v : Byte} (h : nextEvent s = some (commandEvent v)) :
    runNext s = andThen (executeWord v s) fun t => .next (advance t) := by
  simp only [runNext, h, commandEvent, perform, resolveData, andThen_next]
  rfl

end Sys2Proof.Machine
end

