-- ==== Sys2Proof/Tests/Slice0.lean ====
section
/-! SUPPORT. Our own tests. Expected values are the spec's (spec/95_test_vectors.md, or the example of the rule named); then a
witness for every statement that has hypotheses, with a boundary value for each clause. -/

namespace Sys2Proof.Tests

open Sys2Proof.Machine

-- In order, not side by side: many kernel evaluations waiting at once would each hold a thread, and its stack.
set_option Elab.async false

/-! Helpers. -/

/-- The outcome is a next state. -/
def goesOn (x : Result State) : Bool :=
  match x with
  | .next _ => true
  | .fault _ => false
  | .refused _ => false

/-- What goes on has a next state. -/
theorem next_of_goesOn {x : Result State} (h : goesOn x = true) : ∃ t, x = .next t := by
  cases x with
  | next t => exact ⟨t, rfl⟩
  | fault r => cases h
  | refused r => cases h

/-- The outcome is a next state with this property. -/
def after (x : Result State) (p : State → Bool) : Bool :=
  match x with
  | .next t => p t
  | .fault _ => false
  | .refused _ => false

/-- The fault that stopped it, if one did. -/
def faultOf {α : Type} (x : Result α) : Option Fault :=
  match x with
  | .next _ => none
  | .fault r => some r
  | .refused _ => none

/-- After reset, with the parameter `UNWRITTEN_READ` at `fault`. -/
def strict : State := { State.reset with unwrittenRead := .fault }

/-- Every cell written, FRAME and PAYLOAD those of vector E5, the rest 0, and `UNWRITTEN_READ` at `fault`. -/
def written : State :=
  { strict with
    frame := Cells.full 0xCDA3C91DF4C5F8834FEA4CE80200000000000000C067ABF1B80B37A14D876E8709#264
    payload := Cells.full 0x98BADCFEEFCDAB8967452301#96
    raw := Cells.full 0
    deint := Cells.full 0
    cw := Cells.full 0 }

/-- `s` with one event to come. -/
def facing (e : HostEvent) (s : State) : State := { s with pending := [e] }

/-! Decoding: each command's word written bit by bit, `grp` (R80) then `fn`, from the table of R81. -/

theorem test_decode_nop : decode (0b0000#4 ++ 0b0000#4) = .ok .nop := by decide
theorem test_decode_bptcDec : decode (0b0000#4 ++ 0b0001#4) = .ok .bptcDec := by decide
theorem test_decode_bptcEnc : decode (0b0000#4 ++ 0b0010#4) = .ok .bptcEnc := by decide
theorem test_decode_bptcUnpack : decode (0b0001#4 ++ 0b0000#4) = .ok .bptcUnpack := by decide
theorem test_decode_bptcDeinterleave : decode (0b0001#4 ++ 0b0001#4) = .ok .bptcDeinterleave := by decide
theorem test_decode_bptcCorrect : decode (0b0001#4 ++ 0b0010#4) = .ok .bptcCorrect := by decide
theorem test_decode_bptcExtract : decode (0b0001#4 ++ 0b0011#4) = .ok .bptcExtract := by decide
theorem test_decode_bptcPlace : decode (0b0001#4 ++ 0b1000#4) = .ok .bptcPlace := by decide
theorem test_decode_bptcParity : decode (0b0001#4 ++ 0b1001#4) = .ok .bptcParity := by decide
theorem test_decode_bptcInterleave : decode (0b0001#4 ++ 0b1010#4) = .ok .bptcInterleave := by decide
theorem test_decode_bptcPack : decode (0b0001#4 ++ 0b1011#4) = .ok .bptcPack := by decide
theorem test_decode_ham1393Dec : decode (0b0010#4 ++ 0b0000#4) = .ok .ham1393Dec := by decide
theorem test_decode_ham1393Enc : decode (0b0010#4 ++ 0b0001#4) = .ok .ham1393Enc := by decide
theorem test_decode_ham15113Dec : decode (0b0010#4 ++ 0b0010#4) = .ok .ham15113Dec := by decide
theorem test_decode_ham15113Enc : decode (0b0010#4 ++ 0b0011#4) = .ok .ham15113Enc := by decide

/-- The edges of the reserved ranges of R84. -/
theorem test_decode_reserved :
    [0x03, 0x0F, 0x14, 0x17, 0x1C, 0x1F, 0x24, 0x2F, 0x30, 0xFF].map (fun w => decode (BitVec.ofNat 8 w)) =
      [0x03, 0x0F, 0x14, 0x17, 0x1C, 0x1F, 0x24, 0x2F, 0x30, 0xFF].map
        (fun w => (.error (.reserved (BitVec.ofNat 8 w)) : Except DecodeError Instr)) := by
  decide +kernel

/-- The opcode table's words: one byte each, and nothing else. -/
theorem test_table_word :
    decodeTableWord 8 0x12 = some .bptcCorrect ∧ decodeTableWord 8 0x03 = none ∧ decodeTableWord 16 0x12 = none ∧
      decodeTableWord 8 0x112 = none := by
  decide

/-! Well-formedness: each check refuses a line that breaks it (R50, R87). -/

theorem test_wf_refuses_overrun : (Line.wrn 0x3FF [0x00, 0x00]).wf = false := by decide
theorem test_wf_refuses_empty_write_run : (Line.wrn 0x000 []).wf = false := by decide
theorem test_wf_refuses_read_overrun : (Line.rdn 0x3FF 2).wf = false := by decide
theorem test_wf_refuses_empty_read_run : (Line.rdn 0x000 0).wf = false := by decide
theorem test_wf_refuses_short_frame : (Line.ldframe (List.replicate 32 0x00)).wf = false := by decide
theorem test_wf_refuses_long_payload : (Line.ldpay (List.replicate 13 0x00)).wf = false := by decide
theorem test_wf_refuses_wide_codeword : (Line.ldcw 0x8000).wf = false := by decide
theorem test_wf_refuses_wide_codeword13 : (Line.ldcw13 0x2000).wf = false := by decide
theorem test_wf_refuses_flip_of_byte : (Line.flip 0x020).wf = false := by decide
theorem test_wf_refuses_flip_of_status : (Line.flip 0x3F1).wf = false := by decide
theorem test_wf_refuses_empty_runs : (Line.rdn 0x000 0).wf = false ∧ (Line.wrn 0x000 []).wf = false := by decide
theorem test_wf_accepts :
    (Line.wrn 0x3FE [0x00, 0x00]).wf && (Line.rdn 0x3FF 1).wf && (Line.ldframe (List.replicate 33 0x00)).wf &&
      (Line.ldpay (List.replicate 12 0x00)).wf && (Line.ldcw 0x7FFF).wf && (Line.ldcw13 0x1FFF).wf && (Line.flip 0x30E).wf && (Line.flip 0x310).wf &&
      (Line.mnemonic .bptcPack).wf = true := by
  decide

/-! The host map (R51): both edges of every range. -/

theorem test_locate_edges :
    [0x000, 0x020, 0x021, 0x03F, 0x040, 0x04B, 0x04C, 0x0FF, 0x100, 0x1C3, 0x1C4, 0x1FF, 0x200, 0x2C3, 0x2C4, 0x2FF, 0x300,
      0x30E, 0x30F, 0x310, 0x311, 0x3EF, 0x3F0, 0x3F1, 0x3F2, 0x3FF].map (fun a => locate (BitVec.ofNat 10 a)) =
    [.frame 0, .frame 32, .reserved, .reserved, .payload 0, .payload 11, .reserved, .reserved, .raw 0, .raw 195, .reserved,
      .reserved, .deint 0, .deint 195, .reserved, .reserved, .cw 0, .cw 14, .reserved, .corr, .reserved, .reserved, .cmd,
      .status, .reserved, .reserved] := by
  decide +kernel

/-! Host accesses (section 7 of the vectors). -/

theorem test_read_status_after_reset : after (memRead 0x3F1 State.reset) (fun t => t.results == [0x00]) = true := by decide
theorem test_read_reserved : after (memRead 0x1C4 State.reset) (fun t => t.results == [0x00]) = true := by decide
theorem test_one_bit_write_ignores_upper_bits :
    after (andThen (memWrite 0x100 0xFF strict) (memRead 0x100)) (fun t => t.results == [0x01]) = true := by
  decide +kernel
theorem test_status_write_ignored : memWrite 0x3F1 0xFF State.reset = .next State.reset := rfl
theorem test_reserved_word_sets_ill :
    after (memWrite 0x3F0 0x03 written) (fun t => t == { written with status := 0x01 }) = true := by
  decide +kernel
theorem test_nop_clears_ill :
    after (memWrite 0x3F0 0x00 { written with status := 0x01 }) (fun t => t == written) = true := by
  decide +kernel
theorem test_dec_after_reset_faults : faultOf (step (strict.withFetchWord 8 0x01)) = some (.unwrittenRead .frame) := by
  decide +kernel
theorem test_dec_after_reset_draws : goesOn (step (State.reset.withFetchWord 8 0x01)) = true := by decide +kernel

/-- `LDPAY; BPTC.ENC; RD 0x00C`: only FRAME[12] bits 7:6 are written, so the read follows the parameter. -/
theorem test_partly_written_byte_faults :
    faultOf (andThen (exec .bptcEnc { strict with payload := written.payload }) (memRead 0x00C)) =
      some (.unwrittenRead .frame) := by
  decide +kernel

/-! Host programs (R86, R87). -/

theorem test_ldcw13_expansion :
    (Line.ldcw13 0x12AB).expand.map (fun a => match a with | .wr x (.byte v) => (x, v) | _ => (0, 0xFF)) =
      [(0x300, 1), (0x301, 1), (0x302, 0), (0x303, 1), (0x304, 0), (0x305, 1), (0x306, 0), (0x307, 1), (0x308, 0), (0x309, 1),
        (0x30A, 0), (0x30B, 0), (0x30C, 1)] := by
  decide
theorem test_mnemonic_is_a_write_to_cmd : (Line.mnemonic .ham15113Dec).expand = [.wr 0x3F0 (.byte 0x22)] := by decide
theorem test_rdcw_expansion : (Line.rdcw).expand.length = 15 ∧ (Line.rdcw).expand.head? = some (.rd 0x300) := by decide
theorem test_cw_value : cwValue [1, 1, 0, 0, 0, 1, 0, 0, 1, 0, 0, 0, 0, 1, 0] = 0x2123 := by decide

/-! Frames and the interleaver (section 3 of the vectors). -/

theorem test_unpack_split_bytes :
    frameToRaw (byteTo 264 12 0xC0 ||| byteTo 264 20 0x03) =
      (cellMask 196 96 ||| cellMask 196 97 ||| cellMask 196 98 ||| cellMask 196 99) := by
  decide +kernel
theorem test_unpack_ignores_neighbours :
    frameToRaw (byteTo 264 12 0x3F ||| byteTo 264 13 0xFF ||| byteTo 264 20 0xFC) = 0 := by
  decide +kernel
theorem test_deinterleave_cell : deinterleave (cellMask 196 195) = cellMask 196 183 := by decide +kernel
theorem test_interleave_cell : interleave (cellMask 196 181) = cellMask 196 (181 * 181 % 196) := by decide +kernel
theorem test_pack_merges :
    rawToFrame (cellMask 196 97) (BitVec.allOnes 264) =
      0x000000000000000000000000FCFFFFFFFFFFFFFF7F000000000000000000000000#264 := by
  decide +kernel
theorem test_pack_all_ones : rawToFrame (BitVec.allOnes 196) 0 = 0xFFFFFFFFFFFFFFFFFFFFFFFF0300000000000000C0FFFFFFFFFFFFFFFFFFFFFFFF#264 := by
  decide +kernel
theorem test_unpack_command : after (exec .bptcUnpack written) (fun t => t.raw == Cells.full (frameToRaw written.frame.val)) = true := by
  decide +kernel

/-! The Hamming commands on CW (sections 2.3 and 2.4 of the vectors). -/

/-- CW after a command on this value, and CORR. -/
def onCw (i : Instr) (v : BitVec 15) : Option (BitVec 15 × Bool) :=
  match exec i { written with cw := Cells.full v } with
  | .next t => some (t.cw.val, t.corr)
  | .fault _ => none
  | .refused _ => none

theorem test_ham1393_dec :
    [0x12AA, 0x12A9, 0x00AA, 0x72AB].map (fun v => onCw .ham1393Dec (BitVec.ofNat 15 v)) =
      [some (0x12AA, false), some (0x02A9, true), some (0x00AA, false), some (0x72AA, true)] := by
  decide +kernel
theorem test_ham1393_enc : onCw .ham1393Enc 0x7FFF = some (0x7BFF, false) := by decide +kernel
theorem test_ham15113_dec :
    [0x2123, 0x2122, 0x2120, 0x612B].map (fun v => onCw .ham15113Dec (BitVec.ofNat 15 v)) =
      [some (0x2123, false), some (0x2123, true), some (0x3120, true), some (0x612F, true)] := by
  decide +kernel
theorem test_ham15113_enc : onCw .ham15113Enc 0x0123 = some (0x2123, false) := by decide +kernel

/-! The BPTC commands (sections 4 to 6 of the vectors). -/

theorem test_extract_range : extractData (cellMask 196 46 ||| cellMask 196 106) = 0x000020000000000002000000#96 := by decide +kernel
theorem test_extract_skips : extractData (cellMask 196 0 ||| cellMask 196 3 ||| cellMask 196 12 ||| cellMask 196 136) = 0 := by
  decide +kernel
theorem test_place_ones : placeData (BitVec.allOnes 96) = payloadMask := by decide +kernel
theorem test_parity_cell :
    after (exec .bptcParity { written with deint := Cells.full (cellMask 196 131) })
      (fun t => t.deint.val == [131, 134, 135, 176, 179, 180, 191, 194, 195].foldl (fun d a => d ||| cellMask 196 a) 0) = true := by
  decide +kernel
theorem test_correct_all_ones :
    (let d := correct (BitVec.allOnes 196); (((List.range 196).filter fun a => d.1.getLsbD a).length, d.2)) = (181, 2) := by
  decide +kernel
theorem test_enc_keeps_neighbours :
    after (exec .bptcEnc { written with payload := Cells.full 0, frame := Cells.full (BitVec.allOnes 264) })
      (fun t => t.frame.val == 0x000000000000000000000000FCFFFFFFFFFFFFFF3F000000000000000000000000#264) = true := by
  decide +kernel
theorem test_enc_e3 :
    after (exec .bptcEnc { written with payload := Cells.full 0x0B0A09080706050403020100#96, frame := Cells.full 0 })
      (fun t => t.frame.val == 0x7594174102460A53CB082008010000000000000040C3A303206808F1049006A407#264) = true := by
  decide +kernel

/-- Vector D6: two errors in one column, mended by the rows. -/
theorem test_dec_d6 :
    after (exec .bptcDec { written with frame := Cells.full 0xCDA3C91DF4CDF8834FEB4CE80200000000000000C067ABF1B80B37A14D876E8709#264 })
      (fun t => t.payload == written.payload) = true := by
  decide +kernel

/-- Vector V6: four errors, five passes, a wrong payload. -/
theorem test_dec_v6 :
    after (exec .bptcDec { written with frame := Cells.full 0xCDA3C91DF4C5FA83CFFA4CE80200000000000000C047ABF1B80B37A14D876E8709#264 })
      (fun t => t.payload.val == 0x9ABADCFEEFCDAB8967452301#96) = true := by
  decide +kernel

/-! Witnesses: for each statement with hypotheses, states and operands that meet them. `written` meets every `Readable` by its
written cells, `State.reset` by drawing. -/

/-- Every cell of a file written whole is written. -/
theorem writtenWhere_full {n : Nat} (v : BitVec n) (p : Nat → Prop) : writtenWhere (Cells.full v) p := by
  intro i hi _
  simp [Cells.full, hi]

/-- The operands of every command are written in `written`. -/
theorem written_operands (i : Instr) : operandsWritten written i := by
  cases i <;> first | trivial | exact writtenWhere_full _ _

/-- `written` goes on at every command, by its meaning's own reads. -/
theorem written_readable {n : Nat} (v m : BitVec n) : Readable (Cells.full v) m written := Or.inl (by simp)

/-- What has an unwritten cell is not readable in `strict`. -/
theorem strict_not_readable {n : Nat} (c : Cells n) (m : BitVec n) (h : c.covers m = false) : ¬ Readable c m strict := by
  rintro (h' | h')
  · rw [h] at h'; cases h'
  · cases h'

/-- `State.reset` draws. -/
theorem reset_readable {n : Nat} (c : Cells n) (m : BitVec n) : Readable c m State.reset := Or.inr rfl

theorem witness_DecodeReadsExactlyTheEncodedWord :
    instrWf .nop = true ∧ instrWf .ham15113Enc = true ∧ decode 0x23 = .ok .ham15113Enc ∧
      ∀ i, encode i ≠ 0x24 ∧ encode i ≠ 0x03 := by
  refine ⟨by decide, by decide, by decide, fun i => ?_⟩
  cases i <;> decide

theorem witness_ReservedWordsOnlySetIll :
    [0x03, 0x0F, 0x14, 0x17, 0x1C, 0x1F, 0x24, 0x2F, 0x30, 0xFF].all (fun w => reservedWord (BitVec.ofNat 8 w)) = true ∧
      [0x02, 0x10, 0x13, 0x18, 0x1B, 0x20, 0x23].any (fun w => reservedWord (BitVec.ofNat 8 w)) = false := by
  decide

theorem witness_IllegalCommandOrCompletedCommand :
    reservedWord 0x24 = true ∧ (0x23 : Byte) = encode .ham15113Enc ∧ ∃ t, exec .ham15113Enc written = .next t :=
  ⟨by decide, by decide, next_of_goesOn (by decide +kernel)⟩

theorem witness_StepRunsTheDecodedCommand :
    nextEvent (written.withFetchWord 8 0x1B) = some (commandEvent 0x1B) ∧ decode 0x1B = .ok .bptcPack ∧
      instrWf .bptcPack = true := by
  decide +kernel

theorem witness_EveryStepKeepsWellFormedness :
    (written.withFetchWord 8 0x1B).wf = true ∧ ∃ t, step (written.withFetchWord 8 0x1B) = .next t :=
  ⟨by decide +kernel, next_of_goesOn (by decide +kernel)⟩

theorem witness_WrittenCellsStayWrittenUntilReset :
    nextEvent (written.withFetchWord 8 0x20) ≠ some .reset ∧ ∃ t, step (written.withFetchWord 8 0x20) = .next t :=
  ⟨by decide +kernel, next_of_goesOn (by decide +kernel)⟩

theorem witness_StepConsumesOneEvent :
    nextEvent (facing (.access .host (.rd 0x020)) written) = some (.access .host (.rd 0x020)) ∧
      (∃ t, step (facing (.access .host (.rd 0x020)) written) = .next t) ∧ nextEvent State.reset = none :=
  ⟨rfl, next_of_goesOn (by decide +kernel), rfl⟩

/-- The two addresses beside CMD, a read, and the two decode words and their neighbours. -/
theorem witness_FlagsChangeOnlyAtCommandsAndReset :
    (∀ a ∈ ([0x3EF, 0x3F1] : List HostAddr), a ≠ 0x3F0 ∧
      ∃ t, step (facing (.access .host (.wr a (.byte 0x20))) written) = .next t) ∧
    (∃ t, step (facing (.access .host (.rd 0x3F0)) written) = .next t) ∧
    (∀ v ∈ ([0x1B, 0x20, 0x21, 0x22, 0x23, 0x24] : List Byte),
      nextEvent (facing (commandEvent v) written) = some (commandEvent v) ∧
      ∃ t, step (facing (commandEvent v) written) = .next t) := by
  refine ⟨fun a ha => ?_, next_of_goesOn (by decide +kernel), fun v hv => ⟨rfl, next_of_goesOn ?_⟩⟩
  · exact ⟨by revert a; decide, next_of_goesOn (by revert a; decide +kernel)⟩
  · revert v; decide +kernel

theorem witness_SecondAgentIsRefused :
    nextEvent (facing (.access .other (.rd 0x000)) State.reset) = some (.access .other (.rd 0x000)) := rfl

theorem witness_NoStopUnderDraw :
    State.reset.unwrittenRead = .draw ∧ nextEvent (facing .reset State.reset) = some .reset ∧
      nextEvent (facing (.access .host (.rd 0x30E)) State.reset) = some (.access .host (.rd 0x30E)) ∧
      nextEvent (facing (commandEvent 0x01) State.reset) = some (.access .host (.wr 0x3F0 (.byte 0x01))) :=
  ⟨rfl, rfl, rfl, rfl⟩

/-- All operands written; drawn; and one operand cell missing, at an edge of the row of R232. -/
theorem witness_CommandsCompleteWhenOperandsWritten :
    (∀ i, operandsWritten written i) ∧ State.reset.unwrittenRead = .draw ∧ strict.unwrittenRead = .fault ∧
    ¬ operandsWritten { written with cw := ⟨0, 0x7EFF⟩ } .ham1393Enc ∧
    ¬ operandsWritten { written with deint := ⟨0, ~~~cellMask 196 131⟩ } .bptcExtract ∧
    ¬ operandsWritten { written with frame := ⟨0, ~~~cellMask 264 102⟩ } .bptcDec ∧
    operandsWritten { written with frame := ⟨0, ~~~cellMask 264 101⟩ } .bptcDec := by
  refine ⟨written_operands, rfl, rfl, fun h => ?_, fun h => ?_, fun h => ?_, ?_⟩
  · exact absurd (h 8 (by decide) (by decide)) (by decide)
  · exact absurd (h 131 (by decide) ⟨(121, 131), by decide, by decide, by decide⟩) (by decide +kernel)
  · exact absurd (h 102 (by decide) (by decide)) (by decide +kernel)
  · exact fun x hx hp => by
      have key : ∀ x, x < 264 → (x / 8 ≤ 11 ∨ (x / 8 = 12 ∧ 6 ≤ x % 8) ∨ (x / 8 = 20 ∧ x % 8 ≤ 1) ∨ 21 ≤ x / 8) →
          (~~~cellMask 264 101).getLsbD x = true := by decide +kernel
      exact key x hx hp

theorem witness_CommandsStoreOnlyWhereListed :
    (∃ t, exec .bptcPack written = .next t) ∧ storesTo .bptcPack 0x00D = false ∧ storesTo .bptcPack 0x013 = false ∧
      (∃ t, exec .bptcCorrect written = .next t) ∧ storesTo .bptcCorrect 0x200 = false ∧
      (∃ t, exec .bptcParity written = .next t) ∧ storesTo .bptcParity 0x283 = false ∧
      (∃ t, exec .ham1393Dec written = .next t) ∧ storesTo .ham1393Dec 0x30D = false :=
  ⟨next_of_goesOn (by decide +kernel), by decide, by decide, next_of_goesOn (by decide +kernel), by decide,
    next_of_goesOn (by decide +kernel), by decide +kernel, next_of_goesOn (by decide +kernel), by decide⟩

/-- Both edges of each part of the neighbouring field. -/
theorem witness_NeighbouringFieldSurvives :
    (∃ t, exec .bptcPack written = .next t) ∧
      ∀ x ∈ [96, 101, 104, 159, 162, 167],
        (x / 8 = 12 ∧ x % 8 ≤ 5) ∨ (13 ≤ x / 8 ∧ x / 8 ≤ 19) ∨ (x / 8 = 20 ∧ 2 ≤ x % 8) :=
  ⟨next_of_goesOn (by decide +kernel), by decide⟩

theorem witness_BptcCommandsIgnoreCodewordRegister :
    isHamming .bptcPack = false ∧ (∃ t, exec .bptcPack written = .next t) ∧ (∃ t, exec .ham1393Enc written = .next t) ∧
      ∃ t, exec .ham15113Enc written = .next t :=
  ⟨rfl, next_of_goesOn (by decide +kernel), next_of_goesOn (by decide +kernel), next_of_goesOn (by decide +kernel)⟩

theorem witness_PassAndFixingAreUnobservable : ∃ t, exec .bptcCorrect written = .next t :=
  next_of_goesOn (by decide +kernel)

/-- Both edges of every clause of R52 and R53. -/
theorem witness_HostWriteStoresOneLocation :
    (0x020 : HostAddr).toNat ≤ 0x020 ∧ 0x040 ≤ (0x040 : HostAddr).toNat ∧ (0x04B : HostAddr).toNat ≤ 0x04B ∧
    0x100 ≤ (0x100 : HostAddr).toNat ∧ (0x1C3 : HostAddr).toNat ≤ 0x1C3 ∧ 0x200 ≤ (0x200 : HostAddr).toNat ∧
    (0x2C3 : HostAddr).toNat ≤ 0x2C3 ∧ 0x300 ≤ (0x300 : HostAddr).toNat ∧ (0x30E : HostAddr).toNat ≤ 0x30E ∧
    (0x3F0 : HostAddr).toNat = 0x3F0 ∧ (0x310 : HostAddr).toNat = 0x310 ∧ (0x3F1 : HostAddr).toNat = 0x3F1 ∧
    ∀ a ∈ [0x021, 0x03F, 0x04C, 0x0FF, 0x1C4, 0x1FF, 0x2C4, 0x2FF, 0x30F, 0x311, 0x3EF, 0x3F2, 0x3FF], reservedOffset a := by
  unfold reservedOffset; decide

/-- Written locations at the edges; and a byte with one bit missing and unwritten cells, under each value of the parameter. -/
theorem witness_HostReadReturnsTheLocation :
    (byteAt written.frame.written 0x020 = 0xFF ∧ byteAt written.payload.written (0x04B - 0x040) = 0xFF ∧
      written.raw.written.getLsbD (0x1C3 - 0x100) = true ∧ written.deint.written.getLsbD (0x2C3 - 0x200) = true ∧
      written.cw.written.getLsbD (0x30E - 0x300) = true) ∧
    byteAt (⟨0, ~~~cellMask 264 263⟩ : Cells 264).written 0x020 ≠ 0xFF ∧
      byteAt strict.payload.written (0x04B - 0x040) ≠ 0xFF ∧ strict.raw.written.getLsbD (0x1C3 - 0x100) = false ∧
      strict.deint.written.getLsbD (0x2C3 - 0x200) = false ∧ strict.cw.written.getLsbD (0x30E - 0x300) = false ∧
      strict.unwrittenRead = .fault ∧ State.reset.cw.written.getLsbD (0x300 - 0x300) = false ∧
      State.reset.unwrittenRead = .draw := by
  decide +kernel

theorem witness_OneBitLocationsUseBitZero :
    (0x100 ≤ (0x1C3 : HostAddr).toNat ∧ (0x1C3 : HostAddr).toNat ≤ 0x1C3) ∧ (∃ t, memRead 0x1C3 written = .next t) ∧
      (0x200 ≤ (0x200 : HostAddr).toNat ∧ (0x200 : HostAddr).toNat ≤ 0x2C3) ∧ (∃ t, memRead 0x200 State.reset = .next t) ∧
      (0x300 ≤ (0x30E : HostAddr).toNat ∧ (0x30E : HostAddr).toNat ≤ 0x30E) ∧ (∃ t, memRead 0x30E written = .next t) ∧
      ((0x310 : HostAddr).toNat = 0x310 ∧ ∃ t, memRead 0x310 strict = .next t) ∧
      (0x1C3 : HostAddr).toNat ≠ 0x310 ∧ (peek written 0x1C3).2 ≠ 0x00 :=
  ⟨by decide, next_of_goesOn (by decide +kernel), by decide, next_of_goesOn (by decide +kernel), by decide,
    next_of_goesOn (by decide +kernel), ⟨by decide, next_of_goesOn (by decide +kernel)⟩, by decide, by decide +kernel⟩

theorem witness_ReadReturnsTheLatestWrite :
    (0x020 : HostAddr).toNat ≤ 0x020 ∧ (0x040 ≤ (0x04B : HostAddr).toNat ∧ (0x04B : HostAddr).toNat ≤ 0x04B) ∧
      (0x100 ≤ (0x1C3 : HostAddr).toNat ∧ (0x1C3 : HostAddr).toNat ≤ 0x1C3) ∧
      (0x200 ≤ (0x2C3 : HostAddr).toNat ∧ (0x2C3 : HostAddr).toNat ≤ 0x2C3) ∧
      (0x300 ≤ (0x30E : HostAddr).toNat ∧ (0x30E : HostAddr).toNat ≤ 0x30E) := by
  decide

/-- A FLIP at the last cell of CW, and one of CORR, with more of the program behind them. -/
theorem witness_FlipInvertsOneBitCell :
    isWritableCell 0x30E = true ∧ (peek written 0x30E).2 = 0x01 ∧
      ({ written with pending := hostProgram [.flip 0x30E, .rdcw] } : State).pending =
        hostProgram [.flip 0x30E] ++ hostProgram [.rdcw] ∧
      ({ written with pending := hostProgram [.flip 0x310, .rdcw] } : State).pending =
        hostProgram [.flip 0x310] ++ hostProgram [.rdcw] := by
  decide +kernel

theorem witness_ByteBitConversions : 0 < 8 ∧ 7 < 8 := by decide
theorem witness_InterleaverPermutation : 0 < 196 ∧ 195 < 196 := by decide
theorem witness_InterleaverIsInvertible : 0 < 196 ∧ 195 < 196 := by decide

/-- Two frames that differ in every FRAME bit that carries no plane bit. -/
theorem witness_FrameToRawLayout :
    (let g : FrameBits := ~~~framePlaneMask
     (∀ n, n ≤ 11 → byteAt g n = byteAt (0 : FrameBits) n) ∧ (∀ n, n ≤ 32 → 21 ≤ n → byteAt g n = byteAt (0 : FrameBits) n) ∧
      byteAt g 12 &&& 0xC0 = byteAt (0 : FrameBits) 12 &&& 0xC0 ∧ byteAt g 20 &&& 0x03 = byteAt (0 : FrameBits) 20 &&& 0x03) ∧
      11 ≤ 11 ∧ 7 ≤ 7 ∧ 21 ≤ 21 ∧ 32 ≤ 32 := by
  decide +kernel

theorem witness_RawToFrameLayout : 11 ≤ 11 ∧ (13 ≤ 13 ∧ 19 ≤ 19) ∧ (21 ≤ 21 ∧ 32 ≤ 32) := by decide

theorem witness_UnpackFillsRawFromFrame :
    Readable written.frame framePlaneMask written ∧ Readable State.reset.frame framePlaneMask State.reset ∧
      ¬ Readable strict.frame framePlaneMask strict ∧
      written.frame.covers framePlaneMask = true ∧ ∃ t, exec .bptcUnpack written = .next t :=
  ⟨written_readable _ _, reset_readable _ _, strict_not_readable _ _ (by decide +kernel), by decide +kernel,
    next_of_goesOn (by decide +kernel)⟩

theorem witness_DeinterleaveFillsDeintFromRaw :
    Readable written.raw (BitVec.allOnes 196) written ∧ Readable State.reset.raw (BitVec.allOnes 196) State.reset :=
  ⟨written_readable _ _, reset_readable _ _⟩

theorem witness_InterleaveFillsRawFromDeint :
    Readable written.deint (BitVec.allOnes 196) written ∧ Readable State.reset.deint (BitVec.allOnes 196) State.reset ∧
      written.raw.covers (BitVec.allOnes 196) = true ∧ written.deint.covers (BitVec.allOnes 196) = true :=
  ⟨written_readable _ _, reset_readable _ _, by decide +kernel, by decide +kernel⟩

theorem witness_PackMergesRawIntoFrame :
    Readable written.raw (BitVec.allOnes 196) written ∧ Readable State.reset.raw (BitVec.allOnes 196) State.reset ∧
      written.frame.covers framePlaneMask = true ∧ 263 < 264 :=
  ⟨written_readable _ _, reset_readable _ _, by decide +kernel, by decide⟩

/-- Words with the syndromes 0, 0x9, 0xB and another, and two words that differ in a parity bit only. -/
theorem witness_Hamming1393Functions :
    syndrome1393 0x12AA = 0x0 ∧ syndrome1393 0x12AC = 0x9 ∧ syndrome1393 (0x12AA ^^^ 0x1800 ^^^ 0x0600) = 0xF ∧
      syndrome1393 (0x12AA ^^^ 0x1600) = 0xB ∧ ∀ i, i < 9 → (0x10AA : Word13).getLsbD i = (0x12AA : Word13).getLsbD i := by
  decide

theorem witness_Hamming1393SyndromeTable :
    syndrome1393 0x12AC = 0x9 ∧ syndrome1393 (0x12AA ^^^ 0x1600) = 0xB ∧ flipPos1393 0xF = some 0 := by
  decide

theorem witness_Hamming15113Functions :
    syndrome15113 0x2123 = 0x0 ∧ syndrome15113 0x2122 = 0x9 ∧
      ∀ i, i < 11 → (0x6123 : Word15).getLsbD i = (0x2123 : Word15).getLsbD i := by
  decide

theorem witness_Hamming15113SyndromeTable : flipPos15113 0x8 = some 14 ∧ (0xF : BitVec 4) ≠ 0 := by decide

theorem witness_HammingCodesAreLinear :
    syndrome1393 0x12AA = 0 ∧ syndrome15113 0x2123 = 0 ∧ 12 < 13 ∧ 14 < 15 := by
  decide

/-- Pairs of errors with the syndromes 0x9 and another. -/
theorem witness_DoubleErrorsAreNeverCorrected :
    (13 < 15 ∧ 14 < 15 ∧ 13 ≠ 14) ∧ syndrome1393 (h1393Enc 0x0AA ^^^ cellMask 13 1 ^^^ cellMask 13 2) = 0x9 ∧
      syndrome1393 (h1393Enc 0x0AA ^^^ cellMask 13 0 ^^^ cellMask 13 1) = 0x8 := by
  decide

/-- CW holds a codeword, an uncorrectable word, and a codeword with its last bit wrong. -/
theorem witness_Ham1393DecCorrectsCw :
    Readable written.cw cw13Mask written ∧ Readable State.reset.cw cw13Mask State.reset ∧
      syndrome1393 ((operand (Cells.full (0x12AA : Word15)) cw13Mask written).setWidth 13) = 0x0 ∧
      syndrome1393 ((operand (Cells.full (0x12AC : Word15)) cw13Mask written).setWidth 13) = 0x9 ∧
      (operand (Cells.full (0x02AA : Word15)) cw13Mask written).setWidth 13 = h1393Enc 0x0AA ^^^ cellMask 13 12 := by
  refine ⟨written_readable _ _, reset_readable _ _, ?_, ?_, ?_⟩ <;>
    rw [(operand_of_covers _ _ _ (full_covers _ _)).1] <;> decide

theorem witness_Ham1393EncWritesParity :
    Readable written.cw cw9Mask written ∧ Readable State.reset.cw cw9Mask State.reset ∧ 3 < 4 ∧ 8 < 9 ∧ 13 ≤ 13 :=
  ⟨written_readable _ _, reset_readable _ _, by decide⟩

theorem witness_Ham15113DecCorrectsCw :
    Readable written.cw cw15Mask written ∧ Readable State.reset.cw cw15Mask State.reset ∧
      operand (Cells.full (0x2120 : Word15)) cw15Mask written = h15113Enc 0x123 ^^^ cellMask 15 0 ^^^ cellMask 15 1 := by
  refine ⟨written_readable _ _, reset_readable _ _, ?_⟩
  rw [(operand_of_covers _ _ _ (full_covers _ _)).1]; decide

theorem witness_Ham15113EncWritesParity :
    Readable written.cw cw11Mask written ∧ Readable State.reset.cw cw11Mask State.reset ∧ 3 < 4 ∧ 10 < 11 :=
  ⟨written_readable _ _, reset_readable _ _, by decide⟩

theorem witness_MatrixViewIsDisjoint :
    (8 < 9 ∧ 0 < 9 ∧ 0 ≠ 8) ∧ (14 < 15 ∧ 0 < 15 ∧ 0 ≠ 14) ∧ (∀ a, a < 13 → 196 ≠ 14 + 1 + 15 * a) ∧
      (1 ≤ 1 ∧ 195 ≤ 195) ∧ 135 ≤ 135 ∧ 3 < 4 ∧ 8 < 9 := by
  decide

theorem witness_ColumnCodeIsShortenedRowCode : 8 < 9 ∧ 3 < 4 := by decide

theorem witness_PayloadPositionsAreTheNineRanges : 1 ≤ 1 ∧ 1 ≤ 8 ∧ 8 ≤ 8 := by decide

/-- The first and last payload bit, and positions just outside ranges. -/
theorem witness_ExtractUndoesPlace :
    (11 < 12 ∧ 7 < 8) ∧ ∀ a ∈ [0, 3, 12, 15, 27, 132, 195], ∀ r ∈ payloadRanges, a < r.1 ∨ r.2 < a := by
  decide

theorem witness_EncodeParityMakesCodewords :
    parityMask.getLsbD 0 = false ∧ parityMask.getLsbD 11 = false ∧ parityMask.getLsbD 131 = false ∧
      (List.range 9).reverse.Perm (List.range 9) ∧ (List.range 15).reverse.Perm (List.range 15) :=
  ⟨by decide +kernel, by decide +kernel, by decide +kernel, List.reverse_perm _, List.reverse_perm _⟩

/-- A plane that one pass leaves, and one that five do not settle. -/
theorem witness_CorrectionStopsAtCleanPassOrFifth :
    (correctPass 0).fixing = false ∧ (correct (cellMask 196 142 ^^^ cellMask 196 157)).2 = 5 ∧ 14 < 15 ∧ 8 < 9 := by
  decide +kernel

theorem witness_CorrectionOrderWithinLoopsIsFree :
    (List.range 15).reverse.Perm (List.range 15) ∧ (List.range 9).reverse.Perm (List.range 9) :=
  ⟨List.reverse_perm _, List.reverse_perm _⟩

/-- The plane of vector E6 is a plane of codewords other than 0. -/
theorem witness_CorrectionDependsOnlyOnTheError :
    CodewordPlane (encodeParity (cellMask 196 4)) ∧ encodeParity (cellMask 196 4) ≠ 0 ∧ 14 < 15 ∧ 8 < 9 := by
  unfold CodewordPlane; decide +kernel

theorem witness_CorrectRepairsDeint :
    Readable written.deint matrixMask written ∧ Readable State.reset.deint matrixMask State.reset ∧
      ¬ Readable strict.deint matrixMask strict ∧ CodewordPlane (encodeParity (cellMask 196 4)) ∧ 1 ≤ 1 ∧ 195 ≤ 195 :=
  ⟨written_readable _ _, reset_readable _ _, strict_not_readable _ _ (by decide +kernel), witness_CorrectionDependsOnlyOnTheError.1, by decide⟩

/-- Two planes that differ only outside the payload positions. -/
theorem witness_ExtractFillsPayload :
    Readable written.deint payloadMask written ∧ Readable State.reset.deint payloadMask State.reset ∧
      ∀ r ∈ payloadRanges, ∀ a, r.1 ≤ a → a ≤ r.2 → (0 : Plane).getLsbD a = (~~~payloadMask).getLsbD a := by
  refine ⟨written_readable _ _, reset_readable _ _, fun r hr a h1 h2 => ?_⟩
  have key : ∀ r ∈ payloadRanges, ∀ a, a < 196 → r.1 ≤ a → a ≤ r.2 → (0 : Plane).getLsbD a = (~~~payloadMask).getLsbD a := by
    decide +kernel
  have hlt : ∀ r ∈ payloadRanges, r.2 < 196 := by decide
  exact key r hr a (Nat.lt_of_le_of_lt h2 (hlt r hr)) h1 h2

theorem witness_PlaceFillsDeint :
    Readable written.payload (BitVec.allOnes 96) written ∧ Readable State.reset.payload (BitVec.allOnes 96) State.reset ∧
      ∀ a ∈ [0, 3, 12, 132, 195], ∀ r ∈ payloadRanges, a < r.1 ∨ r.2 < a :=
  ⟨written_readable _ _, reset_readable _ _, by decide⟩

/-- Both edges of the parity positions, and data positions beside them. -/
theorem witness_ParityFillsParityPositions :
    Readable written.deint rowDataMask written ∧ Readable State.reset.deint rowDataMask State.reset ∧
      (∀ a ∈ [12, 15, 132, 135, 136, 195], a < 196 ∧ (136 ≤ a ∨ ∃ r, r ≤ 8 ∧ 15 * r + 12 ≤ a ∧ a ≤ 15 * r + 15)) ∧
      (∀ a ∈ [0, 1, 11, 16, 131], a < 196 ∧ ¬ (136 ≤ a ∨ ∃ r, r ≤ 8 ∧ 15 * r + 12 ≤ a ∧ a ≤ 15 * r + 15)) ∧
      written.deint.covers rowDataMask = true ∧ ∃ t, exec .bptcParity written = .next t := by
  refine ⟨written_readable _ _, reset_readable _ _, fun a ha => ?_, fun a ha => ?_, by decide +kernel,
    next_of_goesOn (by decide +kernel)⟩
  · have key : ∀ a ∈ [12, 15, 132, 135, 136, 195], a < 196 ∧ (136 ≤ a ∨ (15 * ((a - 1) / 15) + 12 ≤ a ∧ (a - 1) / 15 ≤ 8)) := by
      decide
    obtain ⟨h1, h2 | h2⟩ := key a ha
    · exact ⟨h1, Or.inl h2⟩
    · exact ⟨h1, Or.inr ⟨(a - 1) / 15, h2.2, h2.1, by omega⟩⟩
  · have key : ∀ a ∈ [0, 1, 11, 16, 131], a < 132 ∧ (a = 0 ∨ (a - 1) % 15 < 11) := by decide
    have := key a ha
    exact ⟨by omega, by rintro (h | ⟨r, h1, h2, h3⟩) <;> omega⟩

theorem witness_DecDecodesFrame :
    Readable written.frame framePlaneMask written ∧ Readable State.reset.frame framePlaneMask State.reset :=
  ⟨written_readable _ _, reset_readable _ _⟩

theorem witness_EncEncodesPayload :
    Readable written.payload (BitVec.allOnes 96) written ∧ Readable State.reset.payload (BitVec.allOnes 96) State.reset ∧
      263 < 264 :=
  ⟨written_readable _ _, reset_readable _ _, by decide⟩

theorem witness_EncodeThenDecodeRecoversPayload :
    Readable written.payload (BitVec.allOnes 96) written ∧ Readable State.reset.payload (BitVec.allOnes 96) State.reset :=
  ⟨written_readable _ _, reset_readable _ _⟩

theorem witness_SingleBitErrorIsCorrected :
    (195 < 196 ∧ ∃ t, exec .bptcEnc written = .next t) ∧ (∃ u, exec .bptcDec written = .next u) ∧
      ∀ x ∈ [96, 101, 104, 159, 162, 167],
        (x / 8 = 12 ∧ x % 8 ≤ 5) ∨ (13 ≤ x / 8 ∧ x / 8 ≤ 19) ∨ (x / 8 = 20 ∧ 2 ≤ x % 8) :=
  ⟨⟨by decide, next_of_goesOn (by decide +kernel)⟩, next_of_goesOn (by decide +kernel), by decide⟩

theorem witness_WeightOneErrorsTakeTwoPasses : 0 < 196 ∧ 195 < 196 := by decide

end Sys2Proof.Tests
end

section
/-! SUPPORT. The host port, one location at a time (spec/20_memory.md R51 to R53, R58): which location an offset names, what a
write leaves in a byte or a cell, and what a read of it answers; then the statements of the host port that rest on these. -/

namespace Sys2Proof.Machine

/-! `locate`, range by range (R51). -/

section Locate

variable {a : HostAddr}

theorem locate_of_frame_offset (h : a.toNat ≤ 0x020) : locate a = .frame a.toNat := by
  simp [locate, h]

theorem locate_of_payload_offset (lo : 0x040 ≤ a.toNat) (hi : a.toNat ≤ 0x04B) :
    locate a = .payload (a.toNat - 0x040) := by
  have h1 : ¬ a.toNat ≤ 0x020 := by omega
  simp [locate, h1, lo, hi]

theorem locate_of_raw_offset (lo : 0x100 ≤ a.toNat) (hi : a.toNat ≤ 0x1C3) : locate a = .raw (a.toNat - 0x100) := by
  have h1 : ¬ a.toNat ≤ 0x020 := by omega
  have h2 : ¬ a.toNat ≤ 0x04B := by omega
  simp [locate, h1, h2, lo, hi]

theorem locate_of_deint_offset (lo : 0x200 ≤ a.toNat) (hi : a.toNat ≤ 0x2C3) :
    locate a = .deint (a.toNat - 0x200) := by
  have h1 : ¬ a.toNat ≤ 0x020 := by omega
  have h2 : ¬ a.toNat ≤ 0x04B := by omega
  have h3 : ¬ a.toNat ≤ 0x1C3 := by omega
  simp [locate, h1, h2, h3, lo, hi]

theorem locate_of_cw_offset (lo : 0x300 ≤ a.toNat) (hi : a.toNat ≤ 0x30E) : locate a = .cw (a.toNat - 0x300) := by
  have h1 : ¬ a.toNat ≤ 0x020 := by omega
  have h2 : ¬ a.toNat ≤ 0x04B := by omega
  have h3 : ¬ a.toNat ≤ 0x1C3 := by omega
  have h4 : ¬ a.toNat ≤ 0x2C3 := by omega
  simp [locate, h1, h2, h3, h4, lo, hi]

theorem locate_of_corr_offset (h : a.toNat = 0x310) : locate a = .corr := by
  simp [locate, h]

theorem locate_of_cmd_offset (h : a.toNat = 0x3F0) : locate a = .cmd := by
  simp [locate, h]

theorem locate_of_status_offset (h : a.toNat = 0x3F1) : locate a = .status := by
  simp [locate, h]

/-- The ranges that R51 calls reserved meet no other location's (R54). -/
theorem locate_of_reservedOffset (h : reservedOffset a.toNat) : locate a = .reserved := by
  unfold reservedOffset at h
  rcases locate_cases a with ⟨n, -, hn, ha⟩ | ⟨n, -, hn, ha⟩ | ⟨i, -, hi, ha⟩ | ⟨i, -, hi, ha⟩ | ⟨i, -, hi, ha⟩ |
    ⟨-, ha⟩ | ⟨-, ha⟩ | ⟨-, ha⟩ | hr
  rotate_right
  · exact hr
  all_goals omega

end Locate

/-! Writing one byte of a buffer, or one cell of a file, and reading it back (R52). -/

section Put

variable {n : Nat} (c : Cells n) (v : Byte)

/-- The mask of byte `k` holds all eight of its bits. -/
theorem getLsbD_byteMask_of_lt {k b : Nat} (hk : 8 * k + 8 ≤ n) (hb : b < 8) :
    (byteMask n k).getLsbD (8 * k + b) = true := by
  rw [getLsbD_byteMask, decide_eq_true (by omega), decide_eq_true (by omega), Bool.true_and]

/-- The byte written is the byte there. -/
theorem byteAt_put_byte_val {k : Nat} (hk : 8 * k + 8 ≤ n) :
    byteAt (c.put (byteMask n k) (byteTo n k v)).val k = v := by
  apply BitVec.eq_of_getLsbD_eq
  intro b hb
  have hn : 8 * k + b < n := by omega
  have hdiv : (8 * k + b) / 8 = k := by omega
  have hmod : (8 * k + b) % 8 = b := by omega
  rw [getLsbD_byteAt, getLsbD_put_val, getLsbD_byteMask_of_lt hk hb, getLsbD_byteTo, hmod]
  simp [hb, hn, hdiv]

/-- All eight of its bits are written. -/
theorem byteAt_put_byte_written {k : Nat} (hk : 8 * k + 8 ≤ n) :
    byteAt (c.put (byteMask n k) (byteTo n k v)).written k = 0xFF := by
  rw [byte_eq_ff]
  intro b hb
  rw [getLsbD_byteAt, getLsbD_put_written, getLsbD_byteMask_of_lt hk hb]
  simp [hb]

/-- Every other byte keeps its value and its written state. -/
theorem byteAt_put_byte_ne {j k : Nat} (h : j ≠ k) :
    byteAt (c.put (byteMask n k) (byteTo n k v)).val j = byteAt c.val j ∧
      byteAt (c.put (byteMask n k) (byteTo n k v)).written j = byteAt c.written j := by
  have outside {b : Nat} (hb : b < 8) : (byteMask n k).getLsbD (8 * j + b) = false := by
    have hdiv : (8 * j + b) / 8 ≠ k := by omega
    simp [getLsbD_byteMask, hdiv]
  constructor <;> apply BitVec.eq_of_getLsbD_eq <;> intro b hb
  · rw [getLsbD_byteAt, getLsbD_byteAt, getLsbD_put_val, outside hb]
    rfl
  · rw [getLsbD_byteAt, getLsbD_byteAt, getLsbD_put_written, outside hb, Bool.or_false]

/-- The cell takes data bit 0 (R58). -/
theorem getLsbD_put_cell_val {i : Nat} (hi : i < n) :
    (c.put (cellMask n i) (cellTo n i v)).val.getLsbD i = v.getLsbD 0 := by
  rw [getLsbD_put_val, getLsbD_cellMask, getLsbD_cellTo]
  simp [hi]

/-- The cell is written. -/
theorem getLsbD_put_cell_written {i : Nat} (hi : i < n) :
    (c.put (cellMask n i) (cellTo n i v)).written.getLsbD i = true := by
  simp [hi]

/-- Every other cell keeps its value and its written state. -/
theorem getLsbD_put_cell_ne {i j : Nat} (h : j ≠ i) :
    (c.put (cellMask n i) (cellTo n i v)).val.getLsbD j = c.val.getLsbD j ∧
      (c.put (cellMask n i) (cellTo n i v)).written.getLsbD j = c.written.getLsbD j := by
  simp [h]

end Put

/-! `memWrite`, by location (R52). -/

/-- A write anywhere but to CMD is a store. -/
theorem memWrite_of_ne_cmd {a : HostAddr} {l : Location} {v : Byte} {s : State} (ha : locate a = l) (hl : l ≠ .cmd) :
    memWrite a v s = .next (storeAt l v s) := by
  subst ha
  unfold memWrite
  split
  · contradiction
  · rfl

/-- A write to CMD runs the word (R27). -/
theorem memWrite_of_cmd {a : HostAddr} {v : Byte} {s : State} (ha : locate a = .cmd) :
    memWrite a v s = executeWord v s := by
  simp only [memWrite, ha]

/-- Settles O20: each location's write, from its range in the map and from what one byte or one cell keeps when another is
written. -/
theorem hostWriteStoresOneLocation : Obligations.HostWriteStoresOneLocation := by
  unfold Obligations.HostWriteStoresOneLocation
  intro addr v s
  refine ⟨fun hi => ?frame, fun lo hi => ?payload, fun lo hi => ?raw, fun lo hi => ?deint, fun lo hi => ?cw,
    fun h => memWrite_of_cmd (locate_of_cmd_offset h), ?ignored⟩
  case frame =>
    have hk : 8 * addr.toNat + 8 ≤ 264 := by omega
    exact ⟨_, memWrite_of_ne_cmd (locate_of_frame_offset hi) nofun, rfl, byteAt_put_byte_val _ _ hk,
      byteAt_put_byte_written _ _ hk, fun _ => byteAt_put_byte_ne _ _⟩
  case payload =>
    have hk : 8 * (addr.toNat - 0x040) + 8 ≤ 96 := by omega
    exact ⟨_, memWrite_of_ne_cmd (locate_of_payload_offset lo hi) nofun, rfl, byteAt_put_byte_val _ _ hk,
      byteAt_put_byte_written _ _ hk, fun _ => byteAt_put_byte_ne _ _⟩
  case raw =>
    have hk : addr.toNat - 0x100 < 196 := by omega
    exact ⟨_, memWrite_of_ne_cmd (locate_of_raw_offset lo hi) nofun, rfl, getLsbD_put_cell_val _ _ hk,
      getLsbD_put_cell_written _ _ hk, fun _ => getLsbD_put_cell_ne _ _⟩
  case deint =>
    have hk : addr.toNat - 0x200 < 196 := by omega
    exact ⟨_, memWrite_of_ne_cmd (locate_of_deint_offset lo hi) nofun, rfl, getLsbD_put_cell_val _ _ hk,
      getLsbD_put_cell_written _ _ hk, fun _ => getLsbD_put_cell_ne _ _⟩
  case cw =>
    have hk : addr.toNat - 0x300 < 15 := by omega
    exact ⟨_, memWrite_of_ne_cmd (locate_of_cw_offset lo hi) nofun, rfl, getLsbD_put_cell_val _ _ hk,
      getLsbD_put_cell_written _ _ hk, fun _ => getLsbD_put_cell_ne _ _⟩
  case ignored =>
    rintro (h | h | h)
    · exact memWrite_of_ne_cmd (locate_of_reservedOffset h) nofun
    · exact memWrite_of_ne_cmd (locate_of_corr_offset h) nofun
    · exact memWrite_of_ne_cmd (locate_of_status_offset h) nofun

/-! What a read of one byte or one cell answers (R34, R53). -/

/-- The byte of a one-bit location is its cell, zero extended (`zext_8` of R53). -/
theorem bitByte_eq_setWidth (b : Bool) : bitByte b = (BitVec.ofBool b).setWidth 8 := by
  cases b <;> rfl

/-- It has bits `[7:1]` 0. -/
theorem bitByte_and_fe (b : Bool) : bitByte b &&& 0xFE = 0 := by
  cases b <;> rfl

/-- It is 0 for a cell that is 0. -/
theorem eq_true_of_bitByte_ne_zero {b : Bool} (h : bitByte b ≠ 0x00) : b = true := by
  cases b
  · exact absurd rfl h
  · rfl

/-- Keeping data bit 0 alone gives the byte of a one-bit location (R58). -/
theorem and_one_eq_bitByte (v : Byte) : v &&& 0x01 = bitByte (v.getLsbD 0) := by
  rw [bitByte_eq_setWidth]
  exact BitVec.and_one_eq_setWidth_ofBool_getLsbD

/-- How a load that meets an unwritten cell in `s` goes: it faults, or it answers some byte and counts a draw (R34). -/
def FollowsUnwrittenRead (s : State) (x : Result (Byte × State)) : Prop :=
  (s.unwrittenRead = .fault → ∃ e, x = .fault e) ∧
  (s.unwrittenRead = .draw → ∃ v k, x = .next (v, { s with draws := k }))

section Read

variable {n : Nat} (f : CellFile) {c : Cells n} {s : State}

/-- Cells of which one is unwritten can be read exactly under `draw`; what is then read decides the byte. -/
theorem followsUnwrittenRead_of_not_covers {m : BitVec n} {g : BitVec n × State → Result (Byte × State)}
    (hc : ¬ c.covers m = true) (hg : ∀ v t, ∃ b, g (v, t) = .next (b, t)) :
    FollowsUnwrittenRead s (andThen (readCells f c m s) g) := by
  constructor
  · intro hf
    have hr : ¬ Readable c m s := by simp [Readable, hc, hf]
    exact ⟨_, andThen_readCells_fault g hr⟩
  · intro hd
    rw [andThen_readCells g (.inr hd)]
    obtain ⟨b, hb⟩ := hg (operand c m s) { s with draws := drawsAfter c m s }
    exact ⟨b, _, hb⟩

/-- A byte with its eight bits written is read as it stands. -/
theorem readByteAt_of_written {k : Nat} (hk : 8 * k + 8 ≤ n) (hw : byteAt c.written k = 0xFF) :
    readByteAt f c k s = .next (byteAt c.val k, s) := by
  have hc := (covers_byteMask hk).2 hw
  obtain ⟨hop, hdraws⟩ := operand_of_covers c (byteMask n k) s hc
  have hbyte : byteAt (operand c (byteMask n k) s) k = byteAt c.val k := by
    apply BitVec.eq_of_getLsbD_eq
    intro b hb
    rw [hop, getLsbD_byteAt, getLsbD_byteAt, BitVec.getLsbD_and, getLsbD_byteMask_of_lt hk hb, Bool.and_true]
  calc readByteAt f c k s
      = .next (byteAt (operand c (byteMask n k) s) k, { s with draws := drawsAfter c (byteMask n k) s }) :=
        andThen_readCells _ (.inl hc)
    _ = .next (byteAt c.val k, s) := by rw [hbyte, hdraws]

/-- A byte with a bit unwritten follows `UNWRITTEN_READ` (R53). -/
theorem readByteAt_of_unwritten {k : Nat} (hk : 8 * k + 8 ≤ n) (hw : byteAt c.written k ≠ 0xFF) :
    FollowsUnwrittenRead s (readByteAt f c k s) :=
  followsUnwrittenRead_of_not_covers f (mt (covers_byteMask hk).1 hw) fun _ _ => ⟨_, rfl⟩

/-- A written cell is read as it stands, in bit 0. -/
theorem readCellAt_of_written {i : Nat} (hi : i < n) (hw : c.written.getLsbD i = true) :
    readCellAt f c i s = .next (bitByte (c.val.getLsbD i), s) := by
  have hc := (covers_cellMask hi).2 hw
  obtain ⟨hop, hdraws⟩ := operand_of_covers c (cellMask n i) s hc
  have hbit : (operand c (cellMask n i) s).getLsbD i = c.val.getLsbD i := by
    rw [hop, BitVec.getLsbD_and, getLsbD_cellMask]
    simp [hi]
  calc readCellAt f c i s
      = .next (bitByte ((operand c (cellMask n i) s).getLsbD i),
          { s with draws := drawsAfter c (cellMask n i) s }) := andThen_readCells _ (.inl hc)
    _ = .next (bitByte (c.val.getLsbD i), s) := by rw [hbit, hdraws]

/-- An unwritten cell follows `UNWRITTEN_READ`. -/
theorem readCellAt_of_unwritten {i : Nat} (hi : i < n) (hw : c.written.getLsbD i = false) :
    FollowsUnwrittenRead s (readCellAt f c i s) :=
  followsUnwrittenRead_of_not_covers f (mt (covers_cellMask hi).1 (by simp [hw])) fun _ _ => ⟨_, rfl⟩

/-- Whatever the read of a cell answers has bits `[7:1]` 0, and is the cell's value if the cell is written (R58). -/
theorem readCellAt_answer {i : Nat} {r : Byte} {t : State} (hi : i < n) (h : readCellAt f c i s = .next (r, t)) :
    r &&& 0xFE = 0 ∧ (bitByte (c.written.getLsbD i) ≠ 0x00 → r = bitByte (c.val.getLsbD i)) := by
  constructor
  · obtain ⟨⟨v, u⟩, -, hr⟩ := andThen_eq_next.1 h
    obtain ⟨rfl, -⟩ := Prod.mk.inj (Host.Outcome.next.inj hr)
    exact bitByte_and_fe _
  · intro hw
    rw [readCellAt_of_written f hi (eq_true_of_bitByte_ne_zero hw)] at h
    exact (Prod.mk.inj (Host.Outcome.next.inj h)).1.symm

end Read

/-! `memRead`, from what the load at its location answers (R53, R86). -/

/-- The byte loaded is added to the host's results. -/
theorem memRead_of_loadAt {a : HostAddr} {l : Location} {s t : State} {v : Byte} (ha : locate a = l)
    (h : loadAt l s = .next (v, t)) : memRead a s = .next { t with results := t.results ++ [v] } := by
  rw [memRead, ha, h, andThen_next]

/-- A host read of a location that is not wholly written: only the results and the draws can change. -/
theorem memRead_of_followsUnwrittenRead {a : HostAddr} {l : Location} {s : State} (ha : locate a = l)
    (h : FollowsUnwrittenRead s (loadAt l s)) :
    (s.unwrittenRead = .fault → ∃ e, memRead a s = .fault e) ∧
    (s.unwrittenRead = .draw →
      ∃ t v, memRead a s = .next t ∧ t = { s with results := s.results ++ [v], draws := t.draws }) := by
  obtain ⟨hfault, hdraw⟩ := h
  constructor
  · intro hf
    obtain ⟨e, he⟩ := hfault hf
    exact ⟨e, by rw [memRead, ha, he, andThen_fault]⟩
  · intro hd
    obtain ⟨v, k, hv⟩ := hdraw hd
    exact ⟨_, v, memRead_of_loadAt ha hv, rfl⟩

/-- Settles O21: each location's read, from its range in the map and from whether its byte or cell is written. -/
theorem hostReadReturnsTheLocation : Obligations.HostReadReturnsTheLocation := by
  unfold Obligations.HostReadReturnsTheLocation
  intro addr s
  simp only [← bitByte_eq_setWidth]
  refine ⟨fun hi hw => ?frame, fun lo hi hw => ?payload, fun lo hi hw => ?raw, fun lo hi hw => ?deint,
    fun lo hi hw => ?cw, fun h => ?corr, fun h => ?status, ?zero, ?unwritten⟩
  case frame => exact memRead_of_loadAt (locate_of_frame_offset hi) (readByteAt_of_written _ (by omega) hw)
  case payload => exact memRead_of_loadAt (locate_of_payload_offset lo hi) (readByteAt_of_written _ (by omega) hw)
  case raw => exact memRead_of_loadAt (locate_of_raw_offset lo hi) (readCellAt_of_written _ (by omega) hw)
  case deint => exact memRead_of_loadAt (locate_of_deint_offset lo hi) (readCellAt_of_written _ (by omega) hw)
  case cw => exact memRead_of_loadAt (locate_of_cw_offset lo hi) (readCellAt_of_written _ (by omega) hw)
  case corr => exact memRead_of_loadAt (locate_of_corr_offset h) rfl
  case status =>
    rw [← and_one_eq_bitByte]
    exact memRead_of_loadAt (locate_of_status_offset h) rfl
  case zero =>
    rintro (h | h)
    · exact memRead_of_loadAt (locate_of_reservedOffset h) rfl
    · exact memRead_of_loadAt (locate_of_cmd_offset h) rfl
  case unwritten =>
    rintro (⟨hi, hw⟩ | ⟨lo, hi, hw⟩ | ⟨lo, hi, hw⟩ | ⟨lo, hi, hw⟩ | ⟨lo, hi, hw⟩)
    · exact memRead_of_followsUnwrittenRead (locate_of_frame_offset hi) (readByteAt_of_unwritten _ (by omega) hw)
    · exact memRead_of_followsUnwrittenRead (locate_of_payload_offset lo hi) (readByteAt_of_unwritten _ (by omega) hw)
    · exact memRead_of_followsUnwrittenRead (locate_of_raw_offset lo hi) (readCellAt_of_unwritten _ (by omega) hw)
    · exact memRead_of_followsUnwrittenRead (locate_of_deint_offset lo hi) (readCellAt_of_unwritten _ (by omega) hw)
    · exact memRead_of_followsUnwrittenRead (locate_of_cw_offset lo hi) (readCellAt_of_unwritten _ (by omega) hw)

/-! The one-bit locations (R58). -/

/-- A cell takes data bit 0 alone. -/
theorem cellTo_and_one (n i : Nat) (v : Byte) : cellTo n i (v &&& 0x01) = cellTo n i v := by
  simp [cellTo]

/-- The one-bit locations, by offset. -/
theorem locate_of_oneBit_offset {a : HostAddr}
    (h : (0x100 ≤ a.toNat ∧ a.toNat ≤ 0x1C3) ∨ (0x200 ≤ a.toNat ∧ a.toNat ≤ 0x2C3) ∨
      (0x300 ≤ a.toNat ∧ a.toNat ≤ 0x30E) ∨ a.toNat = 0x310) :
    (∃ i, i < 196 ∧ locate a = .raw i) ∨ (∃ i, i < 196 ∧ locate a = .deint i) ∨ (∃ i, i < 15 ∧ locate a = .cw i) ∨
      (a.toNat = 0x310 ∧ locate a = .corr) := by
  rcases h with ⟨lo, hi⟩ | ⟨lo, hi⟩ | ⟨lo, hi⟩ | h
  · exact .inl ⟨_, by omega, locate_of_raw_offset lo hi⟩
  · exact .inr (.inl ⟨_, by omega, locate_of_deint_offset lo hi⟩)
  · exact .inr (.inr (.inl ⟨_, by omega, locate_of_cw_offset lo hi⟩))
  · exact .inr (.inr (.inr ⟨h, locate_of_corr_offset h⟩))

/-- What `peek` sees of a cell just stored: data bit 0, and that it is written. -/
theorem peek_put_cell {n : Nat} (c : Cells n) (v : Byte) {i : Nat} (hi : i < n) :
    (bitByte ((c.put (cellMask n i) (cellTo n i v)).val.getLsbD i),
      bitByte ((c.put (cellMask n i) (cellTo n i v)).written.getLsbD i)) = (v &&& 0x01, 0x01) := by
  rw [getLsbD_put_cell_val c v hi, getLsbD_put_cell_written c v hi, and_one_eq_bitByte]
  rfl

/-- Settles O22: the four one-bit locations, from what a cell takes of a byte and what a read of a cell can answer. -/
theorem oneBitLocationsUseBitZero : Obligations.OneBitLocationsUseBitZero := by
  unfold Obligations.OneBitLocationsUseBitZero
  intro addr v s h
  have hloc := locate_of_oneBit_offset h
  refine ⟨?ignores, fun hne => ?stores, fun t ht => ?reads⟩
  case ignores =>
    rcases hloc with ⟨i, -, ha⟩ | ⟨i, -, ha⟩ | ⟨i, -, ha⟩ | ⟨-, ha⟩ <;>
      rw [memWrite_of_ne_cmd ha nofun, memWrite_of_ne_cmd ha nofun] <;>
      simp only [storeAt, cellTo_and_one]
  case stores =>
    rcases hloc with ⟨i, hi, ha⟩ | ⟨i, hi, ha⟩ | ⟨i, hi, ha⟩ | ⟨hc, -⟩
    · exact ⟨_, memWrite_of_ne_cmd ha nofun, by rw [peek, ha]; exact peek_put_cell s.raw v hi⟩
    · exact ⟨_, memWrite_of_ne_cmd ha nofun, by rw [peek, ha]; exact peek_put_cell s.deint v hi⟩
    · exact ⟨_, memWrite_of_ne_cmd ha nofun, by rw [peek, ha]; exact peek_put_cell s.cw v hi⟩
    · exact absurd hc hne
  case reads =>
    obtain ⟨r, k, hr, rfl⟩ := memRead_cases ht
    refine ⟨r, rfl, ?_⟩
    rcases hloc with ⟨i, hi, ha⟩ | ⟨i, hi, ha⟩ | ⟨i, hi, ha⟩ | ⟨-, ha⟩ <;> rw [ha] at hr <;> rw [peek, ha]
    · exact readCellAt_answer .raw hi hr
    · exact readCellAt_answer .deint hi hr
    · exact readCellAt_answer .cw hi hr
    · obtain ⟨rfl, -⟩ := Prod.mk.inj (Host.Outcome.next.inj hr)
      exact ⟨bitByte_and_fe s.corr, fun _ => rfl⟩

end Sys2Proof.Machine
end

section
/-! SUPPORT. Bit planes, frame packing and the interleaver, bit by bit and byte by byte
(spec/40_bitplane_interleaver.md R100 to R109); then the statements about these pure functions. -/

namespace Sys2Proof.Machine

/-! Bytes and bits (R100, R101). -/

theorem getLsbD_bytesToBitsBE (v : Byte) {k : Nat} (hk : k < 8) : (bytesToBitsBE v).getLsbD k = v.getLsbD (7 - k) := by
  rw [bytesToBitsBE, getLsbD_ofBits, decide_eq_true hk, Bool.true_and]

theorem getLsbD_bitsToByteBE (b : Byte) {x : Nat} (hx : x < 8) : (bitsToByteBE b).getLsbD x = b.getLsbD (7 - x) := by
  rw [bitsToByteBE, getLsbD_ofBits, decide_eq_true hx, Bool.true_and]

theorem bitsToByteBE_bytesToBitsBE (v : Byte) : bitsToByteBE (bytesToBitsBE v) = v := by
  apply BitVec.eq_of_getLsbD_eq
  intro x hx
  have hx' : 7 - x < 8 := by omega
  have hxx : 7 - (7 - x) = x := by omega
  rw [getLsbD_bitsToByteBE _ hx, getLsbD_bytesToBitsBE _ hx', hxx]

/-- The value built from bits is the sum of the bits, each at its place. -/
theorem toNat_ofBits (n : Nat) (f : Nat → Bool) :
    (ofBits n f).toNat = ((List.range n).map fun i => (f i).toNat <<< i).sum := by
  induction n with
  | zero => rfl
  | succ n ih =>
    rw [ofBits, BitVec.toNat_cons', ih, List.range_succ, List.map_append, List.sum_append, List.map_singleton,
      List.sum_singleton, Nat.add_comm]

/-- The sum of R101: the bits of the byte from bit 7 down. -/
theorem toNat_bitsToByteBE (b : Byte) :
    (bitsToByteBE b).toNat = ((List.range 8).map fun k => (b.getLsbD k).toNat <<< (7 - k)).sum := by
  have hrev : ((List.range 8).map fun x => (b.getLsbD (7 - x)).toNat <<< x) =
      ((List.range 8).map fun k => (b.getLsbD k).toNat <<< (7 - k)).reverse := rfl
  rw [bitsToByteBE, toNat_ofBits, hrev, List.sum_reverse]

/-- Settles O25. -/
theorem byteBitConversions : Obligations.ByteBitConversions :=
  ⟨fun v _ => getLsbD_bytesToBitsBE v, toNat_bitsToByteBE, bitsToByteBE_bytesToBitsBE⟩

/-! The interleaver permutation (R102): `181 * 13 = 12 * 196 + 1`. -/

theorem interleaveInv_interleavePos {a : Nat} (h : a < 196) : interleaveInv (interleavePos a) = a := by
  simp only [interleaveInv, interleavePos, Config.interleaveMult, Config.interleaveInverse, Config.planeLen]
  omega

theorem interleavePos_interleaveInv {i : Nat} (h : i < 196) : interleavePos (interleaveInv i) = i := by
  simp only [interleaveInv, interleavePos, Config.interleaveMult, Config.interleaveInverse, Config.planeLen]
  omega

/-- Settles O26: the two formulas as defined, and the inverses by the arithmetic of R102. -/
theorem interleaverPermutation : Obligations.InterleaverPermutation :=
  ⟨fun a _ => ⟨rfl, interleavePos_lt a⟩, fun _ _ => rfl, fun _ => interleaveInv_interleavePos,
    fun _ => interleavePos_interleaveInv, rfl, rfl, rfl, rfl⟩

/-! `Interleave` and `Deinterleave` (R103 to R105). -/

theorem getLsbD_interleave_interleavePos (d : Plane) {a : Nat} (h : a < 196) :
    (interleave d).getLsbD (interleavePos a) = d.getLsbD a := by
  rw [getLsbD_interleave, decide_eq_true (interleavePos_lt a), Bool.true_and, interleaveInv_interleavePos h]

theorem interleave_deinterleave (r : Plane) : interleave (deinterleave r) = r := by
  apply BitVec.eq_of_getLsbD_eq
  intro i hi
  rw [getLsbD_interleave, getLsbD_deinterleave, interleavePos_interleaveInv hi]
  simp [hi, interleaveInv_lt]

theorem deinterleave_interleave (d : Plane) : deinterleave (interleave d) = d := by
  apply BitVec.eq_of_getLsbD_eq
  intro a ha
  rw [getLsbD_deinterleave, getLsbD_interleave_interleavePos d ha, decide_eq_true ha, Bool.true_and]

/-- Settles O27: both permutations cell by cell, and the inverses from those of the positions. -/
theorem interleaverIsInvertible : Obligations.InterleaverIsInvertible := by
  refine ⟨fun r a ha => ?deinterleave, fun d a => getLsbD_interleave_interleavePos d, fun d i hi => ?interleave,
    interleave_deinterleave, deinterleave_interleave⟩
  case deinterleave => rw [getLsbD_deinterleave, decide_eq_true ha, Bool.true_and]
  case interleave => rw [getLsbD_interleave, decide_eq_true hi, Bool.true_and]

/-! The place of each plane bit in FRAME, and the plane bit of each FRAME bit (R108, R109). -/

theorem frameHome_of_rawInFrame {n b i : Nat} (hn : n ≤ 32) (hb : b < 8) (h : rawInFrame n b = some i) :
    i < 196 ∧ frameHome i = (n, b) := by
  have hdiv : (8 * n + b) / 8 = n := by omega
  have hmod : (8 * n + b) % 8 = b := by omega
  have hx := frameHome_rawInFrame (8 * n + b) (by omega) i
  rw [hdiv, hmod] at hx
  exact hx h

/-- The table after R109: which (byte, bit) pairs carry plane bits. -/
theorem frameHome_cases {i : Nat} (h : i < 196) :
    ((frameHome i).1 ≤ 11 ∨ (21 ≤ (frameHome i).1 ∧ (frameHome i).1 ≤ 32)) ∨
      (frameHome i = (12, 7) ∨ frameHome i = (12, 6)) ∨ (frameHome i = (20, 1) ∨ frameHome i = (20, 0)) := by
  revert i; decide +kernel

theorem rawInFrame_low {n : Nat} (hn : n ≤ 11) (b : Nat) : rawInFrame n b = some (8 * n + (7 - b)) := by
  have h : n < 12 := by omega
  simp [rawInFrame, h]

theorem rawInFrame_middle {n : Nat} (lo : 13 ≤ n) (hi : n ≤ 19) (b : Nat) : rawInFrame n b = none := by
  have h1 : ¬ n < 12 := by omega
  have h2 : n ≠ 12 := by omega
  have h3 : n < 20 := by omega
  simp [rawInFrame, h1, h2, h3]

theorem rawInFrame_high {n : Nat} (lo : 21 ≤ n) (hi : n ≤ 32) (b : Nat) :
    rawInFrame n b = some (100 + 8 * (n - 21) + (7 - b)) := by
  have h1 : ¬ n < 12 := by omega
  have h2 : n ≠ 12 := by omega
  have h3 : ¬ n < 20 := by omega
  have h4 : n ≠ 20 := by omega
  simp [rawInFrame, h1, h2, h3, h4, hi]

/-! `FrameToRaw` (R108). -/

/-- A raw bit is the bit of its frame byte. -/
theorem getLsbD_frameToRaw_byteAt (f : FrameBits) {i : Nat} (h : i < 196) :
    (frameToRaw f).getLsbD i = (byteAt f (frameHome i).1).getLsbD (frameHome i).2 := by
  obtain ⟨-, -, hb⟩ := rawInFrame_frameHome i h
  rw [getLsbD_frameToRaw, getLsbD_byteAt, decide_eq_true h, decide_eq_true hb]

/-- Two frames with the same plane-carrying bits have the same raw plane. -/
theorem frameToRaw_congr {f g : FrameBits}
    (h : ∀ i, i < 196 → (byteAt g (frameHome i).1).getLsbD (frameHome i).2 =
      (byteAt f (frameHome i).1).getLsbD (frameHome i).2) : frameToRaw g = frameToRaw f := by
  apply BitVec.eq_of_getLsbD_eq
  intro i hi
  rw [getLsbD_frameToRaw_byteAt g hi, getLsbD_frameToRaw_byteAt f hi, h i hi]

/-- Bytes that agree under a mask agree at each of its bits. -/
theorem getLsbD_eq_of_and_eq {u v m : Byte} (h : u &&& m = v &&& m) {b : Nat} (hb : m.getLsbD b = true) :
    u.getLsbD b = v.getLsbD b := by
  have hbit := congrArg (fun w => BitVec.getLsbD w b) h
  simpa only [BitVec.getLsbD_and, hb, Bool.and_true] using hbit

/-- A FRAME bit that carries plane bit `i` is what `FrameToRaw` puts there. -/
theorem getLsbD_frameToRaw_of_rawInFrame (f : FrameBits) {n b i : Nat} (hn : n ≤ 32) (hb : b < 8)
    (h : rawInFrame n b = some i) : (frameToRaw f).getLsbD i = (byteAt f n).getLsbD b := by
  obtain ⟨hi, hhome⟩ := frameHome_of_rawInFrame hn hb h
  rw [getLsbD_frameToRaw_byteAt f hi, hhome]

/-- Settles O28: each raw bit from its place, and every place lies in a byte or under a mask that the rule names. -/
theorem frameToRawLayout : Obligations.FrameToRawLayout := by
  intro f
  have bit {n b i : Nat} := getLsbD_frameToRaw_of_rawInFrame f (n := n) (b := b) (i := i)
  refine ⟨fun n k hn hk => ?low, bit (by decide) (by decide) rfl, bit (by decide) (by decide) rfl,
    bit (by decide) (by decide) rfl, bit (by decide) (by decide) rfl, fun n k lo hi hk => ?high,
    fun g hwhole h12 h20 => frameToRaw_congr fun i hi => ?congr⟩
  case low => exact bit (by omega) (by omega) (by rw [rawInFrame_low hn, Nat.sub_sub_self hk])
  case high => exact bit hi (by omega) (by rw [rawInFrame_high lo hi, Nat.sub_sub_self hk])
  case congr =>
    rcases frameHome_cases hi with hn | (h | h) | (h | h)
    · rw [hwhole _ hn]
    all_goals rw [h]
    · exact getLsbD_eq_of_and_eq h12 (by decide)
    · exact getLsbD_eq_of_and_eq h12 (by decide)
    · exact getLsbD_eq_of_and_eq h20 (by decide)
    · exact getLsbD_eq_of_and_eq h20 (by decide)

/-! `RawToFrame` (R109). -/

theorem getLsbD_bitByte (p : Bool) (i : Nat) : (bitByte p).getLsbD i = (decide (i = 0) && p) := by
  cases p
  · simp [bitByte]
  · simp [bitByte, BitVec.getLsbD_one]

/-- A byte put together as `F'[12]`: six kept bits and two bits on top. -/
theorem eq_merge_high {v w : Byte} {p q : Bool} (hkeep : ∀ b, b < 6 → v.getLsbD b = w.getLsbD b)
    (h7 : v.getLsbD 7 = p) (h6 : v.getLsbD 6 = q) :
    v = ((w &&& 0x3F) ||| (bitByte p <<< 7) ||| (bitByte q <<< 6)) := by
  apply BitVec.eq_of_getLsbD_eq
  intro b hb
  simp only [BitVec.getLsbD_or, BitVec.getLsbD_and, BitVec.getLsbD_shiftLeft, getLsbD_bitByte]
  interval_cases b <;> simp [-BitVec.getLsbD_eq_getElem, hkeep, h6, h7]

/-- A byte put together as `F'[20]`: six kept bits and two bits below them. -/
theorem eq_merge_low {v w : Byte} {p q : Bool} (hkeep : ∀ b, 2 ≤ b → b < 8 → v.getLsbD b = w.getLsbD b)
    (h1 : v.getLsbD 1 = p) (h0 : v.getLsbD 0 = q) :
    v = ((w &&& 0xFC) ||| (bitByte p <<< 1) ||| bitByte q) := by
  apply BitVec.eq_of_getLsbD_eq
  intro b hb
  simp only [BitVec.getLsbD_or, BitVec.getLsbD_and, BitVec.getLsbD_shiftLeft, getLsbD_bitByte]
  interval_cases b <;> simp [-BitVec.getLsbD_eq_getElem, hkeep, h0, h1]

section RawToFrame

variable (r : Plane) (f : FrameBits) {n b : Nat}

/-- A bit of a packed byte that carries the plane. -/
theorem getLsbD_byteAt_rawToFrame_some {i : Nat} (hn : n ≤ 32) (hb : b < 8) (h : rawInFrame n b = some i) :
    (byteAt (rawToFrame r f) n).getLsbD b = r.getLsbD i := by
  have hdiv : (8 * n + b) / 8 = n := by omega
  have hmod : (8 * n + b) % 8 = b := by omega
  rw [getLsbD_byteAt, decide_eq_true hb, Bool.true_and,
    getLsbD_rawToFrame_some r f (by omega) (by rw [hdiv, hmod, h])]

/-- A bit of a packed byte that carries none of it. -/
theorem getLsbD_byteAt_rawToFrame_none (hn : n ≤ 32) (hb : b < 8) (h : rawInFrame n b = none) :
    (byteAt (rawToFrame r f) n).getLsbD b = (byteAt f n).getLsbD b := by
  have hdiv : (8 * n + b) / 8 = n := by omega
  have hmod : (8 * n + b) % 8 = b := by omega
  rw [getLsbD_byteAt, getLsbD_byteAt, getLsbD_rawToFrame_none r f (by omega) (by rw [hdiv, hmod, h])]

/-- A byte that carries eight plane bits from `i` on is those bits, most significant first. -/
theorem byteAt_rawToFrame_whole {i : Nat} (hn : n ≤ 32) (h : ∀ b, rawInFrame n b = some (i + (7 - b))) :
    byteAt (rawToFrame r f) n = bitsToByteBE (r.extractLsb' i 8) := by
  apply BitVec.eq_of_getLsbD_eq
  intro b hb
  have hb' : 7 - b < 8 := by omega
  rw [getLsbD_byteAt_rawToFrame_some r f hn hb (h b), getLsbD_bitsToByteBE _ hb, BitVec.getLsbD_extractLsb',
    decide_eq_true hb', Bool.true_and]

/-- Byte 12 keeps bits `[5:0]` and takes two plane bits. -/
theorem byteAt_rawToFrame_twelve :
    byteAt (rawToFrame r f) 12 =
      ((byteAt f 12 &&& 0x3F) ||| (bitByte (r.getLsbD 96) <<< 7) ||| (bitByte (r.getLsbD 97) <<< 6)) := by
  apply eq_merge_high
  · intro b hb
    have h : rawInFrame 12 b = none := by
      have h7 : b ≠ 7 := by omega
      have h6 : b ≠ 6 := by omega
      simp [rawInFrame, h7, h6]
    exact getLsbD_byteAt_rawToFrame_none r f (by decide) (by omega) h
  · exact getLsbD_byteAt_rawToFrame_some r f (by decide) (by decide) rfl
  · exact getLsbD_byteAt_rawToFrame_some r f (by decide) (by decide) rfl

/-- Byte 20 keeps bits `[7:2]` and takes two plane bits. -/
theorem byteAt_rawToFrame_twenty :
    byteAt (rawToFrame r f) 20 =
      ((byteAt f 20 &&& 0xFC) ||| (bitByte (r.getLsbD 98) <<< 1) ||| bitByte (r.getLsbD 99)) := by
  apply eq_merge_low
  · intro b lo hb
    have h : rawInFrame 20 b = none := by
      have h1 : b ≠ 1 := by omega
      have h0 : b ≠ 0 := by omega
      simp [rawInFrame, h1, h0]
    exact getLsbD_byteAt_rawToFrame_none r f (by decide) hb h
  · exact getLsbD_byteAt_rawToFrame_some r f (by decide) (by decide) rfl
  · exact getLsbD_byteAt_rawToFrame_some r f (by decide) (by decide) rfl

/-- Bytes 13 to 19 belong to the neighbouring field. -/
theorem byteAt_rawToFrame_middle (lo : 13 ≤ n) (hi : n ≤ 19) : byteAt (rawToFrame r f) n = byteAt f n := by
  apply BitVec.eq_of_getLsbD_eq
  intro b hb
  exact getLsbD_byteAt_rawToFrame_none r f (by omega) hb (rawInFrame_middle lo hi b)

theorem frameToRaw_rawToFrame : frameToRaw (rawToFrame r f) = r := by
  apply BitVec.eq_of_getLsbD_eq
  intro i hi
  obtain ⟨hraw, hn, hb⟩ := rawInFrame_frameHome i hi
  rw [getLsbD_frameToRaw_byteAt _ hi, getLsbD_byteAt_rawToFrame_some r f hn hb hraw]

theorem rawToFrame_frameToRaw : rawToFrame (frameToRaw f) f = f := by
  apply BitVec.eq_of_getLsbD_eq
  intro x hx
  cases h : rawInFrame (x / 8) (x % 8) with
  | none => exact getLsbD_rawToFrame_none _ f hx h
  | some i =>
    obtain ⟨hi, hhome⟩ := frameHome_rawInFrame x hx i h
    rw [getLsbD_rawToFrame_some _ f hx h, getLsbD_frameToRaw, hhome, Nat.div_add_mod, decide_eq_true hi, Bool.true_and]

end RawToFrame

/-- Settles O29: the frame byte by byte, from which of its bits carry the plane, and the two round trips. -/
theorem rawToFrameLayout : Obligations.RawToFrameLayout := by
  refine ⟨fun r f => ⟨fun n hn => ?low, byteAt_rawToFrame_twelve r f, fun n => byteAt_rawToFrame_middle r f,
    byteAt_rawToFrame_twenty r f, fun n lo hi => ?high, frameToRaw_rawToFrame r f⟩, rawToFrame_frameToRaw⟩
  case low => exact byteAt_rawToFrame_whole r f (by omega) (rawInFrame_low hn)
  case high => exact byteAt_rawToFrame_whole r f hi (rawInFrame_high lo hi)

end Sys2Proof.Machine
end

section
/-! SUPPORT. The correction loop is linear over the planes of codewords (spec/42_bptc.md R172): adding such a plane to the plane
being corrected adds it to the result and changes no decision. DEINT[0] by itself is such a plane, so it decides nothing. -/

namespace Sys2Proof.Machine

/-! The decoders (R142): adding a codeword. -/

theorem h1393Dec_xor_of_syndrome_zero {v : Word13} (hv : syndrome1393 v = 0) (w : Word13) :
    h1393Dec (v ^^^ w) = (v ^^^ (h1393Dec w).1, (h1393Dec w).2) := by
  have hs : syndrome1393 (v ^^^ w) = syndrome1393 w := by rw [syndrome1393_xor, hv]; exact BitVec.zero_xor
  cases h : flipPos1393 (syndrome1393 w) with
  | none => rw [h1393Dec_of_none h, h1393Dec_of_none (by rw [hs, h])]
  | some k => rw [h1393Dec_of_some h, h1393Dec_of_some (by rw [hs, h]), BitVec.xor_assoc]

theorem h15113Dec_xor_of_syndrome_zero {v : Word15} (hv : syndrome15113 v = 0) (w : Word15) :
    h15113Dec (v ^^^ w) = (v ^^^ (h15113Dec w).1, (h15113Dec w).2) := by
  have hs : syndrome15113 (v ^^^ w) = syndrome15113 w := by rw [syndrome15113_xor, hv]; exact BitVec.zero_xor
  cases h : flipPos15113 (syndrome15113 w) with
  | none => rw [h15113Dec_of_none h, h15113Dec_of_none (by rw [hs, h])]
  | some k => rw [h15113Dec_of_some h, h15113Dec_of_some (by rw [hs, h]), BitVec.xor_assoc]

/-! Rows and columns put back (R161, R162). -/

theorem putCol_xor (d e : Plane) {c : Nat} (hc : c < 15) (v w : Word13) :
    putCol (d ^^^ e) c (v ^^^ w) = putCol d c v ^^^ putCol e c w := by
  apply BitVec.eq_of_getLsbD_eq
  intro i hi
  simp only [BitVec.getLsbD_xor, getLsbD_putCol _ _ hc]
  split <;> rfl

theorem putRow_xor (d e : Plane) {r : Nat} (hr : r < 13) (v w : Word15) :
    putRow (d ^^^ e) r (v ^^^ w) = putRow d r v ^^^ putRow e r w := by
  apply BitVec.eq_of_getLsbD_eq
  intro i hi
  simp only [BitVec.getLsbD_xor, getLsbD_putRow _ _ hr]
  split <;> rfl

/-! The loop (R169). -/

/-- The working values with `C` added to the plane. -/
def Working.addPlane (C : Plane) (x : Working) : Working := ⟨C ^^^ x.plane, x.fixing⟩

section Codewords

variable {C : Plane} (hC : CodewordPlane C)
include hC

theorem correctCol_addPlane {c : Nat} (hc : c < 15) (x : Working) :
    correctCol (x.addPlane C) c = (correctCol x c).addPlane C := by
  obtain ⟨-, hcols⟩ := hC
  rw [correctCol_eq _ hc, correctCol_eq _ hc, Working.addPlane, Working.addPlane, getCol_xor,
    h1393Dec_xor_of_syndrome_zero (hcols c hc), putCol_xor _ _ hc, putCol_getCol _ hc]

theorem correctRow_addPlane {r : Nat} (hr : r < 9) (x : Working) :
    correctRow (x.addPlane C) r = (correctRow x r).addPlane C := by
  obtain ⟨hrows, -⟩ := hC
  have hr' : r < 13 := by omega
  rw [correctRow_eq _ hr', correctRow_eq _ hr', Working.addPlane, Working.addPlane, getRow_xor,
    h15113Dec_xor_of_syndrome_zero (hrows r hr), putRow_xor _ _ hr', putRow_getRow _ hr']

omit hC in
/-- A run of steps that each let `C` through lets it through. -/
theorem foldl_addPlane {f : Working → Nat → Working} (l : List Nat)
    (hf : ∀ k ∈ l, ∀ x : Working, f (x.addPlane C) k = (f x k).addPlane C) (x : Working) :
    l.foldl f (x.addPlane C) = (l.foldl f x).addPlane C := by
  induction l generalizing x with
  | nil => rfl
  | cons k l ih =>
    rw [List.foldl_cons, List.foldl_cons, hf k List.mem_cons_self, ih fun k' hk' => hf k' (List.mem_cons_of_mem k hk')]

theorem correctPass_xor (d : Plane) : correctPass (C ^^^ d) = (correctPass d).addPlane C := by
  have hcols : (List.range Config.nCols).foldl correctCol ⟨C ^^^ d, false⟩ =
      ((List.range Config.nCols).foldl correctCol ⟨d, false⟩).addPlane C :=
    foldl_addPlane _ (fun c hc => correctCol_addPlane hC (List.mem_range.1 hc)) ⟨d, false⟩
  rw [correctPass, hcols]
  exact foldl_addPlane _ (fun r hr => correctRow_addPlane hC (List.mem_range.1 hr)) _

theorem correctLoop_xor (fuel pass : Nat) (d : Plane) :
    correctLoop fuel pass (C ^^^ d) = (C ^^^ (correctLoop fuel pass d).1, (correctLoop fuel pass d).2) := by
  induction fuel generalizing pass d with
  | zero => rfl
  | succ fuel ih =>
    rw [correctLoop, correctLoop, correctPass_xor hC]
    obtain ⟨d', fixing⟩ := correctPass d
    cases fixing
    · rfl
    · exact ih (pass + 1) d'

/-- Correcting `C` XOR an error gives `C` XOR the corrected error, in as many passes (R172). -/
theorem correct_xor_of_codewordPlane (d : Plane) : correct (C ^^^ d) = (C ^^^ (correct d).1, (correct d).2) :=
  correctLoop_xor hC _ _ d

end Codewords

/-! DEINT[0], which lies in no row and in no column (R160, R164). -/

theorem getCol_cellMask_zero (c : Nat) : getCol (cellMask 196 0) c = 0 := by
  apply BitVec.eq_of_getLsbD_eq
  intro a ha
  have hne : c + 1 + 15 * a ≠ 0 := by omega
  rw [getLsbD_getCol, getLsbD_cellMask, decide_eq_false hne]
  simp

theorem getRow_cellMask_zero (r : Nat) : getRow (cellMask 196 0) r = 0 := by
  apply BitVec.eq_of_getLsbD_eq
  intro k hk
  have hne : 15 * r + 1 + k ≠ 0 := by omega
  rw [getLsbD_getRow, getLsbD_cellMask, decide_eq_false hne]
  simp

theorem codewordPlane_cellMask_zero : CodewordPlane (cellMask 196 0) := by
  constructor
  · intro r _
    rw [getRow_cellMask_zero]
    rfl
  · intro c _
    rw [getCol_cellMask_zero]
    rfl

/-- Flipping DEINT[0] flips it in the corrected plane and does nothing else (R170). -/
theorem correct_xor_cellMask_zero (d : Plane) :
    correct (d ^^^ cellMask 196 0) = ((correct d).1 ^^^ cellMask 196 0, (correct d).2) := by
  rw [BitVec.xor_comm d, correct_xor_of_codewordPlane codewordPlane_cellMask_zero, BitVec.xor_comm (correct d).1]

/-- No payload bit stands at DEINT[0] (R164). -/
theorem extractData_xor_cellMask_zero (d : Plane) : extractData (d ^^^ cellMask 196 0) = extractData d := by
  apply ofBits_congr
  intro x _
  have hne : payloadHome (payloadCell x) ≠ 0 := by
    unfold payloadHome
    split <;> omega
  rw [BitVec.getLsbD_xor, getLsbD_cellMask, decide_eq_false hne, Bool.and_false, Bool.xor_false]

theorem extractData_correct_xor_cellMask_zero (d : Plane) :
    extractData (correct (d ^^^ cellMask 196 0)).1 = extractData (correct d).1 := by
  rw [correct_xor_cellMask_zero, extractData_xor_cellMask_zero]

end Sys2Proof.Machine
end

section
/-! SUPPORT. BPTC.UNPACK, BPTC.DEINTERLEAVE, BPTC.INTERLEAVE and BPTC.PACK (spec/40_bitplane_interleaver.md R110 to R113):
what each answers when its operands are readable, and what is left when they are all written. -/

namespace Sys2Proof.Machine

/-! What a command of one step answers. -/

theorem complete_eq (s : State) : complete s = { s with status := 0x00 } := rfl

theorem exec_bptcUnpack (s : State) : exec .bptcUnpack s = andThen (unpackFrame s) fun t => .next (complete t) := rfl

theorem exec_bptcDeinterleave (s : State) :
    exec .bptcDeinterleave s = andThen (deinterleaveRaw s) fun t => .next (complete t) := rfl

theorem exec_bptcInterleave (s : State) :
    exec .bptcInterleave s = andThen (interleaveDeint s) fun t => .next (complete t) := rfl

theorem exec_bptcPack (s : State) : exec .bptcPack s = andThen (packFrame s) fun t => .next (complete t) := rfl

section Readable

variable {s : State}

theorem exec_bptcUnpack_of_readable (h : Readable s.frame framePlaneMask s) :
    exec .bptcUnpack s = .next
      { s with raw := Cells.full (frameToRaw (operand s.frame framePlaneMask s)), status := 0x00,
               draws := drawsAfter s.frame framePlaneMask s } := by
  rw [exec_bptcUnpack, unpackFrame_of_readable h, andThen_next, complete_eq]

theorem exec_bptcDeinterleave_of_readable (h : Readable s.raw (BitVec.allOnes 196) s) :
    exec .bptcDeinterleave s = .next
      { s with deint := Cells.full (deinterleave (operand s.raw (BitVec.allOnes 196) s)), status := 0x00,
               draws := drawsAfter s.raw (BitVec.allOnes 196) s } := by
  rw [exec_bptcDeinterleave, deinterleaveRaw_of_readable h, andThen_next, complete_eq]

theorem exec_bptcInterleave_of_readable (h : Readable s.deint (BitVec.allOnes 196) s) :
    exec .bptcInterleave s = .next
      { s with raw := Cells.full (interleave (operand s.deint (BitVec.allOnes 196) s)), status := 0x00,
               draws := drawsAfter s.deint (BitVec.allOnes 196) s } := by
  rw [exec_bptcInterleave, interleaveDeint_of_readable h, andThen_next, complete_eq]

theorem exec_bptcPack_of_readable (h : Readable s.raw (BitVec.allOnes 196) s) :
    exec .bptcPack s = .next
      { s with frame := s.frame.put framePlaneMask (rawToFrame (operand s.raw (BitVec.allOnes 196) s) s.frame.val),
               status := 0x00, draws := drawsAfter s.raw (BitVec.allOnes 196) s } := by
  rw [exec_bptcPack, packFrame_of_readable h, andThen_next, complete_eq]

end Readable

/-! Cells that are all written: a read gives what stands there, and writing it back changes nothing. -/

section Covered

variable {n : Nat} {c : Cells n}

/-- A file whose cells are all written is its values, written whole. -/
theorem full_val_of_covers (h : c.covers (BitVec.allOnes n) = true) : Cells.full c.val = c := by
  have hw : c.written = BitVec.allOnes n := by
    apply BitVec.eq_of_getLsbD_eq
    intro i hi
    have hone : (BitVec.allOnes n).getLsbD i = true := by simp [hi]
    rw [hone, (covers_iff c _).1 h i hone]
  rw [Cells.full, ← hw]

/-- Writing back, to written cells, the values they hold changes nothing. -/
theorem put_val_of_covers {m : BitVec n} (h : c.covers m = true) : c.put m c.val = c := by
  have hval : (c.put m c.val).val = c.val := by
    apply BitVec.eq_of_getLsbD_eq
    intro i _
    rw [getLsbD_put_val, ite_self]
  have hwritten : (c.put m c.val).written = c.written := by
    apply BitVec.eq_of_getLsbD_eq
    intro i _
    rw [getLsbD_put_written, Bool.or_eq_left_iff_imp]
    exact (covers_iff c m).1 h i
  exact congrArg₂ Cells.mk hval hwritten

end Covered

/-- `FrameToRaw` reads only the bits that carry the plane (R108). -/
theorem frameToRaw_and_framePlaneMask (f : FrameBits) : frameToRaw (f &&& framePlaneMask) = frameToRaw f := by
  apply BitVec.eq_of_getLsbD_eq
  intro i hi
  obtain ⟨hraw, hn, hb⟩ := rawInFrame_frameHome i hi
  have hlt : 8 * (frameHome i).1 + (frameHome i).2 < 264 := by omega
  have hdiv : (8 * (frameHome i).1 + (frameHome i).2) / 8 = (frameHome i).1 := by omega
  have hmod : (8 * (frameHome i).1 + (frameHome i).2) % 8 = (frameHome i).2 := by omega
  have hmask : framePlaneMask.getLsbD (8 * (frameHome i).1 + (frameHome i).2) = true := by
    rw [getLsbD_framePlaneMask, hdiv, hmod, hraw, decide_eq_true hlt]
    rfl
  rw [getLsbD_frameToRaw, getLsbD_frameToRaw, BitVec.getLsbD_and, hmask, Bool.and_true]

/-- BPTC.UNPACK with its operands all written: no draw, and only RAW and STATUS change. -/
theorem exec_bptcUnpack_of_covers {s : State} (h : s.frame.covers framePlaneMask = true) :
    exec .bptcUnpack s = .next { s with raw := Cells.full (frameToRaw s.frame.val), status := 0x00 } := by
  obtain ⟨hop, hdraws⟩ := operand_of_covers s.frame framePlaneMask s h
  rw [exec_bptcUnpack_of_readable (.inl h), hop, hdraws, frameToRaw_and_framePlaneMask]

/-- BPTC.DEINTERLEAVE with RAW all written. -/
theorem exec_bptcDeinterleave_of_covers {s : State} (h : s.raw.covers (BitVec.allOnes 196) = true) :
    exec .bptcDeinterleave s = .next { s with deint := Cells.full (deinterleave s.raw.val), status := 0x00 } := by
  obtain ⟨hop, hdraws⟩ := operand_of_covers s.raw (BitVec.allOnes 196) s h
  rw [exec_bptcDeinterleave_of_readable (.inl h), hop, hdraws, BitVec.and_allOnes]

/-- BPTC.INTERLEAVE with DEINT all written. -/
theorem exec_bptcInterleave_of_covers {s : State} (h : s.deint.covers (BitVec.allOnes 196) = true) :
    exec .bptcInterleave s = .next { s with raw := Cells.full (interleave s.deint.val), status := 0x00 } := by
  obtain ⟨hop, hdraws⟩ := operand_of_covers s.deint (BitVec.allOnes 196) s h
  rw [exec_bptcInterleave_of_readable (.inl h), hop, hdraws, BitVec.and_allOnes]

/-- BPTC.PACK with RAW all written. -/
theorem exec_bptcPack_of_covers {s : State} (h : s.raw.covers (BitVec.allOnes 196) = true) :
    exec .bptcPack s = .next
      { s with frame := s.frame.put framePlaneMask (rawToFrame s.raw.val s.frame.val), status := 0x00 } := by
  obtain ⟨hop, hdraws⟩ := operand_of_covers s.raw (BitVec.allOnes 196) s h
  rw [exec_bptcPack_of_readable (.inl h), hop, hdraws, BitVec.and_allOnes]

/-- Settles O30: the answer by whether the plane-carrying bits are readable; written ones give the same RAW again, because the
command leaves FRAME alone. -/
theorem unpackFillsRawFromFrame : Obligations.UnpackFillsRawFromFrame := by
  refine ⟨rfl, fun s => exec_bptcUnpack_of_readable, fun s h => ?faults, fun s t hc ht => ?again, by decide +kernel⟩
  case faults => exact ⟨_, by rw [exec_bptcUnpack, unpackFrame_fault h, andThen_fault]⟩
  case again =>
    rw [exec_bptcUnpack_of_covers hc] at ht
    obtain rfl := Host.Outcome.next.inj ht
    exact ⟨rfl, _, exec_bptcUnpack_of_covers hc, rfl⟩

/-- Settles O31: the answer, the two fixed points of R102, and that DEINT[0] decides nothing in the correction. -/
theorem deinterleaveFillsDeintFromRaw : Obligations.DeinterleaveFillsDeintFromRaw := by
  refine ⟨rfl, fun s => exec_bptcDeinterleave_of_readable, fun r => ⟨?zero, ?middle⟩,
    extractData_correct_xor_cellMask_zero, by decide +kernel⟩
  case zero => exact getLsbD_deinterleave r 0
  case middle => exact getLsbD_deinterleave r 98

/-- Settles O32: the answer, and the two round trips, each a permutation undone on a file that is written whole. -/
theorem interleaveFillsRawFromDeint : Obligations.InterleaveFillsRawFromDeint := by
  refine ⟨rfl, fun s => exec_bptcInterleave_of_readable, fun s hc => ?raw, fun s hc => ?deint, by decide +kernel⟩
  case raw =>
    rw [exec_bptcDeinterleave_of_covers hc, andThen_next, exec_bptcInterleave_of_covers]
    · refine ⟨_, rfl, ?_⟩
      rw [full_val, interleave_deinterleave, full_val_of_covers hc]
    · exact full_covers _ _
  case deint =>
    rw [exec_bptcInterleave_of_covers hc, andThen_next, exec_bptcDeinterleave_of_covers]
    · refine ⟨_, rfl, ?_⟩
      rw [full_val, deinterleave_interleave, full_val_of_covers hc]
    · exact full_covers _ _

/-- What BPTC.PACK leaves in FRAME, bit by bit (R113, R35). -/
theorem put_framePlaneMask_rawToFrame (c : Cells 264) (r : Plane) {x : Nat} (hx : x < 264) :
    (c.put framePlaneMask (rawToFrame r c.val)).val.getLsbD x = (rawToFrame r c.val).getLsbD x ∧
      (c.put framePlaneMask (rawToFrame r c.val)).written.getLsbD x =
        (c.written.getLsbD x || (rawInFrame (x / 8) (x % 8)).isSome) := by
  rw [getLsbD_put_val, getLsbD_put_written, getLsbD_framePlaneMask, decide_eq_true hx, Bool.true_and]
  refine ⟨?_, rfl⟩
  cases h : rawInFrame (x / 8) (x % 8) with
  | none => exact (getLsbD_rawToFrame_none r c.val hx h).symm
  | some i => rfl

/-- Settles O33: the answer, FRAME bit by bit, and that packing what was unpacked writes back what stands in FRAME. -/
theorem packMergesRawIntoFrame : Obligations.PackMergesRawIntoFrame := by
  refine ⟨rfl, fun s h => ?packs, fun s hc => ?roundTrip, by decide +kernel⟩
  case packs =>
    exact ⟨_, exec_bptcPack_of_readable h, rfl, fun x => put_framePlaneMask_rawToFrame s.frame _⟩
  case roundTrip =>
    rw [exec_bptcUnpack_of_covers hc, andThen_next, exec_bptcPack_of_covers]
    · refine ⟨_, rfl, ?_⟩
      rw [full_val, rawToFrame_frameToRaw, put_val_of_covers hc]
    · exact full_covers _ _

end Sys2Proof.Machine
end

section
/-! SUPPORT. The Hamming codes (spec/41_hamming.md R131 to R148): what a syndrome table says about a word with no error, with one
and with two; what each decoder and encoder does to a word; and what the four commands leave in CW. -/

namespace Sys2Proof.Machine

/-! Flipping one bit of a word. -/

theorem getLsbD_xor_cellMask {n : Nat} (v : BitVec n) (k : Nat) {i : Nat} (hi : i < n) :
    (v ^^^ cellMask n k).getLsbD i = if i = k then !v.getLsbD i else v.getLsbD i := by
  rw [BitVec.getLsbD_xor, getLsbD_cellMask, decide_eq_true hi]
  by_cases h : i = k <;> simp [h]

/-- After flips at `i` and `j`, a flip at a third place does not give the first word back. -/
theorem flip_three_ne {n : Nat} (v : BitVec n) {i j k : Nat} (hk : k < n) (hki : k ≠ i) (hkj : k ≠ j) :
    v ^^^ cellMask n i ^^^ cellMask n j ^^^ cellMask n k ≠ v := by
  intro h
  have hbit := congrArg (fun u => u.getLsbD k) h
  simp only [getLsbD_xor_cellMask _ _ hk, hki, hkj, if_true, if_false] at hbit
  exact Bool.not_ne_self _ hbit

/-! What the two syndromes and their tables have in common. -/

/-- A syndrome linear in the word, and a table that names, for a nonzero syndrome, the one position whose column it is. -/
structure SyndromeTable {n : Nat} (syn : BitVec n → BitVec 4) (pos : BitVec 4 → Option Nat) : Prop where
  xor : ∀ v w, syn (v ^^^ w) = syn v ^^^ syn w
  pos_iff : ∀ s k, pos s = some k ↔ (k < n ∧ syn (cellMask n k) = s)
  pos_zero : pos 0 = none

namespace SyndromeTable

variable {n : Nat} {syn : BitVec n → BitVec 4} {pos : BitVec 4 → Option Nat} (T : SyndromeTable syn pos)
include T

theorem pos_column {k : Nat} (hk : k < n) : pos (syn (cellMask n k)) = some k := (T.pos_iff _ k).2 ⟨hk, rfl⟩

theorem column_ne_zero {k : Nat} (hk : k < n) : syn (cellMask n k) ≠ 0 := by
  intro h
  have hpos := T.pos_column hk
  rw [h, T.pos_zero] at hpos
  cases hpos

/-- Different positions have different columns. -/
theorem column_ne {i j : Nat} (hi : i < n) (hj : j < n) (hij : i ≠ j) : syn (cellMask n i) ≠ syn (cellMask n j) := by
  intro h
  have hpos := T.pos_column hi
  rw [h, T.pos_column hj] at hpos
  exact hij (Option.some.inj hpos).symm

/-- A codeword adds nothing to the syndrome (R142). -/
theorem syndrome_codeword_xor {c : BitVec n} (hc : syn c = 0) (e : BitVec n) : syn (c ^^^ e) = syn e := by
  rw [T.xor, hc]
  exact BitVec.zero_xor

/-- Flipping the position that the table names leaves a codeword. -/
theorem syndrome_flip {w : BitVec n} {k : Nat} (h : pos (syn w) = some k) : syn (w ^^^ cellMask n k) = 0 := by
  obtain ⟨-, hcol⟩ := (T.pos_iff _ k).1 h
  rw [T.xor, hcol, BitVec.xor_self]
  rfl

/-- Two errors in a codeword: the syndrome is the sum of their columns, neither 0 nor one of them (R143). -/
theorem syndrome_two_errors {c : BitVec n} (hc : syn c = 0) {i j : Nat} (hi : i < n) (hj : j < n) (hij : i ≠ j) :
    syn (c ^^^ cellMask n i ^^^ cellMask n j) = syn (cellMask n i) ^^^ syn (cellMask n j) ∧
      syn (c ^^^ cellMask n i ^^^ cellMask n j) ≠ 0 ∧
      syn (c ^^^ cellMask n i ^^^ cellMask n j) ≠ syn (cellMask n i) ∧
      syn (c ^^^ cellMask n i ^^^ cellMask n j) ≠ syn (cellMask n j) := by
  have hsum : syn (c ^^^ cellMask n i ^^^ cellMask n j) = syn (cellMask n i) ^^^ syn (cellMask n j) := by
    rw [T.xor, T.syndrome_codeword_xor hc]
  rw [hsum]
  refine ⟨rfl, fun h => T.column_ne hi hj hij ?_, fun h => T.column_ne_zero hj ?_, fun h => T.column_ne_zero hi ?_⟩
  · exact BitVec.xor_eq_zero_iff.1 h
  · exact (BitVec.xor_right_inj _).1 (h.trans BitVec.xor_zero.symm)
  · exact (BitVec.xor_left_inj _).1 (h.trans BitVec.zero_xor.symm)

/-- A position that the table names for two errors is a third one (R143). -/
theorem third_position {c : BitVec n} (hc : syn c = 0) {i j k : Nat} (hi : i < n) (hj : j < n) (hij : i ≠ j)
    (h : pos (syn (c ^^^ cellMask n i ^^^ cellMask n j)) = some k) : k < n ∧ k ≠ i ∧ k ≠ j := by
  obtain ⟨-, -, hnei, hnej⟩ := T.syndrome_two_errors hc hi hj hij
  obtain ⟨hk, hcol⟩ := (T.pos_iff _ k).1 h
  refine ⟨hk, ?_, ?_⟩
  · rintro rfl
    exact hnei hcol.symm
  · rintro rfl
    exact hnej hcol.symm

end SyndromeTable

/-! The bits of a nibble (R132, R138). -/

section Nibble

variable (b0 b1 b2 b3 : Bool)

theorem getLsbD_nibble_zero : (nibble b0 b1 b2 b3).getLsbD 0 = b0 := by simp [nibble]

theorem getLsbD_nibble_one : (nibble b0 b1 b2 b3).getLsbD 1 = b1 := by simp [nibble]

theorem getLsbD_nibble_two : (nibble b0 b1 b2 b3).getLsbD 2 = b2 := by simp [nibble]

theorem getLsbD_nibble_three : (nibble b0 b1 b2 b3).getLsbD 3 = b3 := by simp [nibble]

end Nibble

/-! Hamming(13,9). -/

theorem getLsbD_syndrome1393 (w : Word13) {j : Nat} (hj : j < 4) :
    (syndrome1393 w).getLsbD j = ((parity1393 w).getLsbD j ^^ w.getLsbD (9 + j)) := by
  rw [syndrome1393, BitVec.getLsbD_xor, BitVec.getLsbD_extractLsb', decide_eq_true hj, Bool.true_and]

/-- The table answers `k` exactly for the column of position `k` (R133). -/
theorem syndromeTable1393 : SyndromeTable syndrome1393 flipPos1393 where
  xor := syndrome1393_xor
  pos_iff s k := by
    have hcolumn : ∀ s, (flipPos1393 s).all (fun k => decide (k < 13 ∧ syndrome1393 (cellMask 13 k) = s)) = true := by
      decide
    have hposition : ∀ k, k < 13 → flipPos1393 (syndrome1393 (cellMask 13 k)) = some k := by decide
    constructor
    · intro h
      simpa [h] using hcolumn s
    · rintro ⟨hk, rfl⟩
      exact hposition k hk
  pos_zero := rfl

theorem flipPos1393_eq_none_iff (s : BitVec 4) : flipPos1393 s = none ↔ s = 0x0 ∨ s = 0x9 ∨ s = 0xB := by
  revert s; decide

theorem flipPos1393_isSome {s : BitVec 4} (h0 : s ≠ 0x0) (h9 : s ≠ 0x9) (hB : s ≠ 0xB) :
    ∃ k, flipPos1393 s = some k := by
  apply Option.ne_none_iff_exists'.1
  rw [Ne, flipPos1393_eq_none_iff]
  tauto

/-- At the syndromes 0, 0x9 and 0xB the decoder does nothing (R134). -/
theorem h1393Dec_of_unflipped {w : Word13} (h : syndrome1393 w = 0x0 ∨ syndrome1393 w = 0x9 ∨ syndrome1393 w = 0xB) :
    h1393Dec w = (w, false) := h1393Dec_of_none ((flipPos1393_eq_none_iff _).2 h)

/-- The encoder reads only the data bits (R135). -/
theorem h1393Enc_congr {u w : Word13} (h : ∀ i, i < 9 → u.getLsbD i = w.getLsbD i) : h1393Enc u = h1393Enc w := by
  apply BitVec.eq_of_getLsbD_eq
  intro i _
  rw [getLsbD_h1393Enc, getLsbD_h1393Enc, parity1393_congr h]
  split
  · exact h i ‹_›
  · rfl

theorem getLsbD_h1393Enc_data (w : Word13) {i : Nat} (hi : i < 9) : (h1393Enc w).getLsbD i = w.getLsbD i := by
  rw [getLsbD_h1393Enc, if_pos hi]

theorem getLsbD_h1393Enc_parity (w : Word13) (j : Nat) : (h1393Enc w).getLsbD (9 + j) = (parity1393 w).getLsbD j := by
  rw [getLsbD_h1393Enc, if_neg (by omega), Nat.add_sub_cancel_left]

theorem h1393Enc_h1393Enc (w : Word13) : h1393Enc (h1393Enc w) = h1393Enc w :=
  h1393Enc_congr fun _ => getLsbD_h1393Enc_data w

theorem h1393Enc_xor (a b : Word13) : h1393Enc (a ^^^ b) = h1393Enc a ^^^ h1393Enc b := by
  apply BitVec.eq_of_getLsbD_eq
  intro i _
  rw [BitVec.getLsbD_xor, getLsbD_h1393Enc, getLsbD_h1393Enc, getLsbD_h1393Enc, parity1393_xor]
  split <;> exact BitVec.getLsbD_xor

/-- What the encoder answers is a codeword. -/
theorem syndrome1393_h1393Enc (w : Word13) : syndrome1393 (h1393Enc w) = 0 := by
  apply BitVec.eq_of_getLsbD_eq
  intro j hj
  rw [getLsbD_syndrome1393 _ hj, getLsbD_h1393Enc_parity, parity1393_congr fun _ => getLsbD_h1393Enc_data w,
    Bool.xor_self]
  exact BitVec.getLsbD_zero.symm

theorem h1393Dec_h1393Enc (w : Word13) : h1393Dec (h1393Enc w) = (h1393Enc w, false) :=
  h1393Dec_of_unflipped (.inl (syndrome1393_h1393Enc w))

/-- One wrong bit in a codeword is put right (R142): the error alone decodes to no error. -/
theorem h1393Dec_single_error {c : Word13} (hc : syndrome1393 c = 0) {i : Nat} (hi : i < 13) :
    h1393Dec (c ^^^ cellMask 13 i) = (c, true) := by
  rw [h1393Dec_xor_of_syndrome_zero hc, h1393Dec_of_some (syndromeTable1393.pos_column hi), BitVec.xor_self,
    BitVec.xor_zero]

/-! Hamming(15,11). -/

theorem getLsbD_syndrome15113 (w : Word15) {j : Nat} (hj : j < 4) :
    (syndrome15113 w).getLsbD j = ((parity15113 w).getLsbD j ^^ w.getLsbD (11 + j)) := by
  rw [syndrome15113, BitVec.getLsbD_xor, BitVec.getLsbD_extractLsb', decide_eq_true hj, Bool.true_and]

/-- The table answers `k` exactly for the column of position `k` (R139). -/
theorem syndromeTable15113 : SyndromeTable syndrome15113 flipPos15113 where
  xor := syndrome15113_xor
  pos_iff s k := by
    have hcolumn : ∀ s, (flipPos15113 s).all (fun k => decide (k < 15 ∧ syndrome15113 (cellMask 15 k) = s)) = true := by
      decide
    have hposition : ∀ k, k < 15 → flipPos15113 (syndrome15113 (cellMask 15 k)) = some k := by decide
    constructor
    · intro h
      simpa [h] using hcolumn s
    · rintro ⟨hk, rfl⟩
      exact hposition k hk
  pos_zero := rfl

/-- The code is perfect: only the zero syndrome names no position (R139). -/
theorem flipPos15113_eq_none_iff (s : BitVec 4) : flipPos15113 s = none ↔ s = 0x0 := by
  revert s; decide

theorem flipPos15113_isSome {s : BitVec 4} (h : s ≠ 0x0) : ∃ k, flipPos15113 s = some k :=
  Option.ne_none_iff_exists'.1 fun hnone => h ((flipPos15113_eq_none_iff s).1 hnone)

theorem h15113Dec_of_syndrome_zero {w : Word15} (h : syndrome15113 w = 0x0) : h15113Dec w = (w, false) :=
  h15113Dec_of_none ((flipPos15113_eq_none_iff _).2 h)

/-- The decoder's flag says that the syndrome was not zero (R139, R140). -/
theorem h15113Dec_flag_iff (w : Word15) : (h15113Dec w).2 = true ↔ syndrome15113 w ≠ 0 := by
  by_cases h : syndrome15113 w = 0
  · rw [h15113Dec_of_syndrome_zero h]
    exact iff_of_false Bool.false_ne_true (not_not_intro h)
  · obtain ⟨k, hk⟩ := flipPos15113_isSome h
    rw [h15113Dec_of_some hk]
    exact iff_of_true rfl h

/-- The decoder always ends at a codeword (R139). -/
theorem syndrome15113_h15113Dec (w : Word15) : syndrome15113 (h15113Dec w).1 = 0 := by
  by_cases h : syndrome15113 w = 0
  · rw [h15113Dec_of_syndrome_zero h]
    exact h
  · obtain ⟨k, hk⟩ := flipPos15113_isSome h
    rw [h15113Dec_of_some hk]
    exact syndromeTable15113.syndrome_flip hk

/-- The encoder reads only the data bits (R141). -/
theorem h15113Enc_congr {u w : Word15} (h : ∀ i, i < 11 → u.getLsbD i = w.getLsbD i) : h15113Enc u = h15113Enc w := by
  apply BitVec.eq_of_getLsbD_eq
  intro i _
  rw [getLsbD_h15113Enc, getLsbD_h15113Enc, parity15113_congr h]
  split
  · exact h i ‹_›
  · rfl

theorem getLsbD_h15113Enc_data (w : Word15) {i : Nat} (hi : i < 11) : (h15113Enc w).getLsbD i = w.getLsbD i := by
  rw [getLsbD_h15113Enc, if_pos hi]

theorem getLsbD_h15113Enc_parity (w : Word15) (j : Nat) :
    (h15113Enc w).getLsbD (11 + j) = (parity15113 w).getLsbD j := by
  rw [getLsbD_h15113Enc, if_neg (by omega), Nat.add_sub_cancel_left]

theorem h15113Enc_xor (a b : Word15) : h15113Enc (a ^^^ b) = h15113Enc a ^^^ h15113Enc b := by
  apply BitVec.eq_of_getLsbD_eq
  intro i _
  rw [BitVec.getLsbD_xor, getLsbD_h15113Enc, getLsbD_h15113Enc, getLsbD_h15113Enc, parity15113_xor]
  split <;> exact BitVec.getLsbD_xor

/-- What the encoder answers is a codeword. -/
theorem syndrome15113_h15113Enc (w : Word15) : syndrome15113 (h15113Enc w) = 0 := by
  apply BitVec.eq_of_getLsbD_eq
  intro j hj
  rw [getLsbD_syndrome15113 _ hj, getLsbD_h15113Enc_parity, parity15113_congr fun _ => getLsbD_h15113Enc_data w,
    Bool.xor_self]
  exact BitVec.getLsbD_zero.symm

theorem h15113Dec_h15113Enc (w : Word15) : h15113Dec (h15113Enc w) = (h15113Enc w, false) :=
  h15113Dec_of_syndrome_zero (syndrome15113_h15113Enc w)

/-- One wrong bit in a codeword is put right (R142). -/
theorem h15113Dec_single_error {c : Word15} (hc : syndrome15113 c = 0) {i : Nat} (hi : i < 15) :
    h15113Dec (c ^^^ cellMask 15 i) = (c, true) := by
  rw [h15113Dec_xor_of_syndrome_zero hc, h15113Dec_of_some (syndromeTable15113.pos_column hi), BitVec.xor_self,
    BitVec.xor_zero]

/-- Two wrong bits in a codeword make the decoder flip a third (R143). -/
theorem h15113Dec_two_errors {c : Word15} (hc : syndrome15113 c = 0) {i j : Nat} (hi : i < 15) (hj : j < 15)
    (hij : i ≠ j) :
    ∃ k, (k < 15 ∧ k ≠ i ∧ k ≠ j) ∧
      flipPos15113 (syndrome15113 (c ^^^ cellMask 15 i ^^^ cellMask 15 j)) = some k := by
  obtain ⟨-, hne, -, -⟩ := syndromeTable15113.syndrome_two_errors hc hi hj hij
  obtain ⟨k, hk⟩ := flipPos15113_isSome hne
  exact ⟨k, syndromeTable15113.third_position hc hi hj hij hk, hk⟩

/-! The statements about the codes. -/

/-- Settles O34: the equations, then the decoder by whether the table names a position, then the encoder. -/
theorem hamming1393Functions : Obligations.Hamming1393Functions := by
  intro w
  refine ⟨getLsbD_nibble_zero .., getLsbD_nibble_one .., getLsbD_nibble_two .., getLsbD_nibble_three ..,
    fun _ => getLsbD_syndrome1393 w, h1393Dec_of_unflipped, fun hn0 hn9 hnB => ?flips,
    fun _ => getLsbD_h1393Enc_data w, fun j _ => getLsbD_h1393Enc_parity w j, fun _ => h1393Enc_congr⟩
  case flips =>
    obtain ⟨k, hk⟩ := flipPos1393_isSome hn0 hn9 hnB
    obtain ⟨hlt, -⟩ := (syndromeTable1393.pos_iff _ k).1 hk
    rw [h1393Dec_of_some hk]
    exact ⟨k, hlt, hk, rfl, fun i => getLsbD_xor_cellMask w k⟩

/-- Settles O36: as O34, with a position named for every nonzero syndrome. -/
theorem hamming15113Functions : Obligations.Hamming15113Functions := by
  intro w
  refine ⟨getLsbD_nibble_zero .., getLsbD_nibble_one .., getLsbD_nibble_two .., getLsbD_nibble_three ..,
    fun _ => getLsbD_syndrome15113 w, h15113Dec_of_syndrome_zero, fun hne => ?flips,
    fun _ => getLsbD_h15113Enc_data w, fun j _ => getLsbD_h15113Enc_parity w j, fun _ => h15113Enc_congr⟩
  case flips =>
    obtain ⟨k, hk⟩ := flipPos15113_isSome hne
    obtain ⟨hlt, -⟩ := (syndromeTable15113.pos_iff _ k).1 hk
    rw [h15113Dec_of_some hk]
    exact ⟨k, hlt, hk, rfl, fun i => getLsbD_xor_cellMask w k⟩

/-- Settles O38: linearity of the checks; the decoders act on the error alone, so a codeword needs the error 0 or one bit. -/
theorem hammingCodesAreLinear : Obligations.HammingCodesAreLinear :=
  ⟨h1393Enc_xor, h15113Enc_xor,
    fun _ e hc => ⟨syndromeTable1393.syndrome_codeword_xor hc e, h1393Dec_xor_of_syndrome_zero hc e⟩,
    fun _ e hc => ⟨syndromeTable15113.syndrome_codeword_xor hc e, h15113Dec_xor_of_syndrome_zero hc e⟩,
    fun w => ⟨syndrome1393_h1393Enc w, h1393Dec_h1393Enc w, fun _ => h1393Dec_single_error (syndrome1393_h1393Enc w)⟩,
    fun w => ⟨syndrome15113_h15113Enc w, h15113Dec_h15113Enc w,
      fun _ => h15113Dec_single_error (syndrome15113_h15113Enc w)⟩⟩

/-- Settles O39: the sum of two columns is neither 0 nor one of the two, so a position the table names for it is a third. -/
theorem doubleErrorsAreNeverCorrected : Obligations.DoubleErrorsAreNeverCorrected := by
  constructor
  · intro w i j hi hj hij
    have hc := syndrome15113_h15113Enc w
    obtain ⟨-, hne, hnei, hnej⟩ := syndromeTable15113.syndrome_two_errors hc hi hj hij
    obtain ⟨k, ⟨hk, hki, hkj⟩, hpos⟩ := h15113Dec_two_errors hc hi hj hij
    exact ⟨hne, hnei, hnej, k, hk, hki, hkj, h15113Dec_of_some hpos, syndromeTable15113.syndrome_flip hpos⟩
  · intro w i j hi hj hij
    have hc := syndrome1393_h1393Enc w
    obtain ⟨hsum, hne, hnei, hnej⟩ := syndromeTable1393.syndrome_two_errors hc hi hj hij
    refine ⟨hsum, hne, hnei, hnej, fun h => h1393Dec_of_unflipped (.inr h), fun h9 hB => ?_⟩
    obtain ⟨k, hpos⟩ := flipPos1393_isSome hne h9 hB
    obtain ⟨hk, hki, hkj⟩ := syndromeTable1393.third_position hc hi hj hij hpos
    exact ⟨k, hk, hki, hkj, h1393Dec_of_some hpos⟩

/-- Settles O35: the sixteen entries, and each as the column of its position. -/
theorem hamming1393SyndromeTable : Obligations.Hamming1393SyndromeTable :=
  ⟨by decide, syndromeTable1393.pos_iff, fun _ h => h1393Dec_of_unflipped (.inr h)⟩

/-- Settles O37: the sixteen entries, each as the column of its position, and that only 0 has none. -/
theorem hamming15113SyndromeTable : Obligations.Hamming15113SyndromeTable :=
  ⟨by decide, syndromeTable15113.pos_iff, fun _ => flipPos15113_isSome,
    fun w => ⟨syndrome15113_h15113Dec w, h15113Dec_flag_iff w⟩⟩

/-- Settles O40: the nine data columns, then the four check columns. -/
theorem columnCodeIsShortenedRowCode : Obligations.ColumnCodeIsShortenedRowCode := ⟨by decide, by decide⟩

/-! CW after a command (R145 to R148): which cells a mask names, and what stands in them. -/

theorem getLsbD_cw13Mask (i : Nat) : cw13Mask.getLsbD i = decide (i < 13) := by
  rw [show cw13Mask = rangeMask 15 0 12 by decide, getLsbD_rangeMask, Bool.eq_iff_iff]
  simp only [Bool.and_eq_true, decide_eq_true_eq]
  omega

theorem getLsbD_cw13ParityMask (i : Nat) : cw13ParityMask.getLsbD i = (decide (9 ≤ i) && decide (i < 13)) := by
  rw [show cw13ParityMask = rangeMask 15 9 12 by decide, getLsbD_rangeMask, Bool.eq_iff_iff]
  simp only [Bool.and_eq_true, decide_eq_true_eq]
  omega

theorem getLsbD_cw15ParityMask (i : Nat) : cw15ParityMask.getLsbD i = (decide (11 ≤ i) && decide (i < 15)) := by
  rw [show cw15ParityMask = rangeMask 15 11 14 by decide, getLsbD_rangeMask, Bool.eq_iff_iff]
  simp only [Bool.and_eq_true, decide_eq_true_eq]
  omega

section Put

variable {n : Nat} (c : Cells n) (v : BitVec n) {m : BitVec n} {i : Nat}

/-- A cell of the mask takes the bit written and is written. -/
theorem put_cell_of_mem (h : m.getLsbD i = true) :
    (c.put m v).val.getLsbD i = v.getLsbD i ∧ (c.put m v).written.getLsbD i = true := by
  rw [getLsbD_put_val, getLsbD_put_written, h, Bool.or_true]
  exact ⟨if_pos rfl, rfl⟩

/-- A cell outside the mask keeps its value and its written state. -/
theorem put_cell_of_not_mem (h : m.getLsbD i = false) :
    (c.put m v).val.getLsbD i = c.val.getLsbD i ∧ (c.put m v).written.getLsbD i = c.written.getLsbD i := by
  rw [getLsbD_put_val, getLsbD_put_written, h, Bool.or_false]
  exact ⟨if_neg Bool.false_ne_true, rfl⟩

/-- A write to every cell leaves the file written whole. -/
theorem put_allOnes : c.put (BitVec.allOnes n) v = Cells.full v := by
  simp [Cells.put, Cells.full]

end Put

/-- The mask of HAM15113.DEC is all of CW (R147). -/
theorem cw15Mask_eq_allOnes : cw15Mask = BitVec.allOnes 15 := by decide

/-- Bit `i` of a 13-bit word standing in CW. -/
theorem getLsbD_setWidth_cw (v : Word13) {i : Nat} (hi : i < 13) : (v.setWidth 15).getLsbD i = v.getLsbD i := by
  rw [BitVec.getLsbD_setWidth, decide_eq_true (by omega), Bool.true_and]

/-- A 13-bit word written to `CW[0..12]` stands there. -/
theorem setWidth_put_cw13Mask (c : Cells 15) (v : Word13) : (c.put cw13Mask (v.setWidth 15)).val.setWidth 13 = v := by
  apply BitVec.eq_of_getLsbD_eq
  intro i hi
  have hmask : cw13Mask.getLsbD i = true := by rw [getLsbD_cw13Mask, decide_eq_true hi]
  obtain ⟨hval, -⟩ := put_cell_of_mem c (v.setWidth 15) hmask
  rw [BitVec.getLsbD_setWidth, decide_eq_true hi, Bool.true_and, hval, getLsbD_setWidth_cw v hi]

/-- Settles O41: CW by the mask of the thirteen cells, and the decoder's answer for a word with no repairable error and for one
with a single error. -/
theorem ham1393DecCorrectsCw : Obligations.Ham1393DecCorrectsCw := by
  refine ⟨rfl, fun s h => ⟨_, execHam1393Dec_of_readable h, rfl, fun i hi => ?corrected, fun i hi => ?kept,
    fun hw => ?unflipped, fun u i hi hw => ?single⟩, by decide⟩
  case corrected =>
    rw [← getLsbD_setWidth_cw _ hi]
    exact put_cell_of_mem _ _ (by rw [getLsbD_cw13Mask, decide_eq_true hi])
  case kept => exact put_cell_of_not_mem _ _ (by rw [getLsbD_cw13Mask, decide_eq_false (by omega)])
  case unflipped => simp only [setWidth_put_cw13Mask, h1393Dec_of_unflipped hw, and_self]
  case single =>
    simp only [setWidth_put_cw13Mask, hw, h1393Dec_single_error (syndrome1393_h1393Enc u) hi, and_self]

/-- Settles O42: CW by the mask of the four parity cells. -/
theorem ham1393EncWritesParity : Obligations.Ham1393EncWritesParity := by
  refine ⟨rfl, fun s h => ⟨_, execHam1393Enc_of_readable h, rfl, fun j hj => ?parity, fun i hi => ?kept⟩,
    h1393Enc_h1393Enc, by decide⟩
  case parity =>
    rw [← getLsbD_h1393Enc_parity, ← getLsbD_setWidth_cw _ (by omega)]
    exact put_cell_of_mem _ _ (by
      rw [getLsbD_cw13ParityMask, decide_eq_true (by omega), decide_eq_true (by omega), Bool.and_self])
  case kept =>
    exact put_cell_of_not_mem _ _ (by
      rw [getLsbD_cw13ParityMask, Bool.and_eq_false_iff, decide_eq_false_iff_not, decide_eq_false_iff_not]; omega)

/-- HAM15113.DEC writes CW whole (R147). -/
theorem exec_ham15113Dec_of_readable {s : State} (h : Readable s.cw cw15Mask s) :
    exec .ham15113Dec s = .next
      { s with cw := Cells.full (h15113Dec (operand s.cw cw15Mask s)).1, corr := (h15113Dec (operand s.cw cw15Mask s)).2,
               status := 0x00, draws := drawsAfter s.cw cw15Mask s } := by
  rw [← put_allOnes s.cw, ← cw15Mask_eq_allOnes]
  exact execHam15113Dec_of_readable h

/-- Settles O43: all of CW written, with a codeword; after two errors it is not the one sent, because a third bit differs. -/
theorem ham15113DecCorrectsCw : Obligations.Ham15113DecCorrectsCw := by
  refine ⟨rfl, fun s h => ⟨_, exec_ham15113Dec_of_readable h, rfl, h15113Dec_flag_iff _, syndrome15113_h15113Dec _,
    fun u i j hi hj hij hw => ?double⟩, by decide⟩
  case double =>
    obtain ⟨k, ⟨hk, hki, hkj⟩, hpos⟩ := h15113Dec_two_errors (syndrome15113_h15113Enc u) hi hj hij
    rw [hw, h15113Dec_of_some hpos]
    exact ⟨rfl, flip_three_ne _ hk hki hkj⟩

/-- Settles O44: CW by the mask of the four parity cells. -/
theorem ham15113EncWritesParity : Obligations.Ham15113EncWritesParity := by
  refine ⟨rfl, fun s h => ⟨_, execHam15113Enc_of_readable h, rfl, fun j hj => ?parity, fun i hi => ?kept⟩, by decide⟩
  case parity =>
    rw [← getLsbD_h15113Enc_parity]
    exact put_cell_of_mem _ _ (by
      rw [getLsbD_cw15ParityMask, decide_eq_true (by omega), decide_eq_true (by omega), Bool.and_self])
  case kept =>
    exact put_cell_of_not_mem _ _ (by
      rw [getLsbD_cw15ParityMask, Bool.and_eq_false_iff, decide_eq_false_iff_not, decide_eq_false_iff_not]; omega)

end Sys2Proof.Machine
end

section
/-! SUPPORT. The matrix view and the payload positions of DEINT (spec/42_bptc.md R160 to R166): rows and columns read back what
was put there and cover the matrix; the payload ranges; and extracting what was placed. -/

namespace Sys2Proof.Machine

/-! Rows and columns (R161, R162). -/

theorem getRow_putRow_self (d : Plane) (w : Word15) {r : Nat} (hr : r < 13) : getRow (putRow d r w) r = w := by
  apply BitVec.eq_of_getLsbD_eq
  intro k hk
  rw [getLsbD_getRow, decide_eq_true hk, Bool.true_and, getLsbD_putRow_in d w hr hk]

theorem getCol_putCol_self (d : Plane) (w : Word13) {c : Nat} (hc : c < 15) : getCol (putCol d c w) c = w := by
  apply BitVec.eq_of_getLsbD_eq
  intro a ha
  rw [getLsbD_getCol, decide_eq_true ha, Bool.true_and, getLsbD_putCol_in d w hc ha]

/-- Columns 0 to 14 cover positions 1 to 195, once each. -/
theorem existsUnique_column {i : Nat} (lo : 1 ≤ i) (hi : i ≤ 195) :
    ∃! p : Nat × Nat, p.1 < 15 ∧ p.2 < 13 ∧ i = p.1 + 1 + 15 * p.2 := by
  refine ⟨((i - 1) % 15, (i - 1) / 15), ⟨Nat.mod_lt _ (by decide), ?_, ?_⟩, ?_⟩
  · show (i - 1) / 15 < 13
    omega
  · show i = (i - 1) % 15 + 1 + 15 * ((i - 1) / 15)
    omega
  · rintro ⟨c, a⟩ ⟨hc, ha, h⟩
    simp only at hc ha h
    exact Prod.ext (show c = (i - 1) % 15 by omega) (show a = (i - 1) / 15 by omega)

/-- Rows 0 to 8 cover positions 1 to 135, once each. -/
theorem existsUnique_row {i : Nat} (lo : 1 ≤ i) (hi : i ≤ 135) :
    ∃! p : Nat × Nat, p.1 < 9 ∧ p.2 < 15 ∧ i = 15 * p.1 + 1 + p.2 := by
  refine ⟨((i - 1) / 15, (i - 1) % 15), ⟨?_, Nat.mod_lt _ (by decide), ?_⟩, ?_⟩
  · show (i - 1) / 15 < 9
    omega
  · show i = 15 * ((i - 1) / 15) + 1 + (i - 1) % 15
    omega
  · rintro ⟨r, k⟩ ⟨hr, hk, h⟩
    simp only at hr hk h
    exact Prod.ext (show r = (i - 1) / 15 by omega) (show k = (i - 1) % 15 by omega)

/-- The crossing of a row and a column is one position. -/
theorem getLsbD_getCol_eq_getRow (d : Plane) {c r : Nat} (hc : c < 15) (hr : r < 13) :
    (getCol d c).getLsbD r = (getRow d r).getLsbD c := by
  rw [getLsbD_getCol, getLsbD_getRow, decide_eq_true hc, decide_eq_true hr, show c + 1 + 15 * r = 15 * r + 1 + c by omega]

/-- Settles O45: what is read back and kept, the position of a (row, column) pair by division by 15, and the crossings. -/
theorem matrixViewIsDisjoint : Obligations.MatrixViewIsDisjoint := by
  refine ⟨fun d r w hr => ⟨getRow_putRow_self d w (by omega), fun k hk => ?row, fun i hi => ?outsideRow,
      fun r' _ => getRow_putRow_ne d w (by omega)⟩,
    fun d c w hc => ⟨getCol_putCol_self d w hc, fun a ha => ?col, fun i => getLsbD_putCol_out d w,
      fun c' hc' => getCol_putCol_ne d w hc hc'⟩,
    fun i => existsUnique_column, fun i => existsUnique_row,
    fun d j a hj ha => getLsbD_getCol_eq_getRow d (by omega) (by omega)⟩
  case row => rw [getLsbD_getRow, decide_eq_true hk, Bool.true_and]
  case outsideRow => exact getLsbD_putRow_out d w (by omega)
  case col => rw [getLsbD_getCol, decide_eq_true ha, Bool.true_and]

/-! The payload positions (R163). -/

theorem map_payloadHome_range :
    (List.range 96).map payloadHome = payloadRanges.flatMap fun r => List.range' r.1 (r.2 + 1 - r.1) := by decide

/-- Settles O46: the list of the positions, and range `r + 1` as the data part of row `r`, row by row. -/
theorem payloadPositionsAreTheNineRanges : Obligations.PayloadPositionsAreTheNineRanges := by
  refine ⟨map_payloadHome_range, rfl, fun r lo hi => ?_, rfl⟩
  interval_cases r <;> rfl

/-- A position carries a payload bit exactly when it lies in one of the nine ranges. -/
theorem payloadAt_isSome_iff {a : Nat} (ha : a < 196) :
    (payloadAt a).isSome = true ↔ ∃ r ∈ payloadRanges, r.1 ≤ a ∧ a ≤ r.2 := by
  have hmask := getLsbD_payloadMask a
  rw [payloadMask, getLsbD_cellsIn, decide_eq_true ha, Bool.true_and, Bool.true_and] at hmask
  rw [← hmask, List.any_eq_true]
  simp only [Bool.and_eq_true, decide_eq_true_eq]

theorem getLsbD_payloadMask_payloadHome {j : Nat} (hj : j < 96) : payloadMask.getLsbD (payloadHome j) = true := by
  obtain ⟨hat, hlt⟩ := payloadAt_payloadHome j hj
  rw [getLsbD_payloadMask, decide_eq_true hlt, hat]
  rfl

/-- Payload bit `8n + k` is bit `7 - k` of byte `n` (R22). -/
theorem payloadCell_byte (n : Nat) {k : Nat} (hk : k < 8) : payloadCell (8 * n + k) = 8 * n + (7 - k) := by
  unfold payloadCell
  omega

/-! `ExtractData` and `PlaceData` (R165, R166). -/

/-- `ExtractData` reads only the payload positions. -/
theorem extractData_congr {d e : Plane} (h : ∀ a, payloadMask.getLsbD a = true → d.getLsbD a = e.getLsbD a) :
    extractData d = extractData e :=
  ofBits_congr fun _ hx => h _ (getLsbD_payloadMask_payloadHome (payloadCell_lt hx))

theorem extractData_and_payloadMask (d : Plane) : extractData (d &&& payloadMask) = extractData d :=
  extractData_congr fun a ha => by rw [BitVec.getLsbD_and, ha, Bool.and_true]

/-- A byte of the extracted payload is its eight payload bits, the first one on top. -/
theorem byteAt_extractData (d : Plane) {n : Nat} (hn : n < 12) :
    byteAt (extractData d) n = bitsToByteBE (ofBits 8 fun k => d.getLsbD (payloadHome (8 * n + k))) := by
  apply BitVec.eq_of_getLsbD_eq
  intro b hb
  have hcell : 8 * n + b < 96 := by omega
  have hb' : 7 - b < 8 := by omega
  rw [getLsbD_byteAt, getLsbD_extractData, payloadCell_byte n hb, getLsbD_bitsToByteBE _ hb, getLsbD_ofBits]
  simp only [hb, hcell, hb', decide_true, Bool.true_and]

theorem getLsbD_placeData_payloadHome (y : PayloadBits) {j : Nat} (hj : j < 96) :
    (placeData y).getLsbD (payloadHome j) = y.getLsbD (payloadCell j) := by
  obtain ⟨hat, hlt⟩ := payloadAt_payloadHome j hj
  exact getLsbD_placeData_some y hlt hat

/-- A placed payload bit is the bit of its byte. -/
theorem getLsbD_placeData_byte (y : PayloadBits) {n k : Nat} (hn : n < 12) (hk : k < 8) :
    (placeData y).getLsbD (payloadHome (8 * n + k)) = (bytesToBitsBE (byteAt y n)).getLsbD k := by
  have hk' : 7 - k < 8 := by omega
  rw [getLsbD_placeData_payloadHome y (by omega), payloadCell_byte n hk, getLsbD_bytesToBitsBE _ hk, getLsbD_byteAt,
    decide_eq_true hk', Bool.true_and]

/-- `PlaceData` leaves 0 outside the nine ranges. -/
theorem getLsbD_placeData_outside (y : PayloadBits) {a : Nat} (h : ∀ r ∈ payloadRanges, a < r.1 ∨ r.2 < a) :
    (placeData y).getLsbD a = false := by
  by_cases ha : a < 196
  · apply getLsbD_placeData_none
    rw [← Option.not_isSome_iff_eq_none, payloadAt_isSome_iff ha]
    rintro ⟨r, hr, lo, hi⟩
    have := h r hr
    omega
  · exact BitVec.getLsbD_of_ge _ _ (by omega)

theorem extractData_placeData (y : PayloadBits) : extractData (placeData y) = y := by
  apply BitVec.eq_of_getLsbD_eq
  intro x hx
  rw [getLsbD_extractData, decide_eq_true hx, Bool.true_and, getLsbD_placeData_payloadHome y (payloadCell_lt hx),
    payloadCell_payloadCell]

/-- Settles O47: each payload bit at its position and in its byte, in both directions. -/
theorem extractUndoesPlace : Obligations.ExtractUndoesPlace :=
  ⟨map_payloadHome_range, fun d _ => byteAt_extractData d, fun y _ _ => getLsbD_placeData_byte y,
    fun y _ => getLsbD_placeData_outside y, extractData_placeData⟩

end Sys2Proof.Machine
end

section
/-! SUPPORT. `EncodeParity` (spec/42_bptc.md R167): which positions each of its halves writes and which it reads, that it takes XOR
to XOR, and that what it leaves is a plane of codewords. -/

namespace Sys2Proof.Machine

/-! The order of a run of updates (R167, R170). -/

/-- Rows replaced by `g` of themselves: the order is free. -/
theorem foldl_putRow_perm (g : Word15 → Word15) {l l' : List Nat} (hp : l.Perm l') (hl : l'.Nodup)
    (hr : ∀ r ∈ l', r < 13) (d : Plane) :
    l.foldl (fun d r => putRow d r (g (getRow d r))) d = l'.foldl (fun d r => putRow d r (g (getRow d r))) d := by
  apply BitVec.eq_of_getLsbD_eq
  intro i _
  rw [getLsbD_foldl_putRow g l (hp.nodup_iff.2 hl) (fun r h => hr r (hp.mem_iff.1 h)), getLsbD_foldl_putRow g l' hl hr]
  simp only [hp.mem_iff]

/-- Columns replaced by `g` of themselves: the order is free. -/
theorem foldl_putCol_perm (g : Word13 → Word13) {l l' : List Nat} (hp : l.Perm l') (hl : l'.Nodup)
    (hc : ∀ c ∈ l', c < 15) (d : Plane) :
    l.foldl (fun d c => putCol d c (g (getCol d c))) d = l'.foldl (fun d c => putCol d c (g (getCol d c))) d := by
  apply BitVec.eq_of_getLsbD_eq
  intro i _
  rw [getLsbD_foldl_putCol g l (hp.nodup_iff.2 hl) (fun c h => hc c (hp.mem_iff.1 h)), getLsbD_foldl_putCol g l' hl hc]
  simp only [hp.mem_iff]

/-! Rows and columns after the two halves of `EncodeParity` (R167). -/

theorem getRow_encodeRows (d : Plane) {r : Nat} (hr : r < 9) : getRow (encodeRows d) r = h15113Enc (getRow d r) := by
  apply BitVec.eq_of_getLsbD_eq
  intro k hk
  rw [getLsbD_getRow, decide_eq_true hk, Bool.true_and, getLsbD_encodeRows, if_pos (by omega),
    show (15 * r + 1 + k - 1) / 15 = r by omega, show (15 * r + 1 + k - 1) % 15 = k by omega]

theorem getCol_encodeCols (d : Plane) {c : Nat} (hc : c < 15) : getCol (encodeCols d) c = h1393Enc (getCol d c) := by
  apply BitVec.eq_of_getLsbD_eq
  intro a ha
  rw [getLsbD_getCol, decide_eq_true ha, Bool.true_and, getLsbD_encodeCols, if_pos (by omega),
    show (c + 1 + 15 * a - 1) / 15 = a by omega, show (c + 1 + 15 * a - 1) % 15 = c by omega]

/-- The column half keeps rows 0 to 8. -/
theorem getLsbD_encodeCols_of_le (d : Plane) {i : Nat} (hi : i ≤ 135) : (encodeCols d).getLsbD i = d.getLsbD i := by
  rw [getLsbD_encodeCols]
  split
  · rw [getLsbD_h1393Enc_data _ (by omega), getLsbD_getCol, decide_eq_true (by omega), Bool.true_and,
      show (i - 1) % 15 + 1 + 15 * ((i - 1) / 15) = i by omega]
  · rfl

theorem getRow_encodeCols (d : Plane) {r : Nat} (hr : r < 9) : getRow (encodeCols d) r = getRow d r :=
  ofBits_congr fun _ _ => getLsbD_encodeCols_of_le d (by omega)

/-- After `EncodeParity` every row 0 to 8 and every column is a codeword. -/
theorem codewordPlane_encodeParity (d : Plane) : CodewordPlane (encodeParity d) := by
  constructor
  · intro r hr
    rw [encodeParity, getRow_encodeCols _ hr, getRow_encodeRows _ hr, syndrome15113_h15113Enc]
  · intro c hc
    rw [encodeParity, getCol_encodeCols _ hc, syndrome1393_h1393Enc]

/-! The positions it writes (R178). -/

/-- A row's data positions, as `EncodeParity` keeps them. -/
theorem getLsbD_encodeRows_data (d : Plane) {i : Nat} (hi : (i - 1) % 15 < 11) : (encodeRows d).getLsbD i = d.getLsbD i := by
  rw [getLsbD_encodeRows]
  split
  · rw [getLsbD_h15113Enc_data _ hi, getLsbD_getRow, decide_eq_true (by omega), Bool.true_and,
      show 15 * ((i - 1) / 15) + 1 + (i - 1) % 15 = i by omega]
  · rfl

theorem getLsbD_parityMask (a : Nat) :
    parityMask.getLsbD a = decide (1 ≤ a ∧ a < 196 ∧ (a ≤ 135 → 11 ≤ (a - 1) % 15)) := by
  rw [parityMask_eq, BitVec.getLsbD_and, BitVec.getLsbD_not, getLsbD_matrixMask, getLsbD_rowDataMask, Bool.eq_iff_iff]
  simp only [Bool.and_eq_true, Bool.not_eq_true', Bool.and_eq_false_iff, decide_eq_true_eq, decide_eq_false_iff_not]
  omega

/-- Every position that holds no parity bit is unchanged. -/
theorem getLsbD_encodeParity_of_not_parity (d : Plane) {a : Nat} (h : parityMask.getLsbD a = false) :
    (encodeParity d).getLsbD a = d.getLsbD a := by
  rw [getLsbD_parityMask, decide_eq_false_iff_not] at h
  by_cases ha : a < 196
  · rw [encodeParity, getLsbD_encodeCols_of_le _ (by omega)]
    by_cases h0 : a = 0
    · rw [h0, getLsbD_encodeRows, if_neg (by omega)]
    · exact getLsbD_encodeRows_data d (by omega)
  · rw [BitVec.getLsbD_of_ge _ _ (by omega), BitVec.getLsbD_of_ge _ _ (by omega)]

theorem parityMask_of_payloadMask {a : Nat} (h : payloadMask.getLsbD a = true) : parityMask.getLsbD a = false := by
  rw [getLsbD_payloadMask, Bool.and_eq_true] at h
  obtain ⟨-, hsome⟩ := h
  rw [getLsbD_parityMask, decide_eq_false_iff_not]
  unfold payloadAt at hsome
  split at hsome
  · cases hsome
  split at hsome
  · omega
  split at hsome <;> rename_i hrow
  · simp only [Bool.and_eq_true, decide_eq_true_eq] at hrow
    omega
  · cases hsome

/-- No payload bit stands at a parity position. -/
theorem extractData_encodeParity (d : Plane) : extractData (encodeParity d) = extractData d :=
  extractData_congr fun _ ha => getLsbD_encodeParity_of_not_parity d (parityMask_of_payloadMask ha)

/-! The positions it reads (R178): the data parts of rows 0 to 8. -/

theorem encodeRows_and_rowDataMask (d : Plane) {i : Nat} (lo : 1 ≤ i) (hi : i ≤ 135) :
    (encodeRows (d &&& rowDataMask)).getLsbD i = (encodeRows d).getLsbD i := by
  have hrow : h15113Enc (getRow (d &&& rowDataMask) ((i - 1) / 15)) = h15113Enc (getRow d ((i - 1) / 15)) := by
    apply h15113Enc_congr
    intro k hk
    have hmask : rowDataMask.getLsbD (15 * ((i - 1) / 15) + 1 + k) = true := by
      simp only [getLsbD_rowDataMask, Bool.and_eq_true, decide_eq_true_eq]
      omega
    rw [getLsbD_getRow, getLsbD_getRow, BitVec.getLsbD_and, hmask, Bool.and_true]
  rw [getLsbD_encodeRows, getLsbD_encodeRows, if_pos ⟨lo, hi⟩, if_pos ⟨lo, hi⟩, hrow]

/-- What `EncodeParity` leaves in the matrix depends on the data positions alone. -/
theorem getLsbD_encodeParity_and_rowDataMask (d : Plane) {i : Nat} (lo : 1 ≤ i) :
    (encodeParity (d &&& rowDataMask)).getLsbD i = (encodeParity d).getLsbD i := by
  by_cases hi : i < 196
  · have hcol : h1393Enc (getCol (encodeRows (d &&& rowDataMask)) ((i - 1) % 15)) =
        h1393Enc (getCol (encodeRows d) ((i - 1) % 15)) := by
      apply h1393Enc_congr
      intro a ha
      rw [getLsbD_getCol, getLsbD_getCol, encodeRows_and_rowDataMask d (by omega) (by omega)]
    rw [encodeParity, encodeParity, getLsbD_encodeCols, getLsbD_encodeCols, if_pos ⟨lo, hi⟩, if_pos ⟨lo, hi⟩, hcol]
  · rw [BitVec.getLsbD_of_ge _ _ (by omega), BitVec.getLsbD_of_ge _ _ (by omega)]

/-! `EncodeParity` takes XOR to XOR, as both encoders do (R142). -/

theorem encodeRows_xor (d e : Plane) : encodeRows (d ^^^ e) = encodeRows d ^^^ encodeRows e := by
  apply BitVec.eq_of_getLsbD_eq
  intro i _
  simp only [BitVec.getLsbD_xor, getLsbD_encodeRows, getRow_xor, h15113Enc_xor]
  split <;> rfl

theorem encodeCols_xor (d e : Plane) : encodeCols (d ^^^ e) = encodeCols d ^^^ encodeCols e := by
  apply BitVec.eq_of_getLsbD_eq
  intro i _
  simp only [BitVec.getLsbD_xor, getLsbD_encodeCols, getCol_xor, h1393Enc_xor]
  split <;> rfl

theorem encodeParity_xor (d e : Plane) : encodeParity (d ^^^ e) = encodeParity d ^^^ encodeParity e := by
  rw [encodeParity, encodeParity, encodeParity, encodeRows_xor, encodeCols_xor]

/-- DEINT[0] is in no row and in no column, so alone it gives no parity. -/
theorem encodeParity_cellMask_zero : encodeParity (cellMask 196 0) = cellMask 196 0 := by
  have hrow : h15113Enc 0 = 0 := by decide
  have hcol : h1393Enc 0 = 0 := by decide
  have hcell : ∀ i, 1 ≤ i → (cellMask 196 0).getLsbD i = false := fun i hi => by
    rw [getLsbD_cellMask, decide_eq_false (p := i = 0) (by omega), Bool.and_false]
  have hrows : encodeRows (cellMask 196 0) = cellMask 196 0 := by
    apply BitVec.eq_of_getLsbD_eq
    intro i _
    rw [getLsbD_encodeRows, getRow_cellMask_zero, hrow]
    split
    next h =>
      obtain ⟨lo, -⟩ := h
      rw [hcell i lo, BitVec.ofNat_eq_ofNat, BitVec.getLsbD_zero]
    next => rfl
  rw [encodeParity, hrows]
  apply BitVec.eq_of_getLsbD_eq
  intro i _
  rw [getLsbD_encodeCols, getCol_cellMask_zero, hcol]
  split
  next h =>
    obtain ⟨lo, -⟩ := h
    rw [hcell i lo, BitVec.ofNat_eq_ofNat, BitVec.getLsbD_zero]
  next => rfl

/-- Settles O48: the codewords and the kept positions from the two halves bit by bit; DEINT[0] by linearity; the free order. -/
theorem encodeParityMakesCodewords : Obligations.EncodeParityMakesCodewords := by
  refine ⟨fun _ => rfl, codewordPlane_encodeParity, fun d _ => getLsbD_encodeParity_of_not_parity d,
    fun d a => getLsbD_encodeCols_of_le (encodeRows d), fun d => ?zero, fun d l hp => ?rows, fun d l hp => ?cols⟩
  case zero => rw [encodeParity_xor, encodeParity_cellMask_zero]
  case rows =>
    exact foldl_putRow_perm h15113Enc hp List.nodup_range (fun r hr => by have := List.mem_range.1 hr; omega) d
  case cols => exact foldl_putCol_perm h1393Enc hp List.nodup_range (fun c => List.mem_range.1) d

end Sys2Proof.Machine
end

section
/-! SUPPORT. The correction loop (spec/42_bptc.md R169 to R173): where it stops, and what it makes of DEINT[0], of a plane of
codewords, and of one wrong position in such a plane. -/

namespace Sys2Proof.Machine

/-! Where the correction loop stops (R169). -/

theorem correctCol_eq_ite (x : Working) (c : Nat) :
    correctCol x c =
      if (h1393Dec (getCol x.plane c)).2 then ⟨putCol x.plane c (h1393Dec (getCol x.plane c)).1, true⟩ else x := by
  unfold correctCol
  split <;> rename_i h <;> simp only [h] <;> rfl

theorem correctRow_eq_ite (x : Working) (r : Nat) :
    correctRow x r =
      if (h15113Dec (getRow x.plane r)).2 then ⟨putRow x.plane r (h15113Dec (getRow x.plane r)).1, true⟩ else x := by
  unfold correctRow
  split <;> rename_i h <;> simp only [h] <;> rfl

/-- A column step that leaves FIXING clear changed nothing. -/
theorem correctCol_of_not_fixing {x : Working} {c : Nat} (h : (correctCol x c).fixing = false) : correctCol x c = x := by
  rw [correctCol_eq_ite] at h ⊢
  split <;> rename_i hflag
  · rw [if_pos hflag] at h
    cases h
  · rfl

/-- A row step that leaves FIXING clear changed nothing. -/
theorem correctRow_of_not_fixing {x : Working} {r : Nat} (h : (correctRow x r).fixing = false) : correctRow x r = x := by
  rw [correctRow_eq_ite] at h ⊢
  split <;> rename_i hflag
  · rw [if_pos hflag] at h
    cases h
  · rfl

/-- A run of such steps that leaves FIXING clear changed nothing. -/
theorem foldl_of_not_fixing {f : Working → Nat → Working} (hf : ∀ x k, (f x k).fixing = false → f x k = x) (l : List Nat)
    (x : Working) (h : (l.foldl f x).fixing = false) : l.foldl f x = x := by
  induction l generalizing x with
  | nil => rfl
  | cons k l ih =>
    rw [List.foldl_cons] at h ⊢
    have hrest := ih (f x k) h
    rw [hrest] at h ⊢
    exact hf x k h

/-- A pass that flips nothing changes nothing. -/
theorem correctPass_of_not_fixing {d : Plane} (h : (correctPass d).fixing = false) : correctPass d = ⟨d, false⟩ := by
  have hrows := foldl_of_not_fixing (fun _ _ => correctRow_of_not_fixing) _ _ h
  rw [correctPass, hrows] at h ⊢
  exact foldl_of_not_fixing (fun _ _ => correctCol_of_not_fixing) _ _ h

/-- The plane after one pass. -/
def passPlane (d : Plane) : Plane := (correctPass d).plane

/-- With passes left, the loop is some `k + 1` passes: `k` that flipped something, and a last one that is clean or the last
allowed. -/
theorem correctLoop_eq_iterate (fuel pass : Nat) (d : Plane) :
    ∃ k, k ≤ fuel ∧ correctLoop (fuel + 1) pass d = (passPlane^[k + 1] d, pass + (k + 1)) ∧
      (∀ j, j < k → (correctPass (passPlane^[j] d)).fixing = true) ∧
      (k < fuel → (correctPass (passPlane^[k] d)).fixing = false) := by
  induction fuel generalizing pass d with
  | zero =>
    refine ⟨0, le_rfl, ?_, fun j hj => absurd hj (Nat.not_lt_zero j), fun h => absurd h (Nat.lt_irrefl 0)⟩
    rw [correctLoop]
    split <;> rename_i h <;> simp [passPlane, h, correctLoop]
  | succ fuel ih =>
    rw [correctLoop]
    split <;> rename_i d' h
    · obtain ⟨k, hk, heq, hfix, hstop⟩ := ih (pass + 1) d'
      have hd' : passPlane d = d' := by rw [passPlane, h]
      refine ⟨k + 1, by omega, ?_, fun j hj => ?_, fun hlt => ?_⟩
      · rw [heq, Function.iterate_succ_apply _ (k + 1), hd']
        congr 1
        omega
      · cases j with
        | zero => rw [Function.iterate_zero_apply, h]
        | succ j =>
          rw [Function.iterate_succ_apply, hd']
          exact hfix j (by omega)
      · rw [Function.iterate_succ_apply, hd']
        exact hstop (by omega)
    · refine ⟨0, Nat.zero_le _, ?_, fun j hj => absurd hj (Nat.not_lt_zero j), fun _ => ?_⟩
      · simp [passPlane, h]
      · rw [Function.iterate_zero_apply, h]

/-- Settles O49: the steps by the decoder's flag, the loop as iterated passes, and that a clean pass is no change. -/
theorem correctionStopsAtCleanPassOrFifth : Obligations.CorrectionStopsAtCleanPassOrFifth := by
  refine ⟨fun _ => rfl, fun x c _ => correctCol_eq_ite x c, fun x r _ => correctRow_eq_ite x r, fun d => ?stops,
    fun d h => ?clean⟩
  case stops =>
    obtain ⟨k, hk, heq, hfix, hstop⟩ := correctLoop_eq_iterate 4 0 d
    rw [Nat.zero_add] at heq
    exact ⟨k + 1, by omega, by omega, heq, fun j hj => hfix j (by omega), fun hlt => hstop (by omega)⟩
  case clean => rw [correctPass_of_not_fixing h]

/-- Settles O51: each step lets a plane of codewords through, hence the loop; and `EncodeParity` makes such planes. -/
theorem correctionDependsOnlyOnTheError : Obligations.CorrectionDependsOnlyOnTheError :=
  ⟨fun _ E hC => ⟨fun _ f hc => correctCol_addPlane hC hc ⟨E, f⟩, fun _ f hr => correctRow_addPlane hC hr ⟨E, f⟩,
      correct_xor_of_codewordPlane hC E⟩,
    fun y => codewordPlane_encodeParity (placeData y)⟩

/-! DEINT[0] (R170): the loop keeps it, and works on the rest alone. -/

theorem lt_of_mem_nCols {c : Nat} (h : c ∈ List.range Config.nCols) : c < 15 := List.mem_range.1 h

theorem lt_of_mem_nDataRows {r : Nat} (h : r ∈ List.range Config.nDataRows) : r < 13 :=
  Nat.lt_trans (List.mem_range.1 h) (by decide)

theorem getLsbD_correctPass_zero (d : Plane) : (correctPass d).plane.getLsbD 0 = d.getLsbD 0 := by
  rw [correctPass, foldl_correctRow _ List.nodup_range fun _ => lt_of_mem_nDataRows,
    foldl_correctCol _ List.nodup_range fun _ => lt_of_mem_nCols,
    getLsbD_foldl_putRow (fun w => (h15113Dec w).1) _ List.nodup_range fun _ => lt_of_mem_nDataRows, if_neg (by omega),
    getLsbD_foldl_putCol (fun w => (h1393Dec w).1) _ List.nodup_range fun _ => lt_of_mem_nCols, if_neg (by omega)]

theorem getLsbD_correct_zero (d : Plane) : (correct d).1.getLsbD 0 = d.getLsbD 0 := by
  obtain ⟨k, -, heq, -, -⟩ := correctLoop_eq_iterate 4 0 d
  rw [correct, show Config.maxPasses = 4 + 1 from rfl, heq]
  show (passPlane^[k + 1] d).getLsbD 0 = _
  induction k + 1 with
  | zero => rfl
  | succ n ih =>
    rw [Function.iterate_succ_apply', passPlane, getLsbD_correctPass_zero, ih]

/-- Masking off DEINT[0] flips it if it is set. -/
theorem and_matrixMask (d : Plane) : d &&& matrixMask = if d.getLsbD 0 then d ^^^ cellMask 196 0 else d := by
  apply BitVec.eq_of_getLsbD_eq
  intro i hi
  rw [apply_ite (BitVec.getLsbD · i), getLsbD_xor_cellMask _ _ hi, BitVec.getLsbD_and, getLsbD_matrixMask,
    decide_eq_true hi, Bool.true_and]
  rcases Nat.eq_zero_or_pos i with rfl | hpos
  · cases d.getLsbD 0 <;> rfl
  · rw [decide_eq_true (Nat.one_le_iff_ne_zero.2 (Nat.ne_of_gt hpos)), Bool.and_true, if_neg (Nat.ne_of_gt hpos), ite_self]

/-- Position 0 apart, correcting a plane is correcting its matrix. -/
theorem getLsbD_correct_and_matrixMask (d : Plane) {a : Nat} (ha : a ≠ 0) :
    (correct (d &&& matrixMask)).1.getLsbD a = (correct d).1.getLsbD a := by
  rw [and_matrixMask]
  split
  · rw [correct_xor_cellMask_zero, BitVec.getLsbD_xor, getLsbD_cellMask, decide_eq_false ha, Bool.and_false, Bool.xor_false]
  · rfl

/-! The loop on a plane of codewords, and with one wrong bit in it (R173). -/

/-- A run of steps that all leave `x` as it is. -/
theorem foldl_of_fixed {f : Working → Nat → Working} {x : Working} (l : List Nat) (h : ∀ k ∈ l, f x k = x) :
    l.foldl f x = x := by
  induction l with
  | nil => rfl
  | cons k l ih => rw [List.foldl_cons, h k List.mem_cons_self, ih fun k' hk' => h k' (List.mem_cons_of_mem k hk')]

section Codewords

variable {d : Plane} (h : CodewordPlane d)
include h

theorem foldl_correctCol_codewordPlane (f : Bool) : (List.range Config.nCols).foldl correctCol ⟨d, f⟩ = ⟨d, f⟩ := by
  obtain ⟨-, hcols⟩ := h
  refine foldl_of_fixed _ fun c hc => ?_
  rw [correctCol_eq_ite, h1393Dec_of_unflipped (.inl (hcols c (lt_of_mem_nCols hc)))]
  rfl

theorem foldl_correctRow_codewordPlane (f : Bool) : (List.range Config.nDataRows).foldl correctRow ⟨d, f⟩ = ⟨d, f⟩ := by
  obtain ⟨hrows, -⟩ := h
  refine foldl_of_fixed _ fun r hr => ?_
  rw [correctRow_eq_ite, h15113Dec_of_syndrome_zero (hrows r (List.mem_range.1 hr))]
  rfl

/-- A plane of codewords takes one more pass, which leaves it. -/
theorem correctLoop_codewordPlane (fuel pass : Nat) : correctLoop (fuel + 1) pass d = (d, pass + 1) := by
  rw [correctLoop, correctPass, foldl_correctCol_codewordPlane h, foldl_correctRow_codewordPlane h]

theorem correct_codewordPlane : correct d = (d, 1) := correctLoop_codewordPlane h 4 0

end Codewords

theorem codewordPlane_zero : CodewordPlane 0 := by
  have hrow : ∀ r, getRow 0 r = 0 := fun r => BitVec.eq_of_getLsbD_eq fun k _ => by simp [getLsbD_getRow]
  have hcol : ∀ c, getCol 0 c = 0 := fun c => BitVec.eq_of_getLsbD_eq fun a _ => by simp [getLsbD_getCol]
  exact ⟨fun r _ => by rw [hrow]; rfl, fun c _ => by rw [hcol]; rfl⟩

/-- One wrong position is one wrong bit in its own column. -/
theorem getCol_cellMask {a c : Nat} (lo : 1 ≤ a) (hi : a < 196) (hc : c < 15) :
    getCol (cellMask 196 a) c = if c = (a - 1) % 15 then cellMask 13 ((a - 1) / 15) else 0 := by
  apply BitVec.eq_of_getLsbD_eq
  intro k hk
  rw [getLsbD_getCol, getLsbD_cellMask, decide_eq_true hk, decide_eq_true (by omega), Bool.true_and, Bool.true_and]
  split <;> rename_i h
  · rw [getLsbD_cellMask, decide_eq_true hk, Bool.true_and, decide_eq_decide]
    omega
  · rw [decide_eq_false (by omega)]
    exact BitVec.getLsbD_zero.symm

theorem h1393Dec_cellMask {k : Nat} (hk : k < 13) : h1393Dec (cellMask 13 k) = (0, true) := by
  have h := h1393Dec_single_error (c := 0) rfl hk
  rwa [BitVec.ofNat_eq_ofNat, BitVec.zero_xor] at h

theorem h1393Dec_zero : h1393Dec 0 = (0, false) := h1393Dec_of_unflipped (.inl rfl)

/-- The columns put one wrong position right. -/
theorem foldl_correctCol_cellMask {a : Nat} (lo : 1 ≤ a) (hi : a < 196) :
    (List.range Config.nCols).foldl correctCol ⟨cellMask 196 a, false⟩ = ⟨0, true⟩ := by
  have hdiv : (a - 1) / 15 < 13 := by omega
  have hmod : (a - 1) % 15 < 15 := Nat.mod_lt _ (by decide)
  have hword : ∀ c, c < 15 → (h1393Dec (getCol (cellMask 196 a) c)).1 = 0 := by
    intro c hc
    rw [getCol_cellMask lo hi hc]
    split
    · rw [h1393Dec_cellMask hdiv]
    · rw [h1393Dec_zero]
  have hflag : (h1393Dec (getCol (cellMask 196 a) ((a - 1) % 15))).2 = true := by
    rw [getCol_cellMask lo hi hmod, if_pos rfl, h1393Dec_cellMask hdiv]
  rw [foldl_correctCol _ List.nodup_range fun _ => lt_of_mem_nCols]
  refine congrArg₂ Working.mk ?_ ?_
  · apply BitVec.eq_of_getLsbD_eq
    intro i hlt
    rw [getLsbD_foldl_putCol (fun w => (h1393Dec w).1) _ List.nodup_range fun _ => lt_of_mem_nCols,
      BitVec.ofNat_eq_ofNat, BitVec.getLsbD_zero]
    have hcol : (i - 1) % 15 < 15 := Nat.mod_lt _ (by decide)
    rcases Nat.eq_zero_or_pos i with rfl | hpos
    · rw [if_neg (by omega), getLsbD_cellMask, decide_eq_false (p := 0 = a) (by omega), Bool.and_false]
    · rw [if_pos ⟨hpos, hlt, List.mem_range.2 hcol⟩, hword _ hcol, BitVec.ofNat_eq_ofNat, BitVec.getLsbD_zero]
  · rw [Bool.false_or, List.any_eq_true]
    exact ⟨_, List.mem_range.2 hmod, hflag⟩

/-- One wrong position takes one pass that mends it and one that finds nothing. -/
theorem correct_cellMask {a : Nat} (lo : 1 ≤ a) (hi : a < 196) : correct (cellMask 196 a) = (0, 2) := by
  have hpass : correctPass (cellMask 196 a) = ⟨0, true⟩ := by
    rw [correctPass, foldl_correctCol_cellMask lo hi, foldl_correctRow_codewordPlane codewordPlane_zero]
  rw [correct, show Config.maxPasses = 4 + 1 from rfl, correctLoop, hpass]
  exact correctLoop_codewordPlane codewordPlane_zero 3 1

/-- One wrong position in a plane of codewords is put right. -/
theorem correct_codewordPlane_xor_cellMask {d : Plane} (h : CodewordPlane d) {a : Nat} (lo : 1 ≤ a) (hi : a < 196) :
    correct (d ^^^ cellMask 196 a) = (d, 2) := by
  rw [correct_xor_of_codewordPlane h, correct_cellMask lo hi, BitVec.ofNat_eq_ofNat, BitVec.xor_zero]

/-- One wrong position, DEINT[0] or not, leaves the payload right. -/
theorem extractData_correct_codewordPlane_xor_cellMask {d : Plane} (h : CodewordPlane d) {a : Nat} (hi : a < 196) :
    extractData (correct (d ^^^ cellMask 196 a)).1 = extractData d := by
  rcases Nat.eq_zero_or_pos a with rfl | lo
  · rw [extractData_correct_xor_cellMask_zero, correct_codewordPlane h]
  · rw [correct_codewordPlane_xor_cellMask h lo hi]

end Sys2Proof.Machine
end

section
/-! SUPPORT. BPTC.CORRECT, BPTC.EXTRACT, BPTC.PLACE and BPTC.PARITY (spec/42_bptc.md R175 to R178): what each answers when its
operands are readable, and what it leaves in DEINT or PAYLOAD. -/

namespace Sys2Proof.Machine

theorem exec_bptcCorrect (s : State) : exec .bptcCorrect s = andThen (correctDeint s) fun t => .next (complete t) := rfl

theorem exec_bptcExtract (s : State) : exec .bptcExtract s = andThen (extractPayload s) fun t => .next (complete t) := rfl

theorem exec_bptcPlace (s : State) : exec .bptcPlace s = andThen (placePayload s) fun t => .next (complete t) := rfl

theorem exec_bptcParity (s : State) : exec .bptcParity s = andThen (parityDeint s) fun t => .next (complete t) := rfl

section Readable

variable {s : State}

theorem exec_bptcCorrect_of_readable (h : Readable s.deint matrixMask s) :
    exec .bptcCorrect s = .next (complete (leaveLoop
      { s with deint := s.deint.put matrixMask (correct (operand s.deint matrixMask s)).1,
               draws := drawsAfter s.deint matrixMask s })) := by
  rw [exec_bptcCorrect, correctDeint_of_readable h, andThen_next]

theorem exec_bptcExtract_of_readable (h : Readable s.deint payloadMask s) :
    exec .bptcExtract s = .next
      { s with payload := Cells.full (extractData (operand s.deint payloadMask s)), status := 0x00,
               draws := drawsAfter s.deint payloadMask s } := by
  rw [exec_bptcExtract, extractPayload_of_readable h, andThen_next, complete_eq]

theorem exec_bptcPlace_of_readable (h : Readable s.payload (BitVec.allOnes 96) s) :
    exec .bptcPlace s = .next
      { s with deint := Cells.full (placeData (operand s.payload (BitVec.allOnes 96) s)), status := 0x00,
               draws := drawsAfter s.payload (BitVec.allOnes 96) s } := by
  rw [exec_bptcPlace, placePayload_of_readable h, andThen_next, complete_eq]

theorem exec_bptcParity_of_readable (h : Readable s.deint rowDataMask s) :
    exec .bptcParity s = .next
      { s with deint := s.deint.put parityMask (encodeParity (operand s.deint rowDataMask s)), status := 0x00,
               draws := drawsAfter s.deint rowDataMask s } := by
  rw [exec_bptcParity, parityDeint_of_readable h, andThen_next, complete_eq]

/-- BPTC.PARITY with its operands all written: no draw, and only DEINT and STATUS change. -/
theorem exec_bptcParity_of_covers (h : s.deint.covers rowDataMask = true) :
    exec .bptcParity s = .next
      { s with deint := s.deint.put parityMask (encodeParity (s.deint.val &&& rowDataMask)), status := 0x00 } := by
  obtain ⟨hop, hdraws⟩ := operand_of_covers s.deint rowDataMask s h
  rw [exec_bptcParity_of_readable (.inl h), hop, hdraws]

end Readable

/-- Settles O52: DEINT by the mask of the matrix, and the loop on the error alone: none, the two at 142 and 157, and one. -/
theorem correctRepairsDeint : Obligations.CorrectRepairsDeint := by
  refine ⟨rfl, fun s h => ⟨_, exec_bptcCorrect_of_readable h, rfl, fun a lo hi => ?matrix, ?zero⟩, fun s h => ?faults,
    fun d => correct_codewordPlane, fun d hd => ?unsettled, fun y => ?single⟩
  case matrix =>
    exact put_cell_of_mem _ _ (by rw [getLsbD_matrixMask, decide_eq_true lo, decide_eq_true (by omega), Bool.and_self])
  case zero => exact put_cell_of_not_mem _ _ (getLsbD_matrixMask 0)
  case faults => exact ⟨_, by rw [exec_bptcCorrect, correctDeint_fault h, andThen_fault]⟩
  case unsettled =>
    have herror : correct (cellMask 196 142 ^^^ cellMask 196 157) = (cellMask 196 142 ^^^ cellMask 196 157, 5) := by
      decide +kernel
    rw [BitVec.xor_assoc, correct_xor_of_codewordPlane hd, herror]
  case single => exact correct_codewordPlane_xor_cellMask (codewordPlane_encodeParity _) (by decide) (by decide)

/-- Settles O53: the answer, and that every payload bit comes from a position of the nine ranges. -/
theorem extractFillsPayload : Obligations.ExtractFillsPayload := by
  refine ⟨rfl, fun s => exec_bptcExtract_of_readable, fun d e h => extractData_congr fun a ha => ?reads, by decide +kernel⟩
  case reads =>
    have hlt : a < 196 := BitVec.lt_of_getLsbD ha
    rw [getLsbD_payloadMask, decide_eq_true hlt, Bool.true_and, payloadAt_isSome_iff hlt] at ha
    obtain ⟨r, hr, lo, hi⟩ := ha
    exact h r hr a lo hi

/-- Settles O54: the answer, and 0 outside the nine ranges. -/
theorem placeFillsDeint : Obligations.PlaceFillsDeint :=
  ⟨rfl, fun _ h => ⟨_, exec_bptcPlace_of_readable h, rfl, fun _ => getLsbD_placeData_outside _⟩, by decide +kernel⟩

/-- The mask of BPTC.PARITY is the positions that R178 lists. -/
theorem getLsbD_parityMask_iff {a : Nat} (ha : a < 196) :
    parityMask.getLsbD a = true ↔ 136 ≤ a ∨ ∃ r, r ≤ 8 ∧ 15 * r + 12 ≤ a ∧ a ≤ 15 * r + 15 := by
  rw [getLsbD_parityMask, decide_eq_true_eq]
  constructor
  · rintro ⟨lo, -, h⟩
    by_cases h135 : a ≤ 135
    · exact .inr ⟨(a - 1) / 15, by omega, by omega, by omega⟩
    · exact .inl (by omega)
  · rintro (h | ⟨r, hr, lo, hi⟩) <;> omega

/-- What BPTC.PARITY writes, it does not read. -/
theorem put_parityMask_val_and_rowDataMask (c : Cells 196) (v : Plane) :
    (c.put parityMask v).val &&& rowDataMask = c.val &&& rowDataMask := by
  apply BitVec.eq_of_getLsbD_eq
  intro a _
  rw [BitVec.getLsbD_and, BitVec.getLsbD_and, getLsbD_put_val, parityMask_eq, BitVec.getLsbD_and, BitVec.getLsbD_not]
  cases rowDataMask.getLsbD a <;> simp

section Put

variable {n : Nat} (c : Cells n) (m v : BitVec n)

/-- Writing the same bits to the same cells again changes nothing. -/
theorem put_put : (c.put m v).put m v = c.put m v := by
  have hval : ((c.put m v).put m v).val = (c.put m v).val := by
    apply BitVec.eq_of_getLsbD_eq
    intro i _
    rw [getLsbD_put_val, getLsbD_put_val]
    split <;> rfl
  have hwritten : ((c.put m v).put m v).written = (c.put m v).written := by
    apply BitVec.eq_of_getLsbD_eq
    intro i _
    rw [getLsbD_put_written, getLsbD_put_written, Bool.or_assoc, Bool.or_self]
  exact congrArg₂ Cells.mk hval hwritten

/-- A write leaves written what was written. -/
theorem covers_put {m' : BitVec n} (h : c.covers m' = true) : (c.put m v).covers m' = true := by
  rw [covers_iff] at h ⊢
  intro i hi
  rw [getLsbD_put_written, h i hi, Bool.true_or]

end Put

/-- Settles O55: DEINT by the mask of the parity positions; a second run reads the same data and writes the same bits. -/
theorem parityFillsParityPositions : Obligations.ParityFillsParityPositions := by
  refine ⟨rfl, fun s h => ⟨_, exec_bptcParity_of_readable h, rfl, fun a ha hp => ?parity, fun a ha hp => ?kept⟩,
    fun s t hc ht => ?again, by decide +kernel⟩
  case parity => exact put_cell_of_mem _ _ ((getLsbD_parityMask_iff ha).2 hp)
  case kept =>
    rw [← getLsbD_parityMask_iff ha, Bool.not_eq_true] at hp
    exact put_cell_of_not_mem _ _ hp
  case again =>
    rw [exec_bptcParity_of_covers hc] at ht
    obtain rfl := Host.Outcome.next.inj ht
    refine ⟨_, exec_bptcParity_of_covers (covers_put _ _ _ hc), ?_⟩
    rw [put_parityMask_val_and_rowDataMask, put_put]

end Sys2Proof.Machine
end

section
/-! SUPPORT. BPTC.DEC and BPTC.ENC (spec/42_bptc.md R179 to R182): what each answers, that each is its four steps, that decoding
undoes encoding, and what a flipped FRAME bit does. -/

namespace Sys2Proof.Machine

/-! DEINT as the two commands leave it: partly written over, it is a plane written whole. -/

/-- A partial write of a file written whole, told by its bits inside and outside the mask. -/
theorem full_put_eq {n : Nat} {m v d e : BitVec n} (hin : ∀ i, i < n → m.getLsbD i = true → v.getLsbD i = e.getLsbD i)
    (hout : ∀ i, i < n → m.getLsbD i = false → d.getLsbD i = e.getLsbD i) : (Cells.full d).put m v = Cells.full e := by
  have hval : ((Cells.full d).put m v).val = e := by
    apply BitVec.eq_of_getLsbD_eq
    intro i hi
    rw [getLsbD_put_val, full_val]
    split <;> rename_i h
    · exact hin i hi h
    · exact hout i hi (Bool.not_eq_true _ ▸ h)
  have hwritten : ((Cells.full d).put m v).written = BitVec.allOnes n := by
    apply BitVec.eq_of_getLsbD_eq
    intro i hi
    rw [getLsbD_put_written, full_written, BitVec.getLsbD_allOnes, decide_eq_true hi, Bool.true_or]
  exact congrArg₂ Cells.mk hval hwritten

/-- Step 3 of R179: the loop keeps DEINT[0] and does not read it. -/
theorem full_put_correct (d : Plane) :
    (Cells.full d).put matrixMask (correct (d &&& matrixMask)).1 = Cells.full (correct d).1 := by
  refine full_put_eq (fun a ha h => ?_) (fun a ha h => ?_)
  all_goals rw [getLsbD_matrixMask, decide_eq_true ha, Bool.true_and] at h
  · exact getLsbD_correct_and_matrixMask d (Nat.one_le_iff_ne_zero.1 (of_decide_eq_true h))
  · rw [Nat.lt_one_iff.1 (Nat.lt_of_not_le (of_decide_eq_false h)), getLsbD_correct_zero]

/-- The parity step of R180: `EncodeParity` keeps what it does not write and reads only data. -/
theorem full_put_encodeParity (d : Plane) :
    (Cells.full d).put parityMask (encodeParity (d &&& rowDataMask)) = Cells.full (encodeParity d) := by
  refine full_put_eq (fun a _ h => ?_) (fun a _ h => (getLsbD_encodeParity_of_not_parity d h).symm)
  rw [getLsbD_parityMask, decide_eq_true_eq] at h
  obtain ⟨lo, -, -⟩ := h
  exact getLsbD_encodeParity_and_rowDataMask d lo

/-! The answers (R179, R180). The planes are named by equations, so that no proof evaluates them. -/

/-- What BPTC.DEC leaves, from the unpacked and the corrected plane and the draws made for its operands. -/
def decodedState (raw fixed : Plane) (k : Nat) (s : State) : State :=
  { s with
    raw := Cells.full raw
    deint := Cells.full fixed
    payload := Cells.full (extractData fixed)
    status := 0x00, pass := Config.idlePass k, fixing := Config.idleFixing k, draws := k + 1 }

@[simp] theorem decodedState_payload (raw fixed : Plane) (k : Nat) (s : State) :
    (decodedState raw fixed k s).payload = Cells.full (extractData fixed) := rfl

/-- What BPTC.ENC leaves, from the encoded plane and the draws made for its operands. -/
def encodedState (plane : Plane) (k : Nat) (s : State) : State :=
  { s with
    deint := Cells.full plane
    raw := Cells.full (interleave plane)
    frame := s.frame.put framePlaneMask (rawToFrame (interleave plane) s.frame.val)
    status := 0x00, draws := k }

@[simp] theorem encodedState_frame (plane : Plane) (k : Nat) (s : State) :
    (encodedState plane k s).frame = s.frame.put framePlaneMask (rawToFrame (interleave plane) s.frame.val) := rfl

theorem exec_bptcDec (s : State) : exec .bptcDec s = execBptcDec s := rfl

theorem exec_bptcEnc (s : State) : exec .bptcEnc s = execBptcEnc s := rfl

section Answers

variable {s : State}

theorem exec_bptcDec_of_readable {raw fixed : Plane} (h : Readable s.frame framePlaneMask s)
    (hraw : raw = frameToRaw (operand s.frame framePlaneMask s)) (hfixed : fixed = (correct (deinterleave raw)).1) :
    exec .bptcDec s = .next (decodedState raw fixed (drawsAfter s.frame framePlaneMask s) s) := by
  rw [exec_bptcDec, execBptcDec_of_readable h hraw rfl rfl rfl, full_put_correct, ← hfixed, full_val,
    extractData_and_payloadMask]
  rfl

/-- BPTC.DEC with its operands all written. -/
theorem exec_bptcDec_of_covers {raw fixed : Plane} (h : s.frame.covers framePlaneMask = true)
    (hraw : raw = frameToRaw s.frame.val) (hfixed : fixed = (correct (deinterleave raw)).1) :
    exec .bptcDec s = .next (decodedState raw fixed s.draws s) := by
  obtain ⟨hop, hdraws⟩ := operand_of_covers s.frame framePlaneMask s h
  rw [exec_bptcDec_of_readable (.inl h) (by rw [hop, frameToRaw_and_framePlaneMask, hraw]) hfixed, hdraws]

theorem exec_bptcDec_fault (h : ¬ Readable s.frame framePlaneMask s) :
    exec .bptcDec s = .fault (.unwrittenRead .frame) := by
  rw [exec_bptcDec, execBptcDec, unpackFrame_fault h, andThen_fault]

theorem exec_bptcEnc_of_readable {plane : Plane} (h : Readable s.payload (BitVec.allOnes 96) s)
    (hplane : plane = encodeParity (placeData (operand s.payload (BitVec.allOnes 96) s))) :
    exec .bptcEnc s = .next (encodedState plane (drawsAfter s.payload (BitVec.allOnes 96) s) s) := by
  rw [exec_bptcEnc, execBptcEnc_of_readable h rfl rfl rfl, full_put_encodeParity, ← hplane, full_val]
  rfl

/-- BPTC.ENC answers a next state only then. -/
theorem readable_of_exec_bptcEnc {t : State} (h : exec .bptcEnc s = .next t) : Readable s.payload (BitVec.allOnes 96) s := by
  obtain ⟨-, -, -, hr, -⟩ := execBptcEnc_eq_next h
  exact hr

end Answers

/-! The four steps (R179, R180): between two commands only STATUS is written, which no step reads. -/

theorem complete_complete (s : State) : complete (complete s) = complete s := rfl

theorem readCells_complete {n : Nat} (f : CellFile) (c : Cells n) (m : BitVec n) (s : State) :
    readCells f c m (complete s) = andThen (readCells f c m s) fun x => .next (x.1, complete x.2) := by
  by_cases h : Readable c m s
  · rw [readCells_of_readable f c m s h, readCells_of_readable f c m (complete s) h]
    rfl
  · rw [readCells_of_not_readable f c m s h, readCells_of_not_readable f c m (complete s) h, andThen_fault]

theorem deinterleaveRaw_complete (s : State) :
    deinterleaveRaw (complete s) = andThen (deinterleaveRaw s) fun t => .next (complete t) := by
  rw [deinterleaveRaw, deinterleaveRaw, readCells_complete, andThen_assoc, andThen_assoc]
  rfl

theorem correctDeint_complete (s : State) :
    correctDeint (complete s) = andThen (correctDeint s) fun t => .next (complete t) := by
  rw [correctDeint, correctDeint, readCells_complete, andThen_assoc, andThen_assoc]
  rfl

theorem extractPayload_complete (s : State) :
    extractPayload (complete s) = andThen (extractPayload s) fun t => .next (complete t) := by
  rw [extractPayload, extractPayload, readCells_complete, andThen_assoc, andThen_assoc]
  rfl

theorem parityDeint_complete (s : State) :
    parityDeint (complete s) = andThen (parityDeint s) fun t => .next (complete t) := by
  rw [parityDeint, parityDeint, readCells_complete, andThen_assoc, andThen_assoc]
  rfl

theorem interleaveDeint_complete (s : State) :
    interleaveDeint (complete s) = andThen (interleaveDeint s) fun t => .next (complete t) := by
  rw [interleaveDeint, interleaveDeint, readCells_complete, andThen_assoc, andThen_assoc]
  rfl

theorem packFrame_complete (s : State) : packFrame (complete s) = andThen (packFrame s) fun t => .next (complete t) := by
  rw [packFrame, packFrame, readCells_complete, andThen_assoc, andThen_assoc]
  rfl

theorem exec_bptcDec_eq_steps (s : State) :
    exec .bptcDec s =
      andThen (exec .bptcUnpack s) fun s1 => andThen (exec .bptcDeinterleave s1) fun s2 =>
        andThen (exec .bptcCorrect s2) fun s3 => exec .bptcExtract s3 := by
  simp only [exec_bptcDec, execBptcDec, exec_bptcUnpack, exec_bptcDeinterleave, exec_bptcCorrect, exec_bptcExtract,
    andThen_assoc, andThen_next, deinterleaveRaw_complete, correctDeint_complete, extractPayload_complete, complete_complete]

theorem exec_bptcEnc_eq_steps (s : State) :
    exec .bptcEnc s =
      andThen (exec .bptcPlace s) fun s1 => andThen (exec .bptcParity s1) fun s2 =>
        andThen (exec .bptcInterleave s2) fun s3 => exec .bptcPack s3 := by
  simp only [exec_bptcEnc, execBptcEnc, exec_bptcPlace, exec_bptcParity, exec_bptcInterleave, exec_bptcPack,
    andThen_assoc, andThen_next, parityDeint_complete, interleaveDeint_complete, packFrame_complete, complete_complete]

/-- The old planes have no effect, because both are written before they are read. -/
theorem exec_bptcDec_of_other_planes (s : State) (r d : Cells 196) :
    exec .bptcDec { s with raw := r, deint := d } = exec .bptcDec s := by
  by_cases h : Readable s.frame framePlaneMask s
  · rw [exec_bptcDec_of_readable h rfl rfl, exec_bptcDec_of_readable (s := { s with raw := r, deint := d }) h rfl rfl]
    rfl
  · rw [exec_bptcDec_fault h, exec_bptcDec_fault (s := { s with raw := r, deint := d }) h]

/-- Settles O56: the answer, the four steps, and the old planes; the example by evaluation. -/
theorem decDecodesFrame : Obligations.DecDecodesFrame :=
  ⟨rfl, fun _ h => ⟨_, exec_bptcDec_of_readable h rfl rfl, rfl⟩, exec_bptcDec_eq_steps, exec_bptcDec_of_other_planes,
    by decide +kernel, by decide +kernel⟩

/-- An encoded payload has 0 in DEINT[0] (R166). -/
theorem getLsbD_encodeParity_placeData_zero (y : PayloadBits) : (encodeParity (placeData y)).getLsbD 0 = false := by
  rw [getLsbD_encodeParity_of_not_parity _ (getLsbD_parityMask 0), getLsbD_placeData_none y rfl]

/-- Settles O57: the answer, FRAME bit by bit, the four steps; the zero payload and the example by evaluation. -/
theorem encEncodesPayload : Obligations.EncEncodesPayload := by
  refine ⟨rfl, fun s h => ⟨_, exec_bptcEnc_of_readable h rfl, rfl, fun x => put_framePlaneMask_rawToFrame s.frame _, ?top⟩,
    exec_bptcEnc_eq_steps, by decide +kernel, by decide +kernel⟩
  case top =>
    obtain ⟨hval, -⟩ := put_framePlaneMask_rawToFrame s.frame
      (interleave (encodeParity (placeData (operand s.payload (BitVec.allOnes 96) s)))) (x := 7) (by decide)
    rw [encodedState_frame, hval, getLsbD_rawToFrame_some (i := 0) _ _ (by decide) rfl, getLsbD_interleave]
    exact getLsbD_encodeParity_placeData_zero _

/-! Decoding what was encoded (R181). -/

theorem frameToRaw_put_framePlaneMask (c : Cells 264) (r : Plane) :
    frameToRaw (c.put framePlaneMask (rawToFrame r c.val)).val = r := by
  have hval : (c.put framePlaneMask (rawToFrame r c.val)).val = rawToFrame r c.val :=
    BitVec.eq_of_getLsbD_eq fun _ hx => (put_framePlaneMask_rawToFrame c r hx).1
  rw [hval, frameToRaw_rawToFrame]

/-- A write leaves its cells written. -/
theorem covers_put_self {n : Nat} (c : Cells n) (m v : BitVec n) : (c.put m v).covers m = true := by
  rw [covers_iff]
  intro i hi
  rw [getLsbD_put_written, hi, Bool.or_true]

theorem extractData_encodeParity_placeData (y : PayloadBits) : extractData (encodeParity (placeData y)) = y := by
  rw [extractData_encodeParity, extractData_placeData]

/-- Settles O58: BPTC.DEC finds the encoded plane in FRAME, a plane of codewords. -/
theorem encodeThenDecodeRecoversPayload : Obligations.EncodeThenDecodeRecoversPayload := by
  intro s h
  obtain ⟨plane, hplane⟩ : ∃ p, p = encodeParity (placeData (operand s.payload (BitVec.allOnes 96) s)) := ⟨_, rfl⟩
  have hcode : correct plane = (plane, 1) := by rw [hplane, correct_codewordPlane (codewordPlane_encodeParity _)]
  have hraw : interleave plane = frameToRaw (encodedState plane (drawsAfter s.payload (BitVec.allOnes 96) s) s).frame.val := by
    rw [encodedState_frame, frameToRaw_put_framePlaneMask]
  refine ⟨_, _, exec_bptcEnc_of_readable h hplane, exec_bptcDec_of_covers (covers_put_self _ _ _) hraw rfl, ?_, ?_⟩
  · rw [decodedState_payload, deinterleave_interleave, hcode, hplane, extractData_encodeParity_placeData]
  · rw [← hraw, deinterleave_interleave, hcode]

/-! A flipped FRAME bit (R182). -/

/-- Different plane bits lie at different FRAME bits. -/
theorem frameHome_inj {i j : Nat} (hi : i < 196) (hj : j < 196)
    (h : 8 * (frameHome i).1 + (frameHome i).2 = 8 * (frameHome j).1 + (frameHome j).2) : i = j := by
  obtain ⟨hri, -, hbi⟩ := rawInFrame_frameHome i hi
  obtain ⟨hrj, -, hbj⟩ := rawInFrame_frameHome j hj
  rw [show (frameHome i).1 = (frameHome j).1 by omega, show (frameHome i).2 = (frameHome j).2 by omega, hrj] at hri
  exact (Option.some.inj hri).symm

/-- Flipping the FRAME bit of plane bit `i` flips RAW[i]. -/
theorem frameToRaw_xor_cellMask (f : FrameBits) {i : Nat} (hi : i < 196) :
    frameToRaw (f ^^^ cellMask 264 (8 * (frameHome i).1 + (frameHome i).2)) = frameToRaw f ^^^ cellMask 196 i := by
  apply BitVec.eq_of_getLsbD_eq
  intro j hj
  obtain ⟨-, hn, hb⟩ := rawInFrame_frameHome j hj
  have hlt : 8 * (frameHome j).1 + (frameHome j).2 < 264 := by omega
  rw [getLsbD_xor_cellMask _ _ hj, getLsbD_frameToRaw, getLsbD_frameToRaw, getLsbD_xor_cellMask _ _ hlt,
    decide_eq_true hj, Bool.true_and, Bool.true_and]
  by_cases h : j = i
  · rw [h, if_pos rfl, if_pos rfl]
  · rw [if_neg h, if_neg fun e => h (frameHome_inj hj hi e)]

/-- Deinterleaving moves a flipped bit to its place in DEINT. -/
theorem deinterleave_xor_cellMask (r : Plane) {i : Nat} (hi : i < 196) :
    deinterleave (r ^^^ cellMask 196 i) = deinterleave r ^^^ cellMask 196 (interleaveInv i) := by
  apply BitVec.eq_of_getLsbD_eq
  intro a ha
  rw [getLsbD_xor_cellMask _ _ ha, getLsbD_deinterleave, getLsbD_deinterleave, getLsbD_xor_cellMask _ _ (interleavePos_lt a),
    decide_eq_true ha, Bool.true_and, Bool.true_and]
  by_cases h : a = interleaveInv i
  · rw [h, interleavePos_interleaveInv hi, if_pos rfl, if_pos rfl]
  · rw [if_neg h, if_neg fun e => h (by rw [← e, interleaveInv_interleavePos ha])]

@[simp] theorem flipFrameBit_frame_val (x : Nat) (s : State) :
    (flipFrameBit x s).frame.val = s.frame.val ^^^ cellMask 264 x := rfl

@[simp] theorem flipFrameBit_frame_written (x : Nat) (s : State) :
    (flipFrameBit x s).frame.written = s.frame.written := rfl

@[simp] theorem flipFrameBit_draws (x : Nat) (s : State) : (flipFrameBit x s).draws = s.draws := rfl

/-- A FRAME bit outside the operands of BPTC.DEC may be flipped. -/
theorem operand_flipFrameBit {s : State} {x : Nat} (h : framePlaneMask.getLsbD x = false) :
    operand (flipFrameBit x s).frame framePlaneMask (flipFrameBit x s) = operand s.frame framePlaneMask s := by
  apply BitVec.eq_of_getLsbD_eq
  intro i hi
  rw [operand, operand, getLsbD_readValue, getLsbD_readValue, flipFrameBit_frame_val, flipFrameBit_frame_written,
    flipFrameBit_draws, getLsbD_xor_cellMask _ _ hi]
  by_cases hx : i = x
  · rw [hx, h, Bool.false_and, Bool.false_and]
  · rw [if_neg hx]

/-- The FRAME bits that carry no plane bit (R109). -/
theorem framePlaneMask_of_kept {x : Nat}
    (h : (x / 8 = 12 ∧ x % 8 ≤ 5) ∨ (13 ≤ x / 8 ∧ x / 8 ≤ 19) ∨ (x / 8 = 20 ∧ 2 ≤ x % 8)) :
    framePlaneMask.getLsbD x = false := by
  rw [framePlaneMask, getLsbD_cellsIn]
  simp only [List.any_cons, List.any_nil, Bool.or_false, ← Bool.decide_and, ← Bool.decide_or, decide_eq_false_iff_not]
  omega

/-- Settles O59: one flipped plane bit is one wrong position in a plane of codewords; the other bits are no operands. -/
theorem singleBitErrorIsCorrected : Obligations.SingleBitErrorIsCorrected := by
  refine ⟨fun s t i hi ht => ?corrected, fun s u x hx hu => ?ignored⟩
  case corrected =>
    have hr := readable_of_exec_bptcEnc ht
    obtain ⟨plane, hplane⟩ : ∃ p, p = encodeParity (placeData (operand s.payload (BitVec.allOnes 96) s)) := ⟨_, rfl⟩
    obtain rfl := Host.Outcome.next.inj ((exec_bptcEnc_of_readable hr hplane).symm.trans ht)
    have hcode : CodewordPlane plane := hplane ▸ codewordPlane_encodeParity _
    have hc : (encodedState plane (drawsAfter s.payload (BitVec.allOnes 96) s) s).frame.covers framePlaneMask = true :=
      covers_put_self _ _ _
    refine ⟨_, exec_bptcDec_of_covers (s := flipFrameBit _ _) hc rfl rfl, ?_⟩
    rw [decodedState_payload, flipFrameBit_frame_val, frameToRaw_xor_cellMask _ hi, encodedState_frame,
      frameToRaw_put_framePlaneMask, deinterleave_xor_cellMask _ hi, deinterleave_interleave,
      extractData_correct_codewordPlane_xor_cellMask hcode (interleaveInv_lt i), hplane, extractData_encodeParity_placeData]
  case ignored =>
    have hop := operand_flipFrameBit (s := s) (framePlaneMask_of_kept hx)
    by_cases h : Readable s.frame framePlaneMask s
    · rw [exec_bptcDec_of_readable h rfl rfl] at hu
      obtain rfl := Host.Outcome.next.inj hu
      rw [exec_bptcDec_of_readable (s := flipFrameBit x s) h rfl rfl, hop]
      rfl
    · rw [exec_bptcDec_fault h] at hu
      cases hu

end Sys2Proof.Machine
end

section
/-! SUPPORT. Command words and IllegalCommand (spec/30_encoding.md R80 to R84, spec/60_exceptions.md R200): which words stand for
a command, and with which STATUS a command ends. -/

namespace Sys2Proof.Machine

/-! The words of the commands, and the reserved words (R81, R82, R84). -/

theorem instrWellFormed : ∀ i, Laws.InstrWellFormed.Statement i
  | .nop => Laws.InstrWellFormed.nop
  | .bptcDec => Laws.InstrWellFormed.bptcDec
  | .bptcEnc => Laws.InstrWellFormed.bptcEnc
  | .bptcUnpack => Laws.InstrWellFormed.bptcUnpack
  | .bptcDeinterleave => Laws.InstrWellFormed.bptcDeinterleave
  | .bptcCorrect => Laws.InstrWellFormed.bptcCorrect
  | .bptcExtract => Laws.InstrWellFormed.bptcExtract
  | .bptcPlace => Laws.InstrWellFormed.bptcPlace
  | .bptcParity => Laws.InstrWellFormed.bptcParity
  | .bptcInterleave => Laws.InstrWellFormed.bptcInterleave
  | .bptcPack => Laws.InstrWellFormed.bptcPack
  | .ham1393Dec => Laws.InstrWellFormed.ham1393Dec
  | .ham1393Enc => Laws.InstrWellFormed.ham1393Enc
  | .ham15113Dec => Laws.InstrWellFormed.ham15113Dec
  | .ham15113Enc => Laws.InstrWellFormed.ham15113Enc

@[simp] theorem decode_encode (i : Instr) : decode (encode i) = .ok i := (instrWellFormed i).2

@[simp] theorem reservedWord_encode (i : Instr) : reservedWord (encode i) = false :=
  Bool.not_eq_true' _ ▸ (instrWellFormed i).1

/-- A word is its two fields (R80). -/
theorem toNat_eq_cmdGroup_cmdFn (v : Byte) : v.toNat = 16 * (cmdGroup v).toNat + (cmdFn v).toNat := by
  simp only [cmdGroup, cmdFn, BitVec.extractLsb'_toNat, Nat.shiftRight_eq_div_pow]
  omega

/-- The table of R81 gives each pair of fields the command whose word they make up. -/
theorem toNat_encode_of_commandAt {g f : Nat} {i : Instr} (h : commandAt g f = some i) :
    (encode i).toNat = 16 * g + f := by
  unfold commandAt at h
  split at h <;> cases h <;> rfl

theorem eq_encode_of_commandAt {v : Byte} {i : Instr} (h : commandAt (cmdGroup v).toNat (cmdFn v).toNat = some i) :
    v = encode i :=
  BitVec.eq_of_toNat_eq ((toNat_eq_cmdGroup_cmdFn v).trans (toNat_encode_of_commandAt h).symm)

/-- The pairs of fields that the table of R81 leaves out, group by group. -/
theorem fields_of_commandAt_eq_none {g f : Nat} (h : commandAt g f = none) :
    (g = 0 → 3 ≤ f) ∧ (g = 1 → 4 ≤ f ∧ f ≤ 7 ∨ 12 ≤ f) ∧ (g = 2 → 4 ≤ f) := by
  refine ⟨?_, ?_, ?_⟩ <;> rintro rfl <;> by_contra hf
  · have : f < 3 := by omega
    interval_cases f <;> cases h
  · obtain h1 | ⟨h1, h2⟩ : f < 4 ∨ 8 ≤ f ∧ f < 12 := by omega
    all_goals interval_cases f <;> cases h
  · have : f < 4 := by omega
    interval_cases f <;> cases h

/-- A word that the table of R81 leaves out lies in a range of R84. -/
theorem reservedWord_of_commandAt_eq_none {v : Byte} (h : commandAt (cmdGroup v).toNat (cmdFn v).toNat = none) :
    reservedWord v = true := by
  have hv := toNat_eq_cmdGroup_cmdFn v
  have hf := (cmdFn v).isLt
  have hlt := v.isLt
  obtain ⟨h0, h1, h2⟩ := fields_of_commandAt_eq_none h
  simp only [reservedWord, Bool.or_eq_true, Bool.and_eq_true, decide_eq_true_eq]
  omega

/-- Every word is some command's or reserved. -/
theorem eq_encode_or_reservedWord (v : Byte) : (∃ i, v = encode i) ∨ reservedWord v = true := by
  cases h : commandAt (cmdGroup v).toNat (cmdFn v).toNat with
  | some i => exact .inl ⟨i, eq_encode_of_commandAt h⟩
  | none => exact .inr (reservedWord_of_commandAt_eq_none h)

/-- And no word is both. -/
theorem reservedWord_iff_not_exists_encode (v : Byte) : reservedWord v = true ↔ ¬ ∃ i, v = encode i := by
  constructor
  · rintro hv ⟨i, rfl⟩
    exact Bool.false_ne_true ((reservedWord_encode i).symm.trans hv)
  · exact (eq_encode_or_reservedWord v).resolve_left

/-- A reserved word is in no row of the table of R81, so the decoder rejects it by name. -/
theorem decode_of_reservedWord {v : Byte} (hv : reservedWord v = true) : decode v = .error (.reserved v) := by
  cases h : commandAt (cmdGroup v).toNat (cmdFn v).toNat with
  | some i => exact absurd ⟨i, eq_encode_of_commandAt h⟩ ((reservedWord_iff_not_exists_encode v).1 hv)
  | none => simp only [decode, h]

/-! What a word written to CMD does (R27, R200). -/

theorem executeWord_encode (i : Instr) (s : State) : executeWord (encode i) s = exec i s := by
  simp only [executeWord, decode_encode]

theorem executeWord_of_reservedWord {v : Byte} (hv : reservedWord v = true) (s : State) :
    executeWord v s = .next (raiseIllegalCommand s) := by
  simp only [executeWord, decode_of_reservedWord hv]

theorem memWrite_cmd (v : Byte) (s : State) : memWrite 0x3F0 v s = executeWord v s :=
  memWrite_of_cmd (locate_of_cmd_offset rfl)

/-! The STATUS a command ends with (R200). -/

/-- An answer that, if it is a next state, has STATUS 0x00. -/
def EndsWithStatusClear (x : Result State) : Prop := ∀ t, x = .next t → t.status = 0x00

theorem endsWithStatusClear_complete (s : State) : EndsWithStatusClear (.next (complete s)) := by
  rintro t ⟨⟩
  exact complete_status s

/-- In a sequence only the last part counts. -/
theorem EndsWithStatusClear.andThen {α : Type} {x : Result α} {f : α → Result State}
    (hf : ∀ a, EndsWithStatusClear (f a)) : EndsWithStatusClear (andThen x f) := by
  intro t h
  obtain ⟨a, -, ha⟩ := andThen_eq_next.1 h
  exact hf a t ha

/-- Every command's last part is `complete`. -/
theorem exec_endsWithStatusClear (i : Instr) (s : State) : EndsWithStatusClear (exec i s) := by
  cases i <;> rw [exec]
  case nop => exact endsWithStatusClear_complete s
  case bptcDec | bptcEnc =>
    exact .andThen fun _ => .andThen fun _ => .andThen fun _ => .andThen endsWithStatusClear_complete
  all_goals exact .andThen fun _ => endsWithStatusClear_complete _

/-- Settles O4: the decoder rejects a reserved word and reads each command's word as that command; every command ends in
`complete`; and a pair of fields outside the table of R81 makes a word in a range of R84. -/
theorem illegalCommandOrCompletedCommand : Obligations.IllegalCommandOrCompletedCommand := by
  unfold Obligations.IllegalCommandOrCompletedCommand
  refine fun v s => ⟨fun hv => ?reserved, ?defined, reservedWord_iff_not_exists_encode v⟩
  case reserved =>
    rw [memWrite_cmd, executeWord_of_reservedWord hv]
    rfl
  case defined =>
    rintro i rfl
    rw [memWrite_cmd, executeWord_encode]
    exact ⟨rfl, exec_endsWithStatusClear i s⟩

end Sys2Proof.Machine
end

section
/-! SUPPORT. When a command completes (spec/70_reset_and_hazards.md R232): the table of R232 in terms of the masks that the commands
read by, and what each command answers when its mask is readable and when it is not. -/

namespace Sys2Proof.Machine

/-- What each command has to find readable: the mask of its one read, or of its first one (R179, R180). -/
def OperandsReadable (s : State) : Instr → Prop
  | .nop => True
  | .bptcDec | .bptcUnpack => Readable s.frame framePlaneMask s
  | .bptcEnc | .bptcPlace => Readable s.payload (BitVec.allOnes 96) s
  | .bptcDeinterleave | .bptcPack => Readable s.raw (BitVec.allOnes 196) s
  | .bptcCorrect => Readable s.deint matrixMask s
  | .bptcExtract => Readable s.deint payloadMask s
  | .bptcParity => Readable s.deint rowDataMask s
  | .bptcInterleave => Readable s.deint (BitVec.allOnes 196) s
  | .ham1393Dec => Readable s.cw cw13Mask s
  | .ham1393Enc => Readable s.cw cw9Mask s
  | .ham15113Dec => Readable s.cw cw15Mask s
  | .ham15113Enc => Readable s.cw cw11Mask s

/-! The rows of R232 and the masks. -/

section Rows

variable {n : Nat} {m : BitVec n} {p : Nat → Prop}

theorem covers_iff_writtenWhere (c : Cells n) (h : ∀ i, i < n → (m.getLsbD i = true ↔ p i)) :
    c.covers m = true ↔ writtenWhere c p := by
  rw [covers_iff]
  constructor
  · intro hc i hi hp
    exact hc i ((h i hi).2 hp)
  · intro hw i hm
    have hi : i < n := BitVec.lt_of_getLsbD hm
    exact hw i hi ((h i hi).1 hm)

/-- A row of R232 is readable when its cells are written or unwritten ones are drawn. -/
theorem readable_iff (c : Cells n) (s : State) (h : ∀ i, i < n → (m.getLsbD i = true ↔ p i)) :
    Readable c m s ↔ writtenWhere c p ∨ s.unwrittenRead = .draw :=
  or_congr_left (covers_iff_writtenWhere c h)

theorem getLsbD_allOnes_iff (i : Nat) (hi : i < n) : (BitVec.allOnes n).getLsbD i = true ↔ True := by
  simp [hi]

theorem getLsbD_cellsIn_iff (rs : List (Nat × Nat)) (i : Nat) (hi : i < n) :
    (cellsIn n rs).getLsbD i = true ↔ ∃ r ∈ rs, r.1 ≤ i ∧ i ≤ r.2 := by
  rw [getLsbD_cellsIn, decide_eq_true hi, Bool.true_and]
  simp only [List.any_eq_true, Bool.and_eq_true, decide_eq_true_eq]

end Rows

/-- The FRAME row of R232, by byte and bit. -/
theorem getLsbD_framePlaneMask_iff (x : Nat) (hx : x < 264) :
    framePlaneMask.getLsbD x = true ↔
      x / 8 ≤ 11 ∨ (x / 8 = 12 ∧ 6 ≤ x % 8) ∨ (x / 8 = 20 ∧ x % 8 ≤ 1) ∨ 21 ≤ x / 8 := by
  rw [framePlaneMask, getLsbD_cellsIn_iff _ x hx]
  simp only [List.exists_mem_cons_iff, List.not_mem_nil, false_and, exists_false, or_false]
  omega

theorem getLsbD_matrixMask_iff (a : Nat) (ha : a < 196) : matrixMask.getLsbD a = true ↔ 1 ≤ a := by
  rw [getLsbD_matrixMask, decide_eq_true ha, Bool.true_and, decide_eq_true_eq]

theorem getLsbD_rowDataMask_iff (a : Nat) (ha : a < 196) :
    rowDataMask.getLsbD a = true ↔
      (1 ≤ a ∧ a ≤ 11) ∨ (16 ≤ a ∧ a ≤ 26) ∨ (31 ≤ a ∧ a ≤ 41) ∨ (46 ≤ a ∧ a ≤ 56) ∨ (61 ≤ a ∧ a ≤ 71)
        ∨ (76 ≤ a ∧ a ≤ 86) ∨ (91 ≤ a ∧ a ≤ 101) ∨ (106 ≤ a ∧ a ≤ 116) ∨ (121 ≤ a ∧ a ≤ 131) := by
  rw [rowDataMask, getLsbD_cellsIn_iff _ a ha]
  simp only [List.exists_mem_cons_iff, List.not_mem_nil, false_and, exists_false, or_false]

theorem getLsbD_cw13Mask_iff (i : Nat) (_ : i < 15) : cw13Mask.getLsbD i = true ↔ i ≤ 12 := by
  rw [getLsbD_cw13Mask, decide_eq_true_eq, Nat.lt_succ_iff]

theorem getLsbD_cw9Mask_iff (i : Nat) (hi : i < 15) : cw9Mask.getLsbD i = true ↔ i ≤ 8 := by
  rw [show cw9Mask = rangeMask 15 0 8 by decide, getLsbD_rangeMask, decide_eq_true hi]
  simp only [Nat.zero_le, decide_true, Bool.true_and, decide_eq_true_eq]

theorem getLsbD_cw11Mask_iff (i : Nat) (hi : i < 15) : cw11Mask.getLsbD i = true ↔ i ≤ 10 := by
  rw [show cw11Mask = rangeMask 15 0 10 by decide, getLsbD_rangeMask, decide_eq_true hi]
  simp only [Nat.zero_le, decide_true, Bool.true_and, decide_eq_true_eq]

/-- Each row of R232 names the cells of the command's mask. -/
theorem operandsReadable_iff (i : Instr) (s : State) :
    OperandsReadable s i ↔ operandsWritten s i ∨ s.unwrittenRead = .draw := by
  cases i with
  | nop => exact iff_of_true trivial (.inl trivial)
  | bptcDec | bptcUnpack => exact readable_iff _ s getLsbD_framePlaneMask_iff
  | bptcEnc | bptcPlace | bptcDeinterleave | bptcPack | bptcInterleave => exact readable_iff _ s getLsbD_allOnes_iff
  | bptcCorrect => exact readable_iff _ s getLsbD_matrixMask_iff
  | bptcExtract => exact readable_iff _ s (getLsbD_cellsIn_iff payloadRanges)
  | bptcParity => exact readable_iff _ s getLsbD_rowDataMask_iff
  | ham1393Dec => exact readable_iff _ s getLsbD_cw13Mask_iff
  | ham1393Enc => exact readable_iff _ s getLsbD_cw9Mask_iff
  | ham15113Dec => exact readable_iff _ s (cw15Mask_eq_allOnes ▸ getLsbD_allOnes_iff)
  | ham15113Enc => exact readable_iff _ s getLsbD_cw11Mask_iff

/-! What a command answers in either case. -/

/-- With its operands readable every command goes on; after its first read, BPTC.DEC and BPTC.ENC read what they wrote. -/
theorem exec_next_of_operandsReadable {i : Instr} {s : State} (h : OperandsReadable s i) : ∃ t, exec i s = .next t := by
  cases i with
  | nop => exact ⟨complete s, rfl⟩
  | bptcDec => exact ⟨_, exec_bptcDec_of_readable h rfl rfl⟩
  | bptcEnc => exact ⟨_, exec_bptcEnc_of_readable h rfl⟩
  | bptcUnpack => exact ⟨_, exec_bptcUnpack_of_readable h⟩
  | bptcDeinterleave => exact ⟨_, exec_bptcDeinterleave_of_readable h⟩
  | bptcCorrect => exact ⟨_, exec_bptcCorrect_of_readable h⟩
  | bptcExtract => exact ⟨_, exec_bptcExtract_of_readable h⟩
  | bptcPlace => exact ⟨_, exec_bptcPlace_of_readable h⟩
  | bptcParity => exact ⟨_, exec_bptcParity_of_readable h⟩
  | bptcInterleave => exact ⟨_, exec_bptcInterleave_of_readable h⟩
  | bptcPack => exact ⟨_, exec_bptcPack_of_readable h⟩
  | ham1393Dec => exact ⟨_, execHam1393Dec_of_readable h⟩
  | ham1393Enc => exact ⟨_, execHam1393Enc_of_readable h⟩
  | ham15113Dec => exact ⟨_, execHam15113Dec_of_readable h⟩
  | ham15113Enc => exact ⟨_, execHam15113Enc_of_readable h⟩

/-- A fault of a command's first step is the command's (R206). -/
theorem exec_fault_of_first_step {i : Instr} {s : State} {α : Type} {x : Result α} {f : α → Result State} {e : Fault}
    (hx : exec i s = andThen x f) (h : x = .fault e) : ∃ e, exec i s = .fault e :=
  ⟨e, by rw [hx, h, andThen_fault]⟩

/-- And with its operands not readable it faults. -/
theorem exec_fault_of_not_operandsReadable {i : Instr} {s : State} (h : ¬ OperandsReadable s i) :
    ∃ e, exec i s = .fault e := by
  cases i with
  | nop => exact absurd trivial h
  | bptcDec => exact ⟨_, exec_bptcDec_fault h⟩
  | bptcEnc => exact exec_fault_of_first_step (exec_bptcEnc s) (placePayload_fault h)
  | bptcPlace => exact exec_fault_of_first_step (exec_bptcPlace s) (placePayload_fault h)
  | bptcUnpack => exact exec_fault_of_first_step (exec_bptcUnpack s) (unpackFrame_fault h)
  | bptcDeinterleave => exact exec_fault_of_first_step (exec_bptcDeinterleave s) (deinterleaveRaw_fault h)
  | bptcCorrect => exact exec_fault_of_first_step (exec_bptcCorrect s) (correctDeint_fault h)
  | bptcExtract => exact exec_fault_of_first_step (exec_bptcExtract s) (extractPayload_fault h)
  | bptcParity => exact exec_fault_of_first_step (exec_bptcParity s) (parityDeint_fault h)
  | bptcInterleave => exact exec_fault_of_first_step (exec_bptcInterleave s) (interleaveDeint_fault h)
  | bptcPack => exact exec_fault_of_first_step (exec_bptcPack s) (packFrame_fault h)
  | ham1393Dec => exact ⟨_, execHam1393Dec_fault h⟩
  | ham1393Enc => exact ⟨_, execHam1393Enc_fault h⟩
  | ham15113Dec => exact ⟨_, execHam15113Dec_fault h⟩
  | ham15113Enc => exact ⟨_, execHam15113Enc_fault h⟩

/-- Settles O15: the table of R232 says when the command's mask is readable; a readable command goes on and ends in `complete`,
any other faults. -/
theorem commandsCompleteWhenOperandsWritten : Obligations.CommandsCompleteWhenOperandsWritten := by
  unfold Obligations.CommandsCompleteWhenOperandsWritten
  refine fun i s => ⟨fun h => ?completes, fun hunwritten hfault => ?faults⟩
  case completes =>
    obtain ⟨t, ht⟩ := exec_next_of_operandsReadable ((operandsReadable_iff i s).2 h)
    exact ⟨t, ht, exec_endsWithStatusClear i s t ht⟩
  case faults =>
    apply exec_fault_of_not_operandsReadable
    simpa only [operandsReadable_iff, hfault, reduceCtorEq, or_false] using hunwritten

end Sys2Proof.Machine
end

section
/-! SUPPORT. What a command answers, in one place (spec/70_reset_and_hazards.md R232): the next state of each command as a
function of the state it runs in, and what that function does not look at (spec/10_state.md R25, R30). -/

namespace Sys2Proof.Machine

/-- The state that a command leaves when its operands are readable. -/
def answer (s : State) : Instr → State
  | .nop => complete s
  | .bptcDec =>
    decodedState (frameToRaw (operand s.frame framePlaneMask s))
      (correct (deinterleave (frameToRaw (operand s.frame framePlaneMask s)))).1 (drawsAfter s.frame framePlaneMask s) s
  | .bptcEnc =>
    encodedState (encodeParity (placeData (operand s.payload (BitVec.allOnes 96) s)))
      (drawsAfter s.payload (BitVec.allOnes 96) s) s
  | .bptcUnpack =>
    { s with raw := Cells.full (frameToRaw (operand s.frame framePlaneMask s)), status := 0x00,
             draws := drawsAfter s.frame framePlaneMask s }
  | .bptcDeinterleave =>
    { s with deint := Cells.full (deinterleave (operand s.raw (BitVec.allOnes 196) s)), status := 0x00,
             draws := drawsAfter s.raw (BitVec.allOnes 196) s }
  | .bptcCorrect =>
    complete (leaveLoop
      { s with deint := s.deint.put matrixMask (correct (operand s.deint matrixMask s)).1,
               draws := drawsAfter s.deint matrixMask s })
  | .bptcExtract =>
    { s with payload := Cells.full (extractData (operand s.deint payloadMask s)), status := 0x00,
             draws := drawsAfter s.deint payloadMask s }
  | .bptcPlace =>
    { s with deint := Cells.full (placeData (operand s.payload (BitVec.allOnes 96) s)), status := 0x00,
             draws := drawsAfter s.payload (BitVec.allOnes 96) s }
  | .bptcParity =>
    { s with deint := s.deint.put parityMask (encodeParity (operand s.deint rowDataMask s)), status := 0x00,
             draws := drawsAfter s.deint rowDataMask s }
  | .bptcInterleave =>
    { s with raw := Cells.full (interleave (operand s.deint (BitVec.allOnes 196) s)), status := 0x00,
             draws := drawsAfter s.deint (BitVec.allOnes 196) s }
  | .bptcPack =>
    { s with frame := s.frame.put framePlaneMask (rawToFrame (operand s.raw (BitVec.allOnes 196) s) s.frame.val),
             status := 0x00, draws := drawsAfter s.raw (BitVec.allOnes 196) s }
  | .ham1393Dec =>
    { s with cw := s.cw.put cw13Mask ((h1393Dec ((operand s.cw cw13Mask s).setWidth 13)).1.setWidth 15),
             corr := (h1393Dec ((operand s.cw cw13Mask s).setWidth 13)).2, status := 0x00,
             draws := drawsAfter s.cw cw13Mask s }
  | .ham1393Enc =>
    { s with cw := s.cw.put cw13ParityMask ((h1393Enc ((operand s.cw cw9Mask s).setWidth 13)).setWidth 15), status := 0x00,
             draws := drawsAfter s.cw cw9Mask s }
  | .ham15113Dec =>
    { s with cw := s.cw.put cw15Mask (h15113Dec (operand s.cw cw15Mask s)).1,
             corr := (h15113Dec (operand s.cw cw15Mask s)).2, status := 0x00, draws := drawsAfter s.cw cw15Mask s }
  | .ham15113Enc =>
    { s with cw := s.cw.put cw15ParityMask (h15113Enc (operand s.cw cw11Mask s)), status := 0x00,
             draws := drawsAfter s.cw cw11Mask s }

theorem exec_of_operandsReadable {i : Instr} {s : State} (h : OperandsReadable s i) : exec i s = .next (answer s i) := by
  cases i with
  | nop => rfl
  | bptcDec => exact exec_bptcDec_of_readable h rfl rfl
  | bptcEnc => exact exec_bptcEnc_of_readable h rfl
  | bptcUnpack => exact exec_bptcUnpack_of_readable h
  | bptcDeinterleave => exact exec_bptcDeinterleave_of_readable h
  | bptcCorrect => exact exec_bptcCorrect_of_readable h
  | bptcExtract => exact exec_bptcExtract_of_readable h
  | bptcPlace => exact exec_bptcPlace_of_readable h
  | bptcParity => exact exec_bptcParity_of_readable h
  | bptcInterleave => exact exec_bptcInterleave_of_readable h
  | bptcPack => exact exec_bptcPack_of_readable h
  | ham1393Dec => exact execHam1393Dec_of_readable h
  | ham1393Enc => exact execHam1393Enc_of_readable h
  | ham15113Dec => exact execHam15113Dec_of_readable h
  | ham15113Enc => exact execHam15113Enc_of_readable h

/-- A command answers a next state only with its operands readable, and then it is `answer`. -/
theorem exec_eq_next_iff {i : Instr} {s t : State} : exec i s = .next t ↔ OperandsReadable s i ∧ t = answer s i := by
  by_cases h : OperandsReadable s i
  · rw [exec_of_operandsReadable h, Host.Outcome.next.injEq, eq_comm, and_iff_right h]
  · obtain ⟨e, he⟩ := exec_fault_of_not_operandsReadable h
    simp only [he, h, false_and, reduceCtorEq]

/-! PASS and FIXING (R30): no operand, and after a correction loop they are drawn anew. -/

theorem operandsReadable_of_pass_fixing (i : Instr) (s : State) (p : Fin 6) (f : Bool) :
    OperandsReadable { s with pass := p, fixing := f } i ↔ OperandsReadable s i := by
  cases i <;> exact Iff.rfl

theorem answer_of_pass_fixing (i : Instr) (s : State) (p : Fin 6) (f : Bool) :
    ∃ p' f', answer { s with pass := p, fixing := f } i = { answer s i with pass := p', fixing := f' } := by
  cases i <;> dsimp only [answer] <;> exact ⟨_, _, rfl⟩

/-- Settles O19: neither the operands nor the answer of a command look at PASS or FIXING. -/
theorem passAndFixingAreUnobservable : Obligations.PassAndFixingAreUnobservable := by
  intro i s t p f h
  obtain ⟨hr, rfl⟩ := exec_eq_next_iff.1 h
  obtain ⟨p', f', heq⟩ := answer_of_pass_fixing i s p f
  exact ⟨_, exec_of_operandsReadable ((operandsReadable_of_pass_fixing i s p f).2 hr), by rw [heq]⟩

/-! CW and CORR (R25, R26): only the Hamming commands work on them. -/

theorem operandsReadable_of_cw_corr {i : Instr} (hi : isHamming i = false) (s : State) (c : Cells 15) (k : Bool) :
    OperandsReadable { s with cw := c, corr := k } i ↔ OperandsReadable s i := by
  cases i
  case ham1393Dec | ham1393Enc | ham15113Dec | ham15113Enc => exact absurd hi Bool.noConfusion
  all_goals exact Iff.rfl

theorem answer_of_cw_corr {i : Instr} (hi : isHamming i = false) (s : State) (c : Cells 15) (k : Bool) :
    answer { s with cw := c, corr := k } i = { answer s i with cw := c, corr := k } := by
  cases i
  case ham1393Dec | ham1393Enc | ham15113Dec | ham15113Enc => exact absurd hi Bool.noConfusion
  all_goals dsimp only [answer]; rfl

end Sys2Proof.Machine
end

section
/-! SUPPORT. What an action of the block stores to (spec/10_state.md R20, R35): a footprint names cells of the five files and
the two flags, and everything outside it stays; the footprints of the commands (R110 to R113, R145 to R148, R175 to R180) and
of a host write (spec/20_memory.md R52). -/

namespace Sys2Proof.Machine

/-! One file of cells. -/

/-- `c'` is `c` after a write to the cells of `m`. -/
def Rewritten {n : Nat} (m : BitVec n) (c c' : Cells n) : Prop := ∃ v, c' = c.put m v

namespace Rewritten

variable {n : Nat} {m : BitVec n} {c c' : Cells n}

theorem put (v : BitVec n) : Rewritten m c (c.put m v) := ⟨v, rfl⟩

theorem full (v : BitVec n) : Rewritten (BitVec.allOnes n) c (Cells.full v) := ⟨v, (put_allOnes c v).symm⟩

theorem unchanged : Rewritten 0 c c := ⟨0, by simp [Cells.put]⟩

/-- Nothing written: nothing changed. -/
theorem eq_of_zero (h : Rewritten 0 c c') : c' = c := by
  obtain ⟨v, rfl⟩ := h
  simp [Cells.put]

theorem wf (h : Rewritten m c c') (hc : c.wf = true) : c'.wf = true := by
  obtain ⟨v, rfl⟩ := h
  exact put_wf c m v hc

theorem staysWritten (h : Rewritten m c c') : StaysWritten c c' := by
  obtain ⟨v, rfl⟩ := h
  intro i hi
  rw [getLsbD_put_written, hi, Bool.true_or]

/-- A cell outside the mask keeps its value and its written state. -/
theorem cell (h : Rewritten m c c') {i : Nat} (hi : m.getLsbD i = false) :
    c'.val.getLsbD i = c.val.getLsbD i ∧ c'.written.getLsbD i = c.written.getLsbD i := by
  obtain ⟨v, rfl⟩ := h
  exact put_cell_of_not_mem c v hi

/-- So what `peek` sees of it is the same; -/
theorem peek_cell (h : Rewritten m c c') {i : Nat} (hi : m.getLsbD i = false) :
    (bitByte (c'.val.getLsbD i), bitByte (c'.written.getLsbD i)) =
      (bitByte (c.val.getLsbD i), bitByte (c.written.getLsbD i)) := by
  obtain ⟨hval, hwritten⟩ := h.cell hi
  rw [hval, hwritten]

/-- and what it sees of a byte none of whose bits is in the mask. -/
theorem peek_byte (h : Rewritten m c c') {k : Nat} (hk : ∀ b, b < 8 → m.getLsbD (8 * k + b) = false) :
    (byteAt c'.val k, byteAt c'.written k) = (byteAt c.val k, byteAt c.written k) := by
  apply Prod.ext <;> apply BitVec.eq_of_getLsbD_eq <;> intro b hb <;> obtain ⟨hval, hwritten⟩ := h.cell (hk b hb)
  · rw [getLsbD_byteAt, getLsbD_byteAt, hval]
  · rw [getLsbD_byteAt, getLsbD_byteAt, hwritten]

end Rewritten

/-! The whole block. -/

/-- The cells and the flags that an action stores to. -/
structure Footprint where
  frame : FrameBits := 0
  payload : PayloadBits := 0
  raw : Plane := 0
  deint : Plane := 0
  cw : Word15 := 0
  corr : Bool := false
  status : Bool := false

/-- Between `s` and `t`, what `m` names was stored to, and no other cell or flag. -/
structure StoresOnly (m : Footprint) (s t : State) : Prop where
  frame : Rewritten m.frame s.frame t.frame
  payload : Rewritten m.payload s.payload t.payload
  raw : Rewritten m.raw s.raw t.raw
  deint : Rewritten m.deint s.deint t.deint
  cw : Rewritten m.cw s.cw t.cw
  corr : m.corr = false → t.corr = s.corr
  status : m.status = false → t.status = s.status

/-- The footprint stores nothing at this location. -/
def Footprint.Misses (m : Footprint) : Location → Prop
  | .frame n => ∀ b, b < 8 → m.frame.getLsbD (8 * n + b) = false
  | .payload n => ∀ b, b < 8 → m.payload.getLsbD (8 * n + b) = false
  | .raw i => m.raw.getLsbD i = false
  | .deint i => m.deint.getLsbD i = false
  | .cw i => m.cw.getLsbD i = false
  | .corr => m.corr = false
  | .status => m.status = false
  | .cmd | .reserved => True

namespace StoresOnly

variable {m : Footprint} {s t : State} (h : StoresOnly m s t)
include h

theorem memory_wf (hs : Memory.wf s = true) : Memory.wf t = true := by
  simp only [Memory.wf, Bool.and_eq_true] at hs ⊢
  obtain ⟨⟨⟨⟨hframe, hpayload⟩, hraw⟩, hdeint⟩, hcw⟩ := hs
  exact ⟨⟨⟨⟨h.frame.wf hframe, h.payload.wf hpayload⟩, h.raw.wf hraw⟩, h.deint.wf hdeint⟩, h.cw.wf hcw⟩

theorem staysWritten :
    StaysWritten s.frame t.frame ∧ StaysWritten s.payload t.payload ∧ StaysWritten s.raw t.raw ∧
      StaysWritten s.deint t.deint ∧ StaysWritten s.cw t.cw :=
  ⟨h.frame.staysWritten, h.payload.staysWritten, h.raw.staysWritten, h.deint.staysWritten, h.cw.staysWritten⟩

/-- A host offset that the footprint misses holds what it held. -/
theorem peek_eq {a : HostAddr} (hm : m.Misses (locate a)) : peek t a = peek s a := by
  cases ha : locate a <;> rw [ha] at hm <;> simp only [peek, ha]
  case frame => exact h.frame.peek_byte hm
  case payload => exact h.payload.peek_byte hm
  case raw => exact h.raw.peek_cell hm
  case deint => exact h.deint.peek_cell hm
  case cw => exact h.cw.peek_cell hm
  case corr => rw [h.corr hm]
  case status => rw [readStatus, readStatus, h.status hm]

end StoresOnly

/-! Commands. -/

/-- What each command stores to, from its operand list. -/
def footprint : Instr → Footprint
  | .nop => { status := true }
  | .bptcDec =>
    { raw := BitVec.allOnes 196, deint := BitVec.allOnes 196, payload := BitVec.allOnes 96, status := true }
  | .bptcEnc => { deint := BitVec.allOnes 196, raw := BitVec.allOnes 196, frame := framePlaneMask, status := true }
  | .bptcUnpack => { raw := BitVec.allOnes 196, status := true }
  | .bptcDeinterleave => { deint := BitVec.allOnes 196, status := true }
  | .bptcCorrect => { deint := matrixMask, status := true }
  | .bptcExtract => { payload := BitVec.allOnes 96, status := true }
  | .bptcPlace => { deint := BitVec.allOnes 196, status := true }
  | .bptcParity => { deint := parityMask, status := true }
  | .bptcInterleave => { raw := BitVec.allOnes 196, status := true }
  | .bptcPack => { frame := framePlaneMask, status := true }
  | .ham1393Dec => { cw := cw13Mask, corr := true, status := true }
  | .ham1393Enc => { cw := cw13ParityMask, status := true }
  | .ham15113Dec => { cw := cw15Mask, corr := true, status := true }
  | .ham15113Enc => { cw := cw15ParityMask, status := true }

open Rewritten in
theorem answer_storesOnly (s : State) (i : Instr) : StoresOnly (footprint i) s (answer s i) := by
  cases i with
  | nop => exact ⟨unchanged, unchanged, unchanged, unchanged, unchanged, fun _ => rfl, nofun⟩
  | bptcDec => exact ⟨unchanged, full _, full _, full _, unchanged, fun _ => rfl, nofun⟩
  | bptcEnc => exact ⟨put _, unchanged, full _, full _, unchanged, fun _ => rfl, nofun⟩
  | bptcUnpack | bptcInterleave => exact ⟨unchanged, unchanged, full _, unchanged, unchanged, fun _ => rfl, nofun⟩
  | bptcDeinterleave | bptcPlace => exact ⟨unchanged, unchanged, unchanged, full _, unchanged, fun _ => rfl, nofun⟩
  | bptcCorrect | bptcParity => exact ⟨unchanged, unchanged, unchanged, put _, unchanged, fun _ => rfl, nofun⟩
  | bptcExtract => exact ⟨unchanged, full _, unchanged, unchanged, unchanged, fun _ => rfl, nofun⟩
  | bptcPack => exact ⟨put _, unchanged, unchanged, unchanged, unchanged, fun _ => rfl, nofun⟩
  | ham1393Dec | ham15113Dec => exact ⟨unchanged, unchanged, unchanged, unchanged, put _, nofun, nofun⟩
  | ham1393Enc | ham15113Enc => exact ⟨unchanged, unchanged, unchanged, unchanged, put _, fun _ => rfl, nofun⟩

theorem exec_storesOnly {i : Instr} {s t : State} (h : exec i s = .next t) : StoresOnly (footprint i) s t := by
  obtain ⟨-, rfl⟩ := exec_eq_next_iff.1 h
  exact answer_storesOnly s i

/-! The footprint of a command against the table of what it stores to (R20). -/

/-- No command stores to the FRAME bits that carry no plane bit (R35). -/
theorem footprint_frame_of_kept (i : Instr) {x : Nat}
    (h : (x / 8 = 12 ∧ x % 8 ≤ 5) ∨ (13 ≤ x / 8 ∧ x / 8 ≤ 19) ∨ (x / 8 = 20 ∧ 2 ≤ x % 8)) :
    (footprint i).frame.getLsbD x = false := by
  cases i
  case bptcEnc | bptcPack => exact framePlaneMask_of_kept h
  all_goals exact BitVec.getLsbD_zero

section StoresTo

variable {i : Instr} {a : HostAddr} {n : Nat} (h : storesTo i a = false)
include h

theorem footprint_frame_of_not_storesTo (hn : n ≤ 32) (ha : a.toNat = n) : (footprint i).Misses (.frame n) := by
  intro b hb
  cases i
  case bptcEnc | bptcPack =>
    simp only [storesTo, Bool.or_eq_false_iff, Bool.and_eq_false_iff, decide_eq_false_iff_not,
      beq_eq_false_iff_ne] at h
    exact framePlaneMask_of_kept (by omega)
  all_goals exact BitVec.getLsbD_zero

theorem footprint_payload_of_not_storesTo (hn : n ≤ 11) (ha : a.toNat = 0x040 + n) :
    (footprint i).Misses (.payload n) := by
  intro b hb
  cases i
  case bptcDec | bptcExtract =>
    simp only [storesTo, Bool.or_eq_false_iff, Bool.and_eq_false_iff, decide_eq_false_iff_not,
      beq_eq_false_iff_ne] at h
    omega
  all_goals exact BitVec.getLsbD_zero

theorem footprint_raw_of_not_storesTo (hn : n ≤ 195) (ha : a.toNat = 0x100 + n) : (footprint i).Misses (.raw n) := by
  cases i
  case bptcDec | bptcEnc | bptcUnpack | bptcInterleave =>
    simp only [storesTo, Bool.or_eq_false_iff, Bool.and_eq_false_iff, decide_eq_false_iff_not,
      beq_eq_false_iff_ne] at h
    omega
  all_goals exact BitVec.getLsbD_zero

theorem footprint_deint_of_not_storesTo (hn : n ≤ 195) (ha : a.toNat = 0x200 + n) :
    (footprint i).Misses (.deint n) := by
  have hpos : a.toNat - 0x200 = n := by omega
  cases i <;> simp only [storesTo, Bool.or_eq_false_iff, Bool.and_eq_false_iff, decide_eq_false_iff_not,
    beq_eq_false_iff_ne, bne_eq_false_iff_eq, hpos] at h
  case bptcDec | bptcEnc | bptcDeinterleave | bptcPlace => omega
  case bptcCorrect =>
    refine (getLsbD_matrixMask n).trans ?_
    rw [decide_eq_false (p := 1 ≤ n) (by omega), Bool.and_false]
  case bptcParity =>
    obtain ⟨-, hout | hmask⟩ := h
    · omega
    · exact hmask
  all_goals exact BitVec.getLsbD_zero

theorem footprint_cw_of_not_storesTo (hn : n ≤ 14) (ha : a.toNat = 0x300 + n) : (footprint i).Misses (.cw n) := by
  cases i <;> simp only [storesTo, Bool.or_eq_false_iff, Bool.and_eq_false_iff, decide_eq_false_iff_not,
    beq_eq_false_iff_ne] at h
  case ham1393Dec => exact (getLsbD_cw13Mask n).trans (decide_eq_false (by omega))
  case ham1393Enc =>
    refine (getLsbD_cw13ParityMask n).trans ?_
    rw [Bool.and_eq_false_iff, decide_eq_false_iff_not, decide_eq_false_iff_not]
    omega
  case ham15113Dec => omega
  case ham15113Enc =>
    refine (getLsbD_cw15ParityMask n).trans ?_
    rw [Bool.and_eq_false_iff, decide_eq_false_iff_not, decide_eq_false_iff_not]
    omega
  all_goals exact BitVec.getLsbD_zero

theorem footprint_corr_of_not_storesTo (ha : a.toNat = 0x310) : (footprint i).Misses .corr := by
  cases i
  case ham1393Dec | ham15113Dec =>
    simp only [storesTo, Bool.or_eq_false_iff, Bool.and_eq_false_iff, decide_eq_false_iff_not,
      beq_eq_false_iff_ne] at h
    omega
  all_goals rfl

/-- A command misses every offset that the table does not list for it. -/
theorem footprint_misses_of_not_storesTo : (footprint i).Misses (locate a) := by
  rcases locate_cases a with ⟨n, hl, hn, ha⟩ | ⟨n, hl, hn, ha⟩ | ⟨n, hl, hn, ha⟩ | ⟨n, hl, hn, ha⟩ | ⟨n, hl, hn, ha⟩ |
    ⟨hl, ha⟩ | ⟨hl, -⟩ | ⟨hl, ha⟩ | hl <;> rw [hl]
  · exact footprint_frame_of_not_storesTo h hn ha
  · exact footprint_payload_of_not_storesTo h hn ha
  · exact footprint_raw_of_not_storesTo h hn ha
  · exact footprint_deint_of_not_storesTo h hn ha
  · exact footprint_cw_of_not_storesTo h hn ha
  · exact footprint_corr_of_not_storesTo h ha
  · trivial
  · simp only [storesTo, ha, beq_self_eq_true, Bool.true_or, Bool.true_eq_false] at h
  · trivial

end StoresTo

/-- Settles O16: a command keeps all outside its footprint, and its footprint lies inside the offsets it stores to. -/
theorem commandsStoreOnlyWhereListed : Obligations.CommandsStoreOnlyWhereListed := fun _ _ _ _ h hlist =>
  (exec_storesOnly h).peek_eq (footprint_misses_of_not_storesTo hlist)

/-- Settles O17: the neighbouring field is in no command's footprint. -/
theorem neighbouringFieldSurvives : Obligations.NeighbouringFieldSurvives := fun i _ _ _ h hkept =>
  (exec_storesOnly h).frame.cell (footprint_frame_of_kept i hkept)

/-- CW and CORR are in no BPTC command's footprint. -/
theorem footprint_of_not_isHamming {i : Instr} (hi : isHamming i = false) :
    (footprint i).cw = 0 ∧ (footprint i).corr = false := by
  cases i
  case ham1393Dec | ham1393Enc | ham15113Dec | ham15113Enc => exact absurd hi Bool.noConfusion
  all_goals exact ⟨rfl, rfl⟩

/-- Settles O18: CW and CORR are neither in a BPTC command's footprint nor looked at by its answer, and CORR is in the footprint
of no encode command. -/
theorem bptcCommandsIgnoreCodewordRegister : Obligations.BptcCommandsIgnoreCodewordRegister := by
  refine ⟨fun i s t c k hi h => ?bptc, fun s t h => ?encode⟩
  case bptc =>
    have hstores := exec_storesOnly h
    obtain ⟨hcw, hcorr⟩ := footprint_of_not_isHamming hi
    obtain ⟨hr, rfl⟩ := exec_eq_next_iff.1 h
    refine ⟨(hcw ▸ hstores.cw).eq_of_zero, hstores.corr hcorr, ?_⟩
    rw [exec_of_operandsReadable ((operandsReadable_of_cw_corr hi s c k).2 hr), answer_of_cw_corr hi]
  case encode =>
    rcases h with h | h <;> exact (exec_storesOnly h).corr rfl

/-! A host write (R52). -/

/-- What a host write to a location stores to; CMD holds nothing, and the read-only and reserved locations ignore it. -/
def Location.footprint : Location → Footprint
  | .frame n => { frame := byteMask 264 n }
  | .payload n => { payload := byteMask 96 n }
  | .raw i => { raw := cellMask 196 i }
  | .deint i => { deint := cellMask 196 i }
  | .cw i => { cw := cellMask 15 i }
  | .corr | .cmd | .status | .reserved => {}

open Rewritten in
theorem storeAt_storesOnly (l : Location) (v : Byte) (s : State) : StoresOnly l.footprint s (storeAt l v s) := by
  cases l with
  | frame n => exact ⟨put _, unchanged, unchanged, unchanged, unchanged, fun _ => rfl, fun _ => rfl⟩
  | payload n => exact ⟨unchanged, put _, unchanged, unchanged, unchanged, fun _ => rfl, fun _ => rfl⟩
  | raw i => exact ⟨unchanged, unchanged, put _, unchanged, unchanged, fun _ => rfl, fun _ => rfl⟩
  | deint i => exact ⟨unchanged, unchanged, unchanged, put _, unchanged, fun _ => rfl, fun _ => rfl⟩
  | cw i => exact ⟨unchanged, unchanged, unchanged, unchanged, put _, fun _ => rfl, fun _ => rfl⟩
  | corr | cmd | status | reserved =>
    exact ⟨unchanged, unchanged, unchanged, unchanged, unchanged, fun _ => rfl, fun _ => rfl⟩

theorem getLsbD_byteMask_of_ne {n j k b : Nat} (h : j ≠ k) (hb : b < 8) : (byteMask n k).getLsbD (8 * j + b) = false := by
  rw [getLsbD_byteMask, decide_eq_false (p := (8 * j + b) / 8 = k) (by omega), Bool.and_false]

theorem getLsbD_cellMask_of_ne {n i j : Nat} (h : j ≠ i) : (cellMask n i).getLsbD j = false := by
  rw [getLsbD_cellMask, decide_eq_false h, Bool.and_false]

/-- A host write misses every other location. -/
theorem Location.footprint_misses_of_ne {l l' : Location} (h : l' ≠ l) : l.footprint.Misses l' := by
  cases l'
  case frame j =>
    intro b hb
    cases l
    case frame k => exact getLsbD_byteMask_of_ne (fun e => h (e ▸ rfl)) hb
    all_goals exact BitVec.getLsbD_zero
  case payload j =>
    intro b hb
    cases l
    case payload k => exact getLsbD_byteMask_of_ne (fun e => h (e ▸ rfl)) hb
    all_goals exact BitVec.getLsbD_zero
  case raw j =>
    cases l
    case raw k => exact getLsbD_cellMask_of_ne fun e => h (e ▸ rfl)
    all_goals exact BitVec.getLsbD_zero
  case deint j =>
    cases l
    case deint k => exact getLsbD_cellMask_of_ne fun e => h (e ▸ rfl)
    all_goals exact BitVec.getLsbD_zero
  case cw j =>
    cases l
    case cw k => exact getLsbD_cellMask_of_ne fun e => h (e ▸ rfl)
    all_goals exact BitVec.getLsbD_zero
  case corr | status => cases l <;> rfl
  case cmd | reserved => trivial

end Sys2Proof.Machine
end

section
/-! SUPPORT. What one event does (spec/20_memory.md R52, R53, R62; spec/70_reset_and_hazards.md R230), as a relation between
the state before and the state after; then the statements about every step (spec/10_state.md sections 4, 6 and 7). -/

namespace Sys2Proof.Machine

/-! One event. -/

/-- The five things an event can do. -/
inductive Effect : HostEvent → State → State → Prop
  /-- The reset event (R230). -/
  | reset {s : State} : Effect .reset s (resetBlock s)
  /-- A write to a location other than CMD (R52). -/
  | store {a : HostAddr} {d : WriteData} {v : Byte} {s : State} (ha : locate a ≠ .cmd) :
      Effect (.access .host (.wr a d)) s (storeAt (locate a) v s)
  /-- A write of a command's word to CMD (R27). -/
  | command {a : HostAddr} {d : WriteData} {i : Instr} {s t : State} (ha : locate a = .cmd)
      (hd : resolveData d s = .next (encode i)) (h : exec i s = .next t) : Effect (.access .host (.wr a d)) s t
  /-- A write of a reserved word to CMD (R200). -/
  | illegal {a : HostAddr} {d : WriteData} {v : Byte} {s : State} (ha : locate a = .cmd)
      (hd : resolveData d s = .next v) (hv : reservedWord v = true) :
      Effect (.access .host (.wr a d)) s (raiseIllegalCommand s)
  /-- A read (R53, R59). -/
  | read {a : HostAddr} {s : State} (v : Byte) (k : Nat) :
      Effect (.access .host (.rd a)) s { s with draws := k, results := s.results ++ [v] }

theorem effect_of_perform {e : HostEvent} {s t : State} (h : perform e s = .next t) : Effect e s t := by
  obtain ⟨rfl, rfl⟩ | ⟨a, d, v, rfl, hd, hw⟩ | ⟨a, rfl, hr⟩ := perform_cases h
  · exact .reset
  · obtain ⟨ha, rfl⟩ | ⟨ha, hx⟩ := memWrite_cases hw
    · exact .store ha
    · obtain ⟨i, rfl⟩ | hv := eq_encode_or_reservedWord v
      · exact .command ha hd (executeWord_encode i s ▸ hx)
      · rw [executeWord_of_reservedWord hv] at hx
        exact Host.Outcome.next.inj hx ▸ .illegal ha hd hv
  · obtain ⟨v, k, -, rfl⟩ := memRead_cases hr
    exact .read v k

/-- A step is idle, or has the effect of its event and then moves on. -/
theorem step_effect {s t : State} (h : step s = .next t) :
    (nextEvent s = none ∧ t = s) ∨ ∃ e u, nextEvent s = some e ∧ Effect e s u ∧ t = advance u := by
  obtain hidle | ⟨e, u, he, hp, ht⟩ := step_cases h
  · exact .inl hidle
  · exact .inr ⟨e, u, he, effect_of_perform hp, ht⟩

theorem step_of_nextEvent {s : State} {e : HostEvent} (h : nextEvent s = some e) :
    step s = andThen (perform e s) fun t => .next (advance t) := by
  rw [step, runNext, h]

theorem step_of_nextEvent_none {s : State} (h : nextEvent s = none) : step s = .next s := by
  rw [step, runNext, h]

/-! The invariant (R28, notes/assumptions/8.md). -/

theorem state_wf_iff (s : State) : s.wf = true ↔ Memory.wf s = true ∧ s.status &&& 0xFE = 0 := by
  rw [State.wf, Bool.and_eq_true, beq_iff_eq]

theorem Effect.keeps_wf {e : HostEvent} {s t : State} (h : Effect e s t) (hs : s.wf = true) : t.wf = true := by
  obtain ⟨hmem, hstatus⟩ := (state_wf_iff s).1 hs
  rw [state_wf_iff]
  cases h with
  | reset => exact ⟨resetBlock_memory_wf s, by rw [resetBlock_status]; rfl⟩
  | store =>
    refine ⟨storeAt_memory_wf _ _ _ hmem, ?_⟩
    rwa [storeAt_frame]
  | @command _ _ i _ _ _ _ h => exact ⟨(exec_storesOnly h).memory_wf hmem, by rw [exec_endsWithStatusClear i s t h]; rfl⟩
  | illegal => exact ⟨hmem, by rw [raiseIllegalCommand_status]; rfl⟩
  | read => exact ⟨hmem, hstatus⟩

/-- Settles O9: each effect keeps the invariant, and moving on in the sequence touches nothing it speaks of. -/
theorem everyStepKeepsWellFormedness : Obligations.EveryStepKeepsWellFormedness := by
  intro s t hs h
  obtain ⟨-, rfl⟩ | ⟨e, u, -, heff, rfl⟩ := step_effect h
  · exact hs
  · exact heff.keeps_wf hs

/-- Settles O8: no cell is written, and STATUS is 0x00. -/
theorem resetStateIsWellFormed : Obligations.ResetStateIsWellFormed :=
  (state_wf_iff State.reset).2 ⟨reset_memory_wf, rfl⟩

/-! Written cells (R34). -/

theorem Effect.staysWritten {e : HostEvent} {s t : State} (h : Effect e s t) (he : e ≠ .reset) :
    StaysWritten s.frame t.frame ∧ StaysWritten s.payload t.payload ∧ StaysWritten s.raw t.raw ∧
      StaysWritten s.deint t.deint ∧ StaysWritten s.cw t.cw := by
  cases h with
  | reset => exact absurd rfl he
  | store => exact (storeAt_storesOnly _ _ s).staysWritten
  | command _ _ h => exact (exec_storesOnly h).staysWritten
  | illegal | read => exact ⟨fun _ => id, fun _ => id, fun _ => id, fun _ => id, fun _ => id⟩

/-- Settles O10: no effect but the reset event's unwrites a cell. -/
theorem writtenCellsStayWrittenUntilReset : Obligations.WrittenCellsStayWrittenUntilReset := by
  intro s t hne h
  obtain ⟨-, rfl⟩ | ⟨e, u, he, heff, rfl⟩ := step_effect h
  · exact ⟨fun _ => id, fun _ => id, fun _ => id, fun _ => id, fun _ => id⟩
  · exact heff.staysWritten fun hreset => hne (hreset ▸ he)

/-! The host's side (R33, R62, R216). -/

theorem Effect.host_side {e : HostEvent} {s t : State} (h : Effect e s t) :
    t.pending = s.pending ∧ t.pc = s.pc ∧ t.unwrittenRead = s.unwrittenRead ∧ s.results <+: t.results ∧
      t.results.length ≤ s.results.length + 1 := by
  have same : s.results <+: s.results ∧ s.results.length ≤ s.results.length + 1 := ⟨List.prefix_rfl, Nat.le_succ _⟩
  cases h with
  | reset | illegal => exact ⟨rfl, rfl, rfl, same⟩
  | store =>
    rw [storeAt_frame]
    exact ⟨rfl, rfl, rfl, same⟩
  | command _ _ h =>
    obtain ⟨hpending, hpc, hresults, hunwritten⟩ := exec_host_side h
    exact ⟨hpending, hpc, hunwritten, hresults ▸ same⟩
  | read v k => exact ⟨rfl, rfl, rfl, List.prefix_append _ _, (List.length_append ..).le⟩

/-- Settles O11: no effect touches the sequence, its place or the parameter; a step then drops one event. -/
theorem stepConsumesOneEvent : Obligations.StepConsumesOneEvent := by
  refine ⟨fun s t e he h => ?_, fun s => step_of_nextEvent_none⟩
  obtain ⟨hnone, -⟩ | ⟨e', u, -, heff, rfl⟩ := step_effect h
  · rw [hnone] at he
    cases he
  · obtain ⟨hpending, hpc, hrest⟩ := heff.host_side
    exact ⟨congrArg List.tail hpending, congrArg (· + 1) hpc, hrest⟩

/-! STATUS and CORR (R26, R28, R29). -/

theorem locate_eq_cmd_iff {a : HostAddr} : locate a = .cmd ↔ a = 0x3F0 := by
  constructor
  · intro h
    rcases locate_cases a with ⟨_, hl, -⟩ | ⟨_, hl, -⟩ | ⟨_, hl, -⟩ | ⟨_, hl, -⟩ | ⟨_, hl, -⟩ | ⟨hl, -⟩ | ⟨-, ha⟩ | ⟨hl, -⟩ |
      hl
    rotate_left 6
    · exact BitVec.eq_of_toNat_eq ha
    all_goals cases hl.symm.trans h
  · rintro rfl
    exact locate_of_cmd_offset rfl

/-- Only the reset event and a write to CMD touch the two flags. -/
theorem Effect.flags_eq {e : HostEvent} {s t : State} (h : Effect e s t) (hreset : e ≠ .reset)
    (hcmd : ∀ a d, e = .access .host (.wr a d) → a ≠ 0x3F0) : t.status = s.status ∧ t.corr = s.corr := by
  cases h with
  | reset => exact absurd rfl hreset
  | store => rw [storeAt_frame]; exact ⟨rfl, rfl⟩
  | command ha | illegal ha => exact absurd (locate_eq_cmd_iff.1 ha) (hcmd _ _ rfl)
  | read => exact ⟨rfl, rfl⟩

/-- Of the commands, only the two Hamming decoders store CORR (R26). -/
theorem footprint_corr_of_ne {i : Instr} (h1393 : encode i ≠ 0x20) (h15113 : encode i ≠ 0x22) :
    (footprint i).corr = false := by
  cases i
  case ham1393Dec => exact absurd rfl h1393
  case ham15113Dec => exact absurd rfl h15113
  all_goals rfl

/-- What the write of a word to CMD does to them. -/
theorem Effect.flags_of_command {v : Byte} {s t : State} (h : Effect (commandEvent v) s t) :
    t.status = (if reservedWord v then 0x01 else 0x00) ∧ (v ≠ 0x20 → v ≠ 0x22 → t.corr = s.corr) := by
  cases h with
  | store ha => exact absurd (locate_eq_cmd_iff.2 rfl) ha
  | @command _ _ i _ _ _ hd h =>
    obtain rfl := Host.Outcome.next.inj hd
    rw [reservedWord_encode]
    exact ⟨exec_endsWithStatusClear i s t h, fun h1393 h15113 => (exec_storesOnly h).corr (footprint_corr_of_ne h1393 h15113)⟩
  | illegal _ hd hv =>
    obtain rfl := Host.Outcome.next.inj hd
    rw [hv]
    exact ⟨rfl, fun _ _ => rfl⟩

/-- Settles O12: the effects by whether they touch the flags. -/
theorem flagsChangeOnlyAtCommandsAndReset : Obligations.FlagsChangeOnlyAtCommandsAndReset := by
  intro s t h
  obtain ⟨hnone, rfl⟩ | ⟨e, u, he, heff, rfl⟩ := step_effect h
  · exact ⟨fun _ => ⟨rfl, rfl⟩, fun v hv => by rw [hnone] at hv; cases hv⟩
  · rw [he]
    refine ⟨fun ⟨hreset, hcmd⟩ => ?other, fun v hv => ?command⟩
    case other => exact heff.flags_eq (fun h => hreset (h ▸ rfl)) fun a d h => hcmd a d (h ▸ rfl)
    case command =>
      obtain rfl := Option.some.inj hv
      exact heff.flags_of_command

/-! No stop under `draw` (R34, R54, R202). -/

section Draw

variable {s : State} (hs : s.unwrittenRead = .draw)
include hs

theorem exec_next_of_draw (i : Instr) : ∃ t, exec i s = .next t :=
  exec_next_of_operandsReadable ((operandsReadable_iff i s).2 (.inr hs))

theorem loadAt_next_of_draw (l : Location) : ∃ x, loadAt l s = .next x := by
  cases l with
  | frame | payload | raw | deint | cw => exact ⟨_, andThen_readCells _ (.inr hs)⟩
  | corr | cmd | status | reserved => exact ⟨_, rfl⟩

theorem memRead_next_of_draw (a : HostAddr) : ∃ t, memRead a s = .next t := by
  obtain ⟨⟨v, t⟩, h⟩ := loadAt_next_of_draw hs (locate a)
  exact ⟨_, memRead_of_loadAt rfl h⟩

theorem executeWord_next_of_draw (v : Byte) : ∃ t, executeWord v s = .next t := by
  obtain ⟨i, rfl⟩ | hv := eq_encode_or_reservedWord v
  · rw [executeWord_encode]
    exact exec_next_of_draw hs i
  · exact ⟨_, executeWord_of_reservedWord hv s⟩

theorem memWrite_next_of_draw (a : HostAddr) (v : Byte) : ∃ t, memWrite a v s = .next t := by
  by_cases ha : locate a = .cmd
  · rw [memWrite_of_cmd ha]
    exact executeWord_next_of_draw hs v
  · exact ⟨_, memWrite_of_ne_cmd rfl ha⟩

end Draw

theorem safe_of_perform {s t : State} {e : HostEvent} (he : nextEvent s = some e) (h : perform e s = .next t) : Safe s :=
  ⟨advance t, by rw [step_of_nextEvent he, h, andThen_next]⟩

/-- Settles O14: under `draw` every read goes on, hence every access and every command. -/
theorem noStopUnderDraw : Obligations.NoStopUnderDraw := by
  rintro s hs (he | ⟨a, he⟩ | ⟨a, v, he⟩)
  · exact safe_of_perform he rfl
  · obtain ⟨t, ht⟩ := memRead_next_of_draw hs a
    exact safe_of_perform he ht
  · obtain ⟨t, ht⟩ := memWrite_next_of_draw hs a v
    exact safe_of_perform he ht

/-! Single events. -/

/-- Settles O5: the event is a write to CMD of a word that the decoder reads as the command. -/
theorem stepRunsTheDecodedCommand : Obligations.StepRunsTheDecodedCommand := by
  intro s v i he hdec _
  rw [step, runNext_command he, executeWord, hdec]
  rfl

/-- Settles O7: what the reset event leaves, and the reset state. -/
theorem resetLeavesCellsUnwritten : Obligations.ResetLeavesCellsUnwritten :=
  ⟨fun s => ⟨resetBlock s, rfl, rfl, rfl, rfl, rfl, rfl, rfl, rfl, rfl, rfl, rfl, rfl⟩, rfl, rfl, rfl, rfl, rfl, rfl, rfl⟩

/-- Settles O13: the refusal is all that the step answers. -/
theorem secondAgentIsRefused : Obligations.SecondAgentIsRefused := fun s a he => by
  rw [step_of_nextEvent he]
  rfl

end Sys2Proof.Machine
end

section
/-! SUPPORT. Two accesses of the host port in a row: a write and a read of the same location (spec/20_memory.md R62), and the
read and the write of `FLIP` (spec/30_encoding.md R87). -/

namespace Sys2Proof.Machine

/-! A read right after a write (R62). -/

section WriteRead

variable {n : Nat} (f : CellFile) (c : Cells n) (v : Byte) (s : State)

theorem readByteAt_put_byte {k : Nat} (hk : 8 * k + 8 ≤ n) :
    readByteAt f (c.put (byteMask n k) (byteTo n k v)) k s = .next (v, s) := by
  rw [readByteAt_of_written f hk (byteAt_put_byte_written c v hk), byteAt_put_byte_val c v hk]

theorem readCellAt_put_cell {i : Nat} (hi : i < n) :
    readCellAt f (c.put (cellMask n i) (cellTo n i v)) i s = .next (v &&& 0x01, s) := by
  rw [readCellAt_of_written f hi (getLsbD_put_cell_written c v hi), getLsbD_put_cell_val c v hi, and_one_eq_bitByte]

end WriteRead

/-- A write to a location, and a read of it whose load then answers `x`. -/
theorem andThen_memWrite_memRead {a : HostAddr} {l : Location} {v x : Byte} {s : State} (ha : locate a = l) (hl : l ≠ .cmd)
    (h : loadAt l (storeAt l v s) = .next (x, storeAt l v s)) :
    andThen (memWrite a v s) (memRead a) =
      andThen (memWrite a v s) fun t => .next { t with results := t.results ++ [x] } := by
  rw [memWrite_of_ne_cmd ha hl, andThen_next, andThen_next, memRead_of_loadAt ha h]

/-- Settles O23: the write leaves the byte or the cell written, so the read gives what the write put there. -/
theorem readReturnsTheLatestWrite : Obligations.ReadReturnsTheLatestWrite := by
  refine fun addr v s => ⟨?byte, ?cell⟩
  case byte =>
    rintro (hi | ⟨lo, hi⟩)
    · exact andThen_memWrite_memRead (locate_of_frame_offset hi) nofun (readByteAt_put_byte _ _ _ _ (by omega))
    · exact andThen_memWrite_memRead (locate_of_payload_offset lo hi) nofun (readByteAt_put_byte _ _ _ _ (by omega))
  case cell =>
    rintro (⟨lo, hi⟩ | ⟨lo, hi⟩ | ⟨lo, hi⟩)
    · exact andThen_memWrite_memRead (locate_of_raw_offset lo hi) nofun (readCellAt_put_cell _ _ _ _ (by omega))
    · exact andThen_memWrite_memRead (locate_of_deint_offset lo hi) nofun (readCellAt_put_cell _ _ _ _ (by omega))
    · exact andThen_memWrite_memRead (locate_of_cw_offset lo hi) nofun (readCellAt_put_cell _ _ _ _ (by omega))

/-! One location, one offset (R51). -/

/-- The offset of a location; the reserved ones share the value 0. -/
def Location.offset : Location → Nat
  | .frame n => n
  | .payload n => 0x040 + n
  | .raw i => 0x100 + i
  | .deint i => 0x200 + i
  | .cw i => 0x300 + i
  | .corr => 0x310
  | .cmd => 0x3F0
  | .status => 0x3F1
  | .reserved => 0

theorem toNat_eq_offset_locate {a : HostAddr} (h : locate a ≠ .reserved) : a.toNat = (locate a).offset := by
  rcases locate_cases a with ⟨n, hl, -, ha⟩ | ⟨n, hl, -, ha⟩ | ⟨n, hl, -, ha⟩ | ⟨n, hl, -, ha⟩ | ⟨n, hl, -, ha⟩ | ⟨hl, ha⟩ |
    ⟨hl, ha⟩ | ⟨hl, ha⟩ | hl
  rotate_right
  · exact absurd hl h
  all_goals rw [hl]; exact ha

/-- Two offsets of one location that is not reserved are the same. -/
theorem locate_inj {a b : HostAddr} (h : locate b = locate a) (ha : locate a ≠ .reserved) : b = a := by
  apply BitVec.eq_of_toNat_eq
  rw [toNat_eq_offset_locate ha, toNat_eq_offset_locate (h ▸ ha), h]

theorem locate_of_isWritableCell {a : HostAddr} (h : isWritableCell a = true) :
    (∃ i, i < 196 ∧ locate a = .raw i) ∨ (∃ i, i < 196 ∧ locate a = .deint i) ∨ (∃ i, i < 15 ∧ locate a = .cw i) := by
  rcases locate_cases a with ⟨n, hl, -⟩ | ⟨n, hl, -⟩ | ⟨n, hl, hn, -⟩ | ⟨n, hl, hn, -⟩ | ⟨n, hl, hn, -⟩ | ⟨hl, -⟩ |
    ⟨hl, -⟩ | ⟨hl, -⟩ | hl
  case inr.inr.inl => exact .inl ⟨n, Nat.lt_succ_of_le hn, hl⟩
  case inr.inr.inr.inl => exact .inr (.inl ⟨n, Nat.lt_succ_of_le hn, hl⟩)
  case inr.inr.inr.inr.inl => exact .inr (.inr ⟨n, Nat.lt_succ_of_le hn, hl⟩)
  all_goals simp only [isWritableCell, hl, Bool.false_eq_true] at h

/-! `FLIP` (R87). -/

/-- A store neither looks at the host's side nor touches it. -/
theorem storeAt_of_host_side (l : Location) (v : Byte) (s : State) (p : List HostEvent) (k : Nat) (r : List Byte) :
    storeAt l v { s with pending := p, pc := k, results := r } =
      { storeAt l v s with pending := p, pc := k, results := r } := by
  cases l <;> rfl

theorem bitByte_xor_one_and_one (b : Bool) : (bitByte b ^^^ 0x01) &&& 0x01 = bitByte b ^^^ 0x01 := by
  cases b <;> rfl

theorem eq_true_of_bitByte_eq_one {b : Bool} (h : bitByte b = 0x01) : b = true :=
  eq_true_of_bitByte_ne_zero (h ▸ by decide)

section Flip

variable {s : State} {a : HostAddr} {rest : List HostEvent} (hp : s.pending = hostProgram [.flip a] ++ rest)
include hp

/-- The two steps of `FLIP`: if the read gives `x`, then `x XOR 0x01` is stored. -/
theorem flip_steps {x : Byte} (ha : locate a ≠ .cmd) (hx : loadAt (locate a) s = .next (x, s)) :
    andThen (step s) step = .next
      { storeAt (locate a) (x ^^^ 0x01) s with pending := rest, pc := s.pc + 2, results := s.results ++ [x] } := by
  have hpending : s.pending = .access .host (.rd a) :: .access .host (.wr a (.lastXor 0x01)) :: rest := hp
  have hread : step s = .next
      { s with pending := s.pending.tail, pc := s.pc + 1, results := s.results ++ [x] } := by
    rw [step_of_nextEvent (e := .access .host (.rd a)) (by rw [nextEvent, hpending]; rfl), perform, memRead_of_loadAt rfl hx,
      andThen_next]
    rfl
  have hwrite (r : State) (hr : r.results = s.results ++ [x]) :
      perform (.access .host (.wr a (.lastXor 0x01))) r = .next (storeAt (locate a) (x ^^^ 0x01) r) := by
    rw [perform, resolveData, hr, List.getLast?_concat, andThen_next, memWrite_of_ne_cmd rfl ha]
  rw [hread, andThen_next, step_of_nextEvent (e := .access .host (.wr a (.lastXor 0x01))) (by rw [nextEvent, hpending]; rfl),
    hwrite _ rfl, andThen_next, storeAt_of_host_side, advance, hpending]
  rfl

/-- `FLIP` of a location that is cell `i` of the file `c`, for its read, its write and `peek` alike, when the cell is written. -/
theorem flip_cell {n : Nat} {c : Cells n} {i : Nat} (f : CellFile) (hi : i < n) (hcmd : locate a ≠ .cmd)
    (hreserved : locate a ≠ .reserved) (hload : loadAt (locate a) s = readCellAt f c i s)
    (hpeek : peek s a = (bitByte (c.val.getLsbD i), bitByte (c.written.getLsbD i)))
    (hstore : ∀ v r, peek { storeAt (locate a) v s with pending := rest, pc := s.pc + 2, results := r } a =
      (bitByte ((c.put (cellMask n i) (cellTo n i v)).val.getLsbD i),
        bitByte ((c.put (cellMask n i) (cellTo n i v)).written.getLsbD i)))
    (hwritten : (peek s a).2 = 0x01) :
    ∃ t, andThen (step s) step = .next t ∧ peek t a = ((peek s a).1 ^^^ 0x01, 0x01) ∧ (∀ b, b ≠ a → peek t b = peek s b) ∧
      t.pending = rest ∧ t.pc = s.pc + 2 ∧ t.results = s.results ++ [(peek s a).1] := by
  rw [hpeek] at hwritten ⊢
  rw [readCellAt_of_written f hi (eq_true_of_bitByte_eq_one hwritten)] at hload
  refine ⟨_, flip_steps hp hcmd hload, ?_, fun b hb => ?_, rfl, rfl, rfl⟩
  · rw [hstore, peek_put_cell c _ hi, bitByte_xor_one_and_one]
  · have hmisses := Location.footprint_misses_of_ne fun h => hb (locate_inj h hreserved)
    exact (storeAt_storesOnly (locate a) (bitByte (c.val.getLsbD i) ^^^ 0x01) s).peek_eq hmisses

end Flip

/-- Settles O24: a written cell reads as it stands and takes the inverse's bit 0; CORR reads as it stands and ignores the write. -/
theorem flipInvertsOneBitCell : Obligations.FlipInvertsOneBitCell := by
  refine ⟨fun s a rest ha hw hp => ?cell, fun s rest hp => ?corr⟩
  case cell =>
    obtain ⟨i, hi, hl⟩ | ⟨i, hi, hl⟩ | ⟨i, hi, hl⟩ := locate_of_isWritableCell ha
    · exact flip_cell hp .raw hi (by rw [hl]; nofun) (by rw [hl]; nofun) (by rw [hl]; rfl) (by rw [peek, hl])
        (fun v r => by rw [peek, hl]; rfl) hw
    · exact flip_cell hp .deint hi (by rw [hl]; nofun) (by rw [hl]; nofun) (by rw [hl]; rfl) (by rw [peek, hl])
        (fun v r => by rw [peek, hl]; rfl) hw
    · exact flip_cell hp .cw hi (by rw [hl]; nofun) (by rw [hl]; nofun) (by rw [hl]; rfl) (by rw [peek, hl])
        (fun v r => by rw [peek, hl]; rfl) hw
  case corr =>
    have hl : locate (0x310 : HostAddr) = .corr := locate_of_corr_offset rfl
    rw [flip_steps hp (by rw [hl]; nofun) (by rw [hl]; rfl), hl, ← bitByte_eq_setWidth]
    rfl

end Sys2Proof.Machine
end

section
/-! SUPPORT. The correction loop's free order and single errors (spec/42_bptc.md R170, R173). -/

namespace Sys2Proof.Machine

/-! The order within a pass (R170). -/

theorem foldl_correctCol_perm {l : List Nat} (hp : l.Perm (List.range 15)) (x : Working) :
    l.foldl correctCol x = (List.range 15).foldl correctCol x := by
  have hlt : ∀ c ∈ List.range 15, c < 15 := fun c => List.mem_range.1
  rw [foldl_correctCol l (hp.nodup_iff.2 List.nodup_range) (fun c hc => hlt c (hp.mem_iff.1 hc)),
    foldl_correctCol _ List.nodup_range hlt, foldl_putCol_perm (fun w => (h1393Dec w).1) hp List.nodup_range hlt, hp.any_eq]

theorem foldl_correctRow_perm {l : List Nat} (hp : l.Perm (List.range 9)) (x : Working) :
    l.foldl correctRow x = (List.range 9).foldl correctRow x := by
  have hlt : ∀ r ∈ List.range 9, r < 13 := fun r hr => Nat.lt_trans (List.mem_range.1 hr) (by decide)
  rw [foldl_correctRow l (hp.nodup_iff.2 List.nodup_range) (fun r hr => hlt r (hp.mem_iff.1 hr)),
    foldl_correctRow _ List.nodup_range hlt, foldl_putRow_perm (fun w => (h15113Dec w).1) hp List.nodup_range hlt, hp.any_eq]

/-- Settles O50: distinct columns, and distinct rows, share no position; DEINT[0] is in neither. -/
theorem correctionOrderWithinLoopsIsFree : Obligations.CorrectionOrderWithinLoopsIsFree :=
  ⟨fun x _ hp => foldl_correctCol_perm hp x, fun x _ hp => foldl_correctRow_perm hp x, correct_xor_cellMask_zero,
    getLsbD_correct_zero⟩

/-- Settles O60: an encoded plane is a plane of codewords, in which DEINT[0] is not looked at and any other position is mended. -/
theorem weightOneErrorsTakeTwoPasses : Obligations.WeightOneErrorsTakeTwoPasses := by
  intro y i hi
  have hcode := codewordPlane_encodeParity (placeData y)
  refine ⟨?payload, ?passes⟩
  case payload =>
    rw [extractData_correct_codewordPlane_xor_cellMask hcode hi, extractData_encodeParity_placeData]
  case passes =>
    rcases Nat.eq_zero_or_pos i with rfl | lo
    · rw [correct_xor_cellMask_zero, correct_codewordPlane hcode, if_pos rfl]
    · rw [correct_codewordPlane_xor_cellMask hcode lo hi, if_neg (Nat.ne_of_gt lo)]

end Sys2Proof.Machine
end

section
/-! SUPPORT. The statements about command words (spec/30_encoding.md R81 to R84) and about NOP (spec/60_exceptions.md R201). -/

namespace Sys2Proof.Machine

/-- Settles O1: each word is split into its fields and looked up. -/
theorem commandWordsWrittenOut : Obligations.CommandWordsWrittenOut :=
  ⟨rfl, rfl, rfl, rfl, rfl, rfl, rfl, rfl, rfl⟩

theorem eq_encode_of_decode {v : Byte} {i : Instr} (h : decode v = .ok i) : v = encode i := by
  obtain ⟨j, rfl⟩ | hv := eq_encode_or_reservedWord v
  · rw [decode_encode] at h
    rw [Except.ok.inj h]
  · rw [decode_of_reservedWord hv] at h
    cases h

/-- Settles O2: a word is some command's, and decoded as it, or reserved, and rejected. -/
theorem decodeReadsExactlyTheEncodedWord : Obligations.DecodeReadsExactlyTheEncodedWord := by
  refine ⟨fun i _ => decode_encode i, fun v i => eq_encode_of_decode, fun v hv => decode_of_reservedWord ?_⟩
  exact (reservedWord_iff_not_exists_encode v).2 fun ⟨i, hi⟩ => hv i hi.symm

theorem reservedWord_iff_decode (v : Byte) : reservedWord v = true ↔ decode v = .error (.reserved v) := by
  refine ⟨decode_of_reservedWord, fun h => (reservedWord_iff_not_exists_encode v).2 ?_⟩
  rintro ⟨i, rfl⟩
  rw [decode_encode] at h
  cases h

/-- Settles O3: the ranges of R84, the decoder on them, their count, and the exception a reserved word raises. -/
theorem reservedWordsOnlySetIll : Obligations.ReservedWordsOnlySetIll := by
  refine ⟨fun v => ?ranges, reservedWord_iff_decode, by decide +kernel, fun v s hv => ?exception⟩
  case ranges => simp only [reservedWord, Bool.or_eq_true, Bool.and_eq_true, decide_eq_true_eq]; omega
  case exception =>
    rw [memWrite_cmd, executeWord_of_reservedWord hv]
    rfl

/-- Settles O6: the word 0x00, and a command that only completes. -/
theorem nopOnlyClearsStatus : Obligations.NopOnlyClearsStatus := ⟨rfl, fun _ => rfl⟩

end Sys2Proof.Machine
end
